-- ==== Sys2Proof/Word.lean ====
section
/-! DEFINITION. The words of BBI2CM and the closed sets of names its rules use
(00_scope.md R11 to R14, 10_state.md R23, R24, R30, R33, R35, R40, 60_exceptions.md R256). -/

namespace Sys2Proof

/-- One byte: a pin identifier, a register number, a payload byte, a buffer index, a length. -/
abbrev Byte := BitVec 8

/-- A 7-bit I2C device address (20_memory.md R61). -/
abbrev Addr := BitVec 7

/-- A command word (30_encoding.md R100). -/
abbrev Word := BitVec 64

/-- A response word (30_encoding.md R104). -/
abbrev Response := BitVec 32

/-- The data field of a response, and a status view (30_encoding.md R104, 10_state.md R43). -/
abbrev Data := BitVec 24

/-- The direction of a transaction: doc00's `isRead` (30_encoding.md R102, `rw`). -/
inductive Dir where
  | write
  | read
  deriving DecidableEq, Repr

/-- The four status views that RDSTAT reads (45_host_access.md R232). -/
inductive View where
  | status
  | config
  | scanstat
  | found
  deriving DecidableEq, Repr

/-- The drive state of a line; there is no third value (10_state.md R24). -/
inductive Drive where
  | low
  | rel
  deriving DecidableEq, Repr

/-- The speed tier; the 2-bit value 3 is never held (10_state.md R23). -/
inductive Tier where
  | fast
  | medium
  | slow
  deriving DecidableEq, Repr

/-- The scanner's state (10_state.md R30, 44_scanner.md R214). -/
inductive ScanState where
  | idle
  | scanning
  | found
  | exhausted
  deriving DecidableEq, Repr

/-- The outcome of the last scan (10_state.md R33). -/
inductive ScanResult where
  | none
  | found
  | noSensors
  | busFault
  deriving DecidableEq, Repr

/-- The device kinds; codes 6 and 7 are never held (10_state.md R35). -/
inductive Kind where
  | unknown
  | uv
  | co2
  | rtcA
  | rtcB
  | imu
  deriving DecidableEq, Repr

/-- The response codes (30_encoding.md R105). No rule yields `hwTimeout` (60_exceptions.md R244). -/
inductive Code where
  | ok
  | noAck
  | busFault
  | noSensors
  | hwTimeout
  | badArg
  | notConfigured
  | badCmd
  deriving DecidableEq, Repr

/-- The events of the ghost trace, one for each micro-operation issued (10_state.md R40).
The bit of `rd` is the level sampled, `true` for high. -/
inductive Event where
  | sda0
  | sda1
  | scl0
  | scl1
  | dly
  | rd (b : Bool)
  deriving DecidableEq, Repr

/-- The pin modes of the GPIO collaborator's `setDirection` (60_exceptions.md R256). -/
inductive PinMode where
  | output
  | input
  | inputPullup
  | inputPulldown
  deriving DecidableEq, Repr

/-- The calls of the two collaborators' interfaces (60_exceptions.md R256, R258).
`read` carries the level that the collaborator returned. -/
inductive Call where
  | setDirection (pin : Byte) (mode : PinMode)
  | write (pin : Byte) (level : Bool)
  | read (pin : Byte) (level : Bool)
  | delayMicroseconds (n : Nat)
  deriving DecidableEq, Repr

end Sys2Proof
end

