-- ==== Sys2Proof/Syntax.lean ====
section
/-! DEFINITION. The 14 commands of BBI2CM with their operands (30_encoding.md R101 to R103); one constructor
for each row of spec/opcode_table.json. The operand types have exactly the widths of R102. -/

namespace Sys2Proof

/-- A command of BBI2CM. -/
inductive Instr where
  /-- CONFIGURE sda, scl, speed (41_engine_primitives.md R151). -/
  | configure (sda scl : Byte) (speed : BitVec 32)
  /-- START a7, rw (R152). -/
  | start (a7 : Addr) (rw : Dir)
  /-- STOP (R154). -/
  | stop
  /-- WRITEBYTE b (R156). -/
  | writeByte (b : Byte)
  /-- READBYTE last (R158); `true` is LAST. -/
  | readByte (last : Bool)
  /-- WRITEN a7, len (42_engine_transfers.md R170). -/
  | writeN (a7 : Addr) (len : Byte)
  /-- READN a7, len (R172). -/
  | readN (a7 : Addr) (len : Byte)
  /-- PROBE a7 (R174). -/
  | probe (a7 : Addr)
  /-- READREG a7, reg, len (R176). -/
  | readReg (a7 : Addr) (reg len : Byte)
  /-- SCAN (44_scanner.md R210). -/
  | scan
  /-- IDENTIFY a7 (43_identify.md R190). -/
  | identify (a7 : Addr)
  /-- WRTX idx, val (45_host_access.md R230). -/
  | wrTx (idx val : Byte)
  /-- RDRX idx (R231). -/
  | rdRx (idx : Byte)
  /-- RDSTAT sel (R232). -/
  | rdStat (sel : View)
  deriving DecidableEq, Repr

end Sys2Proof
end

