-- ==== Sys2Proof/Decode.lean ====
section
/-! DEFINITION. The decoder of command words, total on every 64-bit word and refusing by name (30_encoding.md
R100 to R103, R107, R108), and after it the encoder, written from the same tables. -/

namespace Sys2Proof

/-- Why a word is no command. Both are answered BAD_CMD. -/
inductive DecodeError where
  /-- The opcode is not in the map (R107). -/
  | reservedOpcode (op : Byte)
  /-- The opcode is in the map, and a bit that its format requires to be zero is 1 (R108). -/
  | mustBeZero (op : Byte)
  deriving DecidableEq, Repr

/-! The fields of a word (R100, R101). -/

/-- `op = W[63:56]`. -/
def opField (w : Word) : Byte := w.extractLsb' 56 8

/-- `f1 = W[55:48]`. -/
def f1Field (w : Word) : Byte := w.extractLsb' 48 8

/-- `f2 = W[47:40]`. -/
def f2Field (w : Word) : Byte := w.extractLsb' 40 8

/-- `f3 = W[39:32]`. -/
def f3Field (w : Word) : Byte := w.extractLsb' 32 8

/-- `f4 = W[31:0]`. -/
def f4Field (w : Word) : BitVec 32 := w.extractLsb' 0 32

/-- `a7 = W[54:48]`. -/
def a7Field (w : Word) : Addr := w.extractLsb' 48 7

/-- `rw = W[40]`. -/
def rwField (w : Word) : Dir := if w.getLsbD 40 then .read else .write

/-- `last = W[48]`. -/
def lastField (w : Word) : Bool := w.getLsbD 48

/-- `sel = W[49:48]` (45_host_access.md R232 numbers the views). -/
def selField (w : Word) : View :=
  match w.getLsbD 49, w.getLsbD 48 with
  | false, false => .status
  | false, true => .config
  | true, false => .scanstat
  | true, true => .found

/-- R103: a word selects the command when `(W & mask) == match`. -/
def select (w mask pattern : Word) (i : Instr) : Except DecodeError Instr :=
  if w &&& mask = pattern then .ok i else .error (.mustBeZero (opField w))

/-- The opcode map of R103. -/
def decode (w : Word) : Except DecodeError Instr :=
  match (opField w).toNat with
  | 0x01 => select w 0xFF0000FF00000000#64 0x0100000000000000#64
      (.configure (f1Field w) (f2Field w) (f4Field w))
  | 0x02 => select w 0xFF80FEFFFFFFFFFF#64 0x0200000000000000#64 (.start (a7Field w) (rwField w))
  | 0x03 => select w 0xFFFFFFFFFFFFFFFF#64 0x0300000000000000#64 .stop
  | 0x04 => select w 0xFF00FFFFFFFFFFFF#64 0x0400000000000000#64 (.writeByte (f1Field w))
  | 0x05 => select w 0xFFFEFFFFFFFFFFFF#64 0x0500000000000000#64 (.readByte (lastField w))
  | 0x06 => select w 0xFF80FF00FFFFFFFF#64 0x0600000000000000#64 (.writeN (a7Field w) (f3Field w))
  | 0x07 => select w 0xFF80FF00FFFFFFFF#64 0x0700000000000000#64 (.readN (a7Field w) (f3Field w))
  | 0x08 => select w 0xFF80FFFFFFFFFFFF#64 0x0800000000000000#64 (.probe (a7Field w))
  | 0x09 => select w 0xFF800000FFFFFFFF#64 0x0900000000000000#64
      (.readReg (a7Field w) (f2Field w) (f3Field w))
  | 0x0A => select w 0xFFFFFFFFFFFFFFFF#64 0x0A00000000000000#64 .scan
  | 0x0B => select w 0xFF80FFFFFFFFFFFF#64 0x0B00000000000000#64 (.identify (a7Field w))
  | 0x10 => select w 0xFF0000FFFFFFFFFF#64 0x1000000000000000#64 (.wrTx (f1Field w) (f2Field w))
  | 0x11 => select w 0xFF00FFFFFFFFFFFF#64 0x1100000000000000#64 (.rdRx (f1Field w))
  | 0x12 => select w 0xFFFCFFFFFFFFFFFF#64 0x1200000000000000#64 (.rdStat (selField w))
  | _ => .error (.reservedOpcode (opField w))

/-- The decoder on a table word: a command is one 64-bit word (R100), and every bit that the row is not given is 0. -/
def decodeTableWord (nbits w : Nat) : Option Instr :=
  if nbits ≤ 64 ∧ w < 2 ^ 64 then
    match decode (BitVec.ofNat 64 w) with
    | .ok i => some i
    | .error _ => none
  else none

/-! The encoder. -/

/-- The bit of `rw`. -/
def Dir.bit : Dir → BitVec 1
  | .write => 0#1
  | .read => 1#1

/-- The two bits of `sel`. -/
def View.bits : View → BitVec 2
  | .status => 0#2
  | .config => 1#2
  | .scanstat => 2#2
  | .found => 3#2

/-- The word of a command, field by field from bit 63 down (R101, R103). -/
def encode : Instr → Word
  | .configure sda scl speed => (0x01#8 ++ sda ++ scl ++ 0#8 ++ speed : BitVec 64)
  | .start a7 rw => (0x02#8 ++ 0#1 ++ a7 ++ 0#7 ++ rw.bit ++ 0#40 : BitVec 64)
  | .stop => (0x03#8 ++ 0#56 : BitVec 64)
  | .writeByte b => (0x04#8 ++ b ++ 0#48 : BitVec 64)
  | .readByte last => (0x05#8 ++ 0#7 ++ BitVec.ofBool last ++ 0#48 : BitVec 64)
  | .writeN a7 len => (0x06#8 ++ 0#1 ++ a7 ++ 0#8 ++ len ++ 0#32 : BitVec 64)
  | .readN a7 len => (0x07#8 ++ 0#1 ++ a7 ++ 0#8 ++ len ++ 0#32 : BitVec 64)
  | .probe a7 => (0x08#8 ++ 0#1 ++ a7 ++ 0#48 : BitVec 64)
  | .readReg a7 reg len => (0x09#8 ++ 0#1 ++ a7 ++ reg ++ len ++ 0#32 : BitVec 64)
  | .scan => (0x0A#8 ++ 0#56 : BitVec 64)
  | .identify a7 => (0x0B#8 ++ 0#1 ++ a7 ++ 0#48 : BitVec 64)
  | .wrTx idx val => (0x10#8 ++ idx ++ val ++ 0#40 : BitVec 64)
  | .rdRx idx => (0x11#8 ++ idx ++ 0#48 : BitVec 64)
  | .rdStat sel => (0x12#8 ++ 0#6 ++ sel.bits ++ 0#48 : BitVec 64)

end Sys2Proof
end

