-- ==== Sys2Proof/Config.lean ====
section
/-! DEFINITION. The parameters of BBI2CM (00_scope.md R9, R10) and the model's free values.

A parameter that R9 marks OPEN is "an argument of the model": it is a field of `Params`, and a claim about
every state is a claim about every value of it. The literals that R9 gives from the source, or decides,
are named constants, so that a corrected value is a change of this file only (R10). -/

namespace Sys2Proof

/-- The parameters that R9 leaves OPEN, and SCAN_LAST, which R9 lets a model take as a configuration field. -/
structure Params where
  /-- BUF_LEN. -/
  bufLen : Nat
  /-- T_FAST, in microseconds. -/
  tFast : Nat
  /-- T_MED, in microseconds. -/
  tMed : Nat
  /-- T_SLOW, in microseconds. -/
  tSlow : Nat
  /-- SCAN_LAST. -/
  scanLast : Addr
  /-- One of the two PORT_CODES. -/
  portA : BitVec 4
  /-- The other of the two PORT_CODES. -/
  portB : BitVec 4
  /-- ADDR_CO2. -/
  addrCo2 : Addr
  /-- ADDR_RTC_A. -/
  addrRtcA : Addr
  /-- REG_RTC_A_STATUS. -/
  regRtcAStatus : Byte
  /-- MASK_RTC_A_TOP. -/
  maskRtcATop : Byte
  /-- ADDR_RTC_SHARED. -/
  addrRtcShared : Addr
  /-- REG_RTC_B_THRESH. -/
  regRtcBThresh : Byte
  /-- VAL_RTC_B_TEST. -/
  valRtcBTest : Byte
  /-- REG_IMU_WHOAMI. -/
  regImuWhoami : Byte
  /-- VAL_IMU_WHOAMI. -/
  valImuWhoami : Byte
  deriving DecidableEq, Repr

/-- SPEED_FAST_MIN, in hertz (R9). -/
def Config.speedFastMin : BitVec 32 := 400000#32

/-- SPEED_MED_MIN, in hertz (R9). -/
def Config.speedMedMin : BitVec 32 := 100000#32

/-- SCAN_FIRST (R9). -/
def Config.scanFirst : Addr := 4#7

/-- SCAN_LAST as the spec decides it, 127 (R9, 90_conflicts.md C1). -/
def Config.scanLast : Addr := 127#7

/-- VALID_MIN (R9). -/
def Config.validMin : Addr := 16#7

/-- BAD_LIMIT (R9). -/
def Config.badLimit : BitVec 4 := 10#4

/-- ADDR_UV (R9). -/
def Config.addrUv : Addr := 0x53#7

/-- REG_UV_PARTID (R9). -/
def Config.regUvPartid : Byte := 0x06#8

/-- VAL_UV_PARTID (R9). -/
def Config.valUvPartid : Byte := 0xB2#8

/-- Which parameters count as legal. All but the last constraint are R9's. The last one, SCAN_LAST at least VALID_MIN, is
the model's: R9 gives the value 127 and names 0x77 as another, and gives no bound (DESIGN CHOICE, log entry 5). -/
abbrev Params.Legal (p : Params) : Prop :=
  2 ≤ p.bufLen ∧ p.bufLen ≤ 255 ∧ p.tFast ≤ p.tMed ∧ p.tMed ≤ p.tSlow ∧ p.portA ≠ p.portB ∧
    p.maskRtcATop ≠ 0#8 ∧ Config.validMin ≤ p.scanLast

/-! The free constants behind the OPEN parameters (DESIGN CHOICE, log entry 4): none of them has a body. -/

opaque Config.freeBufLen : Nat
opaque Config.freeTFast : Nat
opaque Config.freeTMed : Nat
opaque Config.freeTSlow : Nat
opaque Config.freePortA : BitVec 4
opaque Config.freePortB : Nat
opaque Config.freeAddrCo2 : Addr
opaque Config.freeAddrRtcA : Addr
opaque Config.freeRegRtcAStatus : Byte
opaque Config.freeMaskRtcATop : Nat
opaque Config.freeAddrRtcShared : Addr
opaque Config.freeRegRtcBThresh : Byte
opaque Config.freeValRtcBTest : Byte
opaque Config.freeRegImuWhoami : Byte
opaque Config.freeValImuWhoami : Byte

/-- The parameters of the block that leaves reset: every OPEN one is free within the range that R9 allows it
and no narrower; SCAN_LAST is the spec's 127 (log entries 4 and 5). -/
def Config.params : Params where
  bufLen := 2 + Config.freeBufLen % 254
  tFast := Config.freeTFast
  tMed := Config.freeTFast + Config.freeTMed
  tSlow := Config.freeTFast + Config.freeTMed + Config.freeTSlow
  scanLast := Config.scanLast
  portA := Config.freePortA
  portB := Config.freePortA + BitVec.ofNat 4 (1 + Config.freePortB % 15)
  addrCo2 := Config.freeAddrCo2
  addrRtcA := Config.freeAddrRtcA
  regRtcAStatus := Config.freeRegRtcAStatus
  maskRtcATop := BitVec.ofNat 8 (1 + Config.freeMaskRtcATop % 255)
  addrRtcShared := Config.freeAddrRtcShared
  regRtcBThresh := Config.freeRegRtcBThresh
  valRtcBTest := Config.freeValRtcBTest
  regImuWhoami := Config.freeRegImuWhoami
  valImuWhoami := Config.freeValImuWhoami

/-! The free values of the behaviours that the spec leaves without a value. -/

/-- The bus oracle of 20_memory.md R77: the level of SDA that the environment gives, free for every draw.
Arguments: how many resets were asserted before, how many free bits were drawn before, the whole trace so far, and
the calls on the GPIO and delay ports so far, which say on which pins it happened (log entry 7). -/
opaque Config.busOracle : Nat → Nat → List Event → List Call → Bool

/-- What `read` returns on a pin the GPIO collaborator does not support, when data and clock are one pin, or on a pin that
the SDA wire does not hang on (93_implementation_defined.md U5, U2, U6): free for every call (log entries 8 and 9).
Arguments as above. -/
opaque Config.unreadablePin : Nat → Nat → List Event → List Call → Bool

/-- The pin that the SDA wire of the bus hangs on; how the board is wired is no rule's (log entry 9). -/
opaque Config.sdaWire : Byte

/-- The pin that the SCL wire of the bus hangs on (log entry 9). -/
opaque Config.sclWire : Byte

/-- The byte a TXBUF entry holds before a WRTX writes it (93_implementation_defined.md U3).
Arguments: how many resets were asserted before, and the index (log entry 6). -/
opaque Config.txInit : Nat → Nat → Byte

/-- The byte an RXBUF entry holds before a READN or READREG writes it (U3). Arguments as above (log entry 6). -/
opaque Config.rxInit : Nat → Nat → Byte

end Sys2Proof
end

