-- ==== Sys2Proof/Machine/State.lean ====
section
/-! DEFINITION. The state of BBI2CM (10_state.md R20 to R48), its ports (R41), its ghost trace (R40), and, as plain
data, what the outside world will do to it: the host's inputs and the bus environment (20_memory.md R77, R82, R83). -/

namespace Sys2Proof.Machine

/-- Why the block stops. There is no constructor: BBI2CM never traps and never stops (60_exceptions.md R240,
70_reset_and_hazards.md R290), so no step can end in a fault. Safe (log entry 17). -/
inductive Fault where
  deriving DecidableEq, Repr

/-- Why the model gives an instruction no meaning. -/
inductive Refusal where
  /-- Raised by a refused arm of `exec` for a command the model does not have yet; no arm raises it. Safe. -/
  | notModelled (mnemonic : String)
  deriving DecidableEq, Repr

/-- The register file of a reference responder, as (register number, byte) pairs: register numbers strictly
rising, no byte equal to what an unlisted register reads as (`Memory.wf`). -/
abbrev Memory := List Host.Cell

/-- Where a reference responder is in a transaction (20_memory.md R83). -/
inductive Phase where
  /-- Not addressed: `r` = 1 until the next START condition. -/
  | silent
  /-- Group 0: it collects the address byte. -/
  | address
  /-- The first data group of a write: the byte will be the register pointer. -/
  | pointer
  /-- A later data group of a write: the byte will go to `M[ptr]`. -/
  | store
  /-- A data group of a read. -/
  | read
  deriving DecidableEq, Repr

/-- The reference responder RR(A, M) of 20_memory.md R83, and the variant of 95_test_vectors.md section 3.5 that
acknowledges writes but does not store them (log entry 16). -/
structure Responder where
  /-- A. -/
  addr : Addr
  /-- M. -/
  mem : Memory
  /-- Whether later bytes of a write are stored; `true` for RR. -/
  stores : Bool
  /-- `ptr`. -/
  ptr : Byte
  /-- Where in a transaction it is. -/
  phase : Phase
  /-- The pulse of the group that is running or will come next, 1 to 9. -/
  pulse : Nat
  /-- Whether the clock has risen in that pulse. -/
  clocked : Bool
  /-- The bits collected in this group, the latest lowest. -/
  acc : Byte
  /-- The level it read in the ninth pulse of a read group: 1 is the master's NACK. -/
  nack : Bool
  deriving DecidableEq, Repr

/-- Who answers an RD() for which no answer is scripted, and what anyone but the block gives SDA (20_memory.md R72). -/
inductive Rest where
  /-- The bus oracle of R77: anything, `Config.busOracle`. -/
  | free
  /-- The fixture EMPTY of R82: every RD() returns 1. -/
  | empty
  /-- The fixture STUCK of R82: every RD() returns 0. -/
  | stuck
  /-- Reference responders sharing the bus; their `r` are ANDed (R83). R83 defines the sharing for responders "with
  different A" only. The list may also hold two of one address, and then both acknowledge, store and drive: the
  model's choice (DESIGN CHOICE, log entry 16). -/
  | responders (devices : List Responder)
  deriving DecidableEq, Repr

/-- The bus environment (20_memory.md R77): it is not state of the block but an argument of the step
(10_state.md R39), here as plain data, with the pins of the GPIO collaborator. `SEQ(b1, b2, ...; rest)` of
95_test_vectors.md is `script` = [b1, b2, ...]. -/
structure Bus where
  /-- The answers to the coming RD(), the next one first. -/
  script : List Bool
  /-- Who answers when the script is used up. -/
  rest : Rest
  /-- The pins of the GPIO collaborator that the block has as outputs at level 0, in rising order; every other pin is an
  input (40_microops.md R131 to R134). They are pins, not lines: CONFIGURE leaves them (70_reset_and_hazards.md R282), and
  so does `rst` (R271). -/
  held : List Byte
  /-- The pin that the SDA wire hangs on; no step changes it (log entry 9). -/
  sdaAt : Byte
  /-- The pin that the SCL wire hangs on; no step changes it (log entry 9). -/
  sclAt : Byte
  /-- `env_scl` of R72: `false` while anyone but the block pulls SCL. -/
  envScl : Bool
  /-- `env_scl` at the coming micro-operations, the next one first; it stands when they are used up (log entry 24). -/
  sclScript : List Bool
  deriving DecidableEq, Repr

/-- What the host presents to the block (10_state.md R41). -/
inductive Input where
  /-- `cmd_valid` = 1 with this `cmd_word`. -/
  | command (w : Word)
  /-- `rst` asserted between commands (70_reset_and_hazards.md R270). -/
  | reset
  /-- `rst` asserted while the command of this word runs, after so many of its micro-operations (R271). -/
  | resetDuring (w : Word) (n : Nat)
  deriving DecidableEq, Repr

/-- The state of the machine. -/
structure State where
  /-- The parameters (00_scope.md R9); no step changes them. -/
  params : Params
  /-- `configured` (10_state.md R21). -/
  configured : Bool
  /-- `sda_pin` (R22). -/
  sdaPin : Byte
  /-- `scl_pin` (R22). -/
  sclPin : Byte
  /-- `tier` (R23). -/
  tier : Tier
  /-- `sda_drv` (R24). -/
  sdaDrv : Drive
  /-- `scl_drv` (R24). -/
  sclDrv : Drive
  /-- `bus_open` (R25). -/
  busOpen : Bool
  /-- `ack` (R26). -/
  ack : Bool
  /-- `sr` (R27). -/
  sr : Byte
  /-- `TXBUF` (R28). -/
  txbuf : List Byte
  /-- `RXBUF` (R29). -/
  rxbuf : List Byte
  /-- `scan_state` (R30). -/
  scanState : ScanState
  /-- `scan_addr` (R31). -/
  scanAddr : BitVec 8
  /-- `bad_cnt` (R32). -/
  badCnt : BitVec 4
  /-- `scan_result` (R33). -/
  scanResult : ScanResult
  /-- `found_addr` (R34). -/
  foundAddr : Addr
  /-- `found_kind` (R34, R35). -/
  foundKind : Kind
  /-- `cmd_ready` (R41, R42). -/
  cmdReady : Bool
  /-- `rsp_valid` (R41): a response was delivered in the last step. -/
  rspValid : Bool
  /-- `rsp_word` (R41, 30_encoding.md R104). -/
  rspWord : Response
  /-- What the host will present, the next input first (R41, R42). -/
  inputs : List Input
  /-- The ghost trace (R40), oldest event first. -/
  trace : List Event
  /-- The calls made on the GPIO and delay ports (R41 c, d), oldest first; ghost, the model's own. -/
  calls : List Call
  /-- The bus environment (20_memory.md R77). -/
  bus : Bus
  /-- How many free bits have been drawn; the model's own. -/
  drawCtr : Nat
  /-- How many times `rst` has been asserted; the model's own. -/
  epoch : Nat
  deriving DecidableEq, Repr

/-- The state that reset leaves: the table of 10_state.md R48. What is not the block's (the parameters, the host's
inputs, the environment) and the model's own counters are given. The buffers hold free bytes
(93_implementation_defined.md U3). -/
def State.afterReset (params : Params) (inputs : List Input) (bus : Bus) (drawCtr epoch : Nat) : State where
  params := params
  configured := false
  sdaPin := 0x00#8
  sclPin := 0x00#8
  tier := .slow
  sdaDrv := .rel
  sclDrv := .rel
  busOpen := false
  ack := false
  sr := 0x00#8
  txbuf := (List.range params.bufLen).map (Config.txInit epoch)
  rxbuf := (List.range params.bufLen).map (Config.rxInit epoch)
  scanState := .idle
  scanAddr := 0x00#8
  badCnt := 0#4
  scanResult := .none
  foundAddr := 0x00#7
  foundKind := .unknown
  cmdReady := true
  rspValid := false
  rspWord := 0#32
  inputs := inputs
  trace := []
  calls := []
  bus := bus
  drawCtr := drawCtr
  epoch := epoch

/-- The machine right after power-on: R48, the free parameters, a host that presents nothing, no pin held, and the
free oracle on a bus that hangs on free pins and whose clock nobody holds (log entries 2, 4, 6, 7, 9, 10, 20, 24). -/
def State.reset : State :=
  State.afterReset Config.params [] ⟨[], .free, [], Config.sdaWire, Config.sclWire, true, []⟩ 0 0

end Sys2Proof.Machine
end

