-- ==== Sys2Proof/Machine/Bus.lean ====
section
/-! DEFINITION. How the bus environment reacts to the pins and how it answers an RD() (20_memory.md R72, R75, R77,
R82, R83). None of it is the block's: the block reaches it only through the micro-operations of
Sys2Proof/Machine/Ops.lean. -/

namespace Sys2Proof.Machine

/-- The reference responder RR(A, M), waiting for a START condition with `ptr` = 0 (R83). -/
def Responder.new (addr : Addr) (mem : Memory) : Responder where
  addr := addr
  mem := mem
  stores := true
  ptr := 0x00#8
  phase := .silent
  pulse := 1
  clocked := false
  acc := 0x00#8
  nack := false

/-- `r` of R83, the responder's contribution to SDA in the pulse that is running or will come next. -/
def Responder.drives (d : Responder) : Bool :=
  match d.phase with
  | .silent => true
  | .address => !(d.pulse == 9 && d.acc.extractLsb' 1 7 == d.addr)
  | .pointer => !(d.pulse == 9)
  | .store => !(d.pulse == 9)
  | .read => d.pulse == 9 || (Memory.read d.mem d.ptr.toNat).getLsbD (8 - d.pulse)

/-- A START condition: group 0 begins (R83). -/
def Responder.onStart (d : Responder) : Responder :=
  { d with phase := .address, pulse := 1, clocked := false, acc := 0x00#8, nack := false }

/-- A STOP condition: silent until the next START condition (R83). -/
def Responder.onStop (d : Responder) : Responder :=
  { d with phase := .silent, pulse := 1, clocked := false, acc := 0x00#8, nack := false }

/-- SCL rises with SDA at `level`: in pulses 1 to 8 the bit is collected, in pulse 9 the level is noted (R83). -/
def Responder.onRise (level : Bool) (d : Responder) : Responder :=
  if d.pulse == 9 then { d with clocked := true, nack := level }
  else { d with clocked := true, acc := (d.acc <<< 1) ||| (BitVec.ofBool level).setWidth 8 }

/-- The ninth pulse of a group is over: the next group begins, or silence (R83). -/
def Responder.nextGroup (d : Responder) : Responder :=
  let e : Responder := { d with pulse := 1, clocked := false, acc := 0x00#8 }
  match d.phase with
  | .silent => e
  | .address =>
    if d.acc.extractLsb' 1 7 == d.addr then
      (if d.acc.getLsbD 0 then { e with phase := .read } else { e with phase := .pointer })
    else { e with phase := .silent }
  | .pointer => { e with phase := .store, ptr := d.acc }
  | .store =>
    { e with mem := if d.stores then Memory.write d.mem d.ptr.toNat d.acc else d.mem, ptr := d.ptr + 1 }
  | .read => { e with phase := if d.nack then .silent else .read, ptr := d.ptr + 1 }

/-- SCL falls: the pulse that was running is over (R83). -/
def Responder.onFall (d : Responder) : Responder :=
  if d.clocked then
    (if d.pulse == 9 then d.nextGroup else { d with pulse := d.pulse + 1, clocked := false })
  else d

/-- What a responder makes of SDA going from `before` to `after` while the level of SCL is `scl`: with SCL high a fall is
a START condition and a rise a STOP condition (R75). -/
def Responder.sdaEdge (scl before after : Bool) (d : Responder) : Responder :=
  match scl, before, after with
  | true, true, false => d.onStart
  | true, false, true => d.onStop
  | _, _, _ => d

/-- What a responder makes of SCL going from `before` to `after` while the level of SDA is `level` (R83). -/
def Responder.sclEdge (before after level : Bool) (d : Responder) : Responder :=
  match before, after with
  | false, true => d.onRise level
  | true, false => d.onFall
  | _, _ => d

/-- `env_sda` of R72: 0 when anyone but the block pulls SDA. The free oracle gives the free bit `oracle` (R77), EMPTY and
STUCK are constant (R82), the responders' contributions are ANDed (R83). -/
def Rest.envSda (oracle : Bool) : Rest → Bool
  | .free => oracle
  | .empty => true
  | .stuck => false
  | .responders ds => ds.all Responder.drives

/-- How many free bits an unscripted answer draws. -/
def Rest.draws : Rest → Nat
  | .free => 1
  | .empty => 0
  | .stuck => 0
  | .responders _ => 0

/-- The same change for every responder on the bus. -/
def Rest.map (f : Responder → Responder) : Rest → Rest
  | .free => .free
  | .empty => .empty
  | .stuck => .stuck
  | .responders ds => .responders (ds.map f)

/-- What is known of the environment when it has seen an operation on a pin that is data and clock in one: nothing of the
responders, for which R83 gives no meaning; the fixtures EMPTY and STUCK stay what they are (log entry 9). -/
def Rest.confused : Rest → Rest
  | .free => .free
  | .empty => .empty
  | .stuck => .stuck
  | .responders _ => .free

/-- The same of the whole bus. -/
def Bus.confuse (b : Bus) : Bus := { b with rest := b.rest.confused }

/-- The pin becomes an output at level 0 (40_microops.md R131, R133). -/
def holdPin (pin : Byte) : List Byte → List Byte
  | [] => [pin]
  | p :: ps => if pin < p then pin :: p :: ps else if pin = p then p :: ps else p :: holdPin pin ps

/-- The pin becomes an input (R132, R134). -/
def freePin (pin : Byte) (held : List Byte) : List Byte := held.filter (fun p => !(p == pin))

/-- Either of the two. -/
def movePin (released : Bool) (pin : Byte) (held : List Byte) : List Byte :=
  if released then freePin pin held else holdPin pin held

/-- The held pins are in their canonical form: strictly rising. -/
def pinsWf : List Byte → Bool
  | [] => true
  | p :: ps => ps.all (fun q => decide (p < q)) && pinsWf ps

/-- What the block gives SDA (R72): 0 while it holds the pin that the wire hangs on. -/
def Bus.masterSda (b : Bus) : Bool := !b.held.contains b.sdaAt

/-- What the block gives SCL (R72). -/
def Bus.masterScl (b : Bus) : Bool := !b.held.contains b.sclAt

/-- `level(SDA)`: the AND of the block's contribution and everyone else's (R72). -/
def Bus.sda (oracle : Bool) (b : Bus) : Bool := b.masterSda && b.rest.envSda oracle

/-- `level(SCL)` (R72). The block never reads it (R74); the responders do. -/
def Bus.scl (b : Bus) : Bool := b.masterScl && b.envScl

/-- The bus `b` becomes `c`, and its responders see what that does to SDA and SCL. -/
def Bus.become (oracle : Bool) (b c : Bus) : Bus :=
  { c with rest := b.rest.map fun d =>
      (d.sdaEdge b.scl (b.sda oracle) (c.masterSda && b.rest.envSda oracle)).sclEdge b.scl c.scl (b.sda oracle) }

/-- A pin becomes an input or an output at level 0. Only a wire that hangs on it moves (R75, R83). -/
def Bus.movePin (released : Bool) (pin : Byte) (oracle : Bool) (b : Bus) : Bus :=
  b.become oracle { b with held := Machine.movePin released pin b.held }

/-- Before each micro-operation everyone but the block gives SCL its next scripted level; when the script is used up, it
stands (log entry 24). -/
def Bus.tick (oracle : Bool) (b : Bus) : Bus :=
  match b.sclScript with
  | [] => b
  | x :: xs => b.become oracle { b with envScl := x, sclScript := xs }

/-- The environment's answer to an RD(): a scripted one if there is one, else `env_sda`. The answer, the bus with a used
answer taken off the script, and how many free bits were drawn. -/
def Bus.answer (oracle : Bool) (b : Bus) : Bool × Bus × Nat :=
  match b.script with
  | x :: xs => (x, { b with script := xs }, 0)
  | [] => (b.rest.envSda oracle, b, b.rest.draws)

end Sys2Proof.Machine
end

