-- ==== Sys2Proof/Machine/Flags.lean ====
section
/-! DEFINITION. The codes of the closed sets (10_state.md R23, R24, R30, R33, R35), the acknowledge flag (R26), the
four status views (R43 to R46) and the response word (30_encoding.md R104, R105). -/

namespace Sys2Proof.Machine

/-- The bit of a drive state: 0 LOW, 1 REL (10_state.md R24). -/
def driveBit : Drive → BitVec 1
  | .low => 0#1
  | .rel => 1#1

/-- The code of a tier (R23). -/
def tierBits : Tier → BitVec 2
  | .fast => 0#2
  | .medium => 1#2
  | .slow => 2#2

/-- The code of a scanner state (R30). -/
def scanStateBits : ScanState → BitVec 2
  | .idle => 0#2
  | .scanning => 1#2
  | .found => 2#2
  | .exhausted => 3#2

/-- The code of a scan result (R33). -/
def scanResultBits : ScanResult → BitVec 2
  | .none => 0#2
  | .found => 1#2
  | .noSensors => 2#2
  | .busFault => 3#2

/-- The code of a device kind (R35). -/
def kindBits : Kind → BitVec 3
  | .unknown => 0#3
  | .uv => 1#3
  | .co2 => 2#3
  | .rtcA => 3#3
  | .rtcB => 4#3
  | .imu => 5#3

/-- A response code (30_encoding.md R105). -/
def codeBits : Code → BitVec 4
  | .ok => 0x0#4
  | .noAck => 0x1#4
  | .busFault => 0x2#4
  | .noSensors => 0x3#4
  | .hwTimeout => 0x4#4
  | .badArg => 0xD#4
  | .notConfigured => 0xE#4
  | .badCmd => 0xF#4

/-- The acknowledge flag of a sampled ACK bit: "low = acknowledged" (10_state.md R26, 41_engine_primitives.md R156). -/
def ackOf (k : Bool) : Bool := !k

/-- The response code of an operation that can only lack an acknowledge (60_exceptions.md R241). -/
def ackCode (ok : Bool) : Code := if ok then .ok else .noAck

/-- The response word `R[31:0]` (30_encoding.md R104). -/
def responseWord (c : Code) (data : Data) : Response := (codeBits c ++ 0#4 ++ data : BitVec 32)

/-- A byte, zero-extended to a data field. -/
def byteData (b : Byte) : Data := b.setWidth 24

/-- A kind, zero-extended to a data field (43_identify.md R190). -/
def kindData (k : Kind) : Data := (kindBits k).setWidth 24

/-- A device record in a data field: `[6:0]` the address, `[10:8]` the kind (10_state.md R46, 44_scanner.md R217). -/
def recordData (a : Addr) (k : Kind) : Data := (0#13 ++ kindBits k ++ 0#1 ++ a : BitVec 24)

/-- View 0, STATUS (10_state.md R43). -/
def statusView (s : State) : Data :=
  (0#8 ++ s.sr ++ 0#3 ++ BitVec.ofBool s.configured ++ driveBit s.sclDrv ++ driveBit s.sdaDrv ++
    BitVec.ofBool s.ack ++ BitVec.ofBool s.busOpen : BitVec 24)

/-- View 1, CONFIG (R44). -/
def configView (s : State) : Data :=
  (0#5 ++ BitVec.ofBool s.configured ++ tierBits s.tier ++ s.sclPin ++ s.sdaPin : BitVec 24)

/-- View 2, SCANSTAT (R45). -/
def scanstatView (s : State) : Data :=
  (0#8 ++ s.scanAddr ++ s.badCnt ++ scanResultBits s.scanResult ++ scanStateBits s.scanState : BitVec 24)

/-- View 3, FOUND (R46). -/
def foundView (s : State) : Data := recordData s.foundAddr s.foundKind

/-- `view(sel)` (45_host_access.md R232). -/
def view (sel : View) (s : State) : Data :=
  match sel with
  | .status => statusView s
  | .config => configView s
  | .scanstat => scanstatView s
  | .found => foundView s

end Sys2Proof.Machine
end

