-- ==== Sys2Proof/WellFormed.lean ====
section
/-! DEFINITION. Which commands have operands within the buffers (30_encoding.md R113). The widths of the
operands are in their types; what is left to check is BUF_LEN. A command that fails a check is still a command:
its meaning refuses it with BAD_ARG. -/

namespace Sys2Proof

/-- R113, one check for each command that names a buffer entry or a length. -/
def Instr.fits (bufLen : Nat) : Instr → Bool
  | .configure _ _ _ => true
  | .start _ _ => true
  | .stop => true
  | .writeByte _ => true
  | .readByte _ => true
  | .writeN _ len => decide (len.toNat ≤ bufLen)
  | .readN _ len => decide (len.toNat ≤ bufLen)
  | .probe _ => true
  | .readReg _ _ len => decide (len.toNat ≤ bufLen)
  | .scan => true
  | .identify _ => true
  | .wrTx idx _ => decide (idx.toNat < bufLen)
  | .rdRx idx => decide (idx.toNat < bufLen)
  | .rdStat _ => true

/-- A command whose index or length stays within BUF_LEN. -/
abbrev Instr.WellFormed (p : Params) (i : Instr) : Prop := i.fits p.bufLen = true

/-- R111: the commands that perform a micro-operation and so need the bus handle. -/
def Instr.needsHandle : Instr → Bool
  | .configure _ _ _ => false
  | .start _ _ => true
  | .stop => true
  | .writeByte _ => true
  | .readByte _ => true
  | .writeN _ _ => true
  | .readN _ _ => true
  | .probe _ => true
  | .readReg _ _ _ => true
  | .scan => true
  | .identify _ => true
  | .wrTx _ _ => false
  | .rdRx _ => false
  | .rdStat _ => false

end Sys2Proof
end

