-- ==== Sys2Proof/Machine/Operands.lean ====
section
/-! DEFINITION. The operands of the commands: the address byte, the bits of a byte in wire order, the tier of a speed,
the checks of 30_encoding.md R113, the entries of the two buffers, and the pins. -/

namespace Sys2Proof.Machine

/-- The bit of the direction: `rw` is doc00's `isRead` (30_encoding.md R102). -/
def readBit : Dir → Bool
  | .write => false
  | .read => true

/-- The address byte `((a7 << 1) | rw)[7:0]` (20_memory.md R67). -/
def addrByte (a7 : Addr) (rw : Dir) : Byte :=
  (a7.setWidth 8 <<< 1) ||| (BitVec.ofBool (readBit rw)).setWidth 8

/-- The bits of a byte in the order they travel: most significant first (20_memory.md R66). -/
def bitsMsbFirst (b : Byte) : List Bool :=
  [b.getLsbD 7, b.getLsbD 6, b.getLsbD 5, b.getLsbD 4, b.getLsbD 3, b.getLsbD 2, b.getLsbD 1, b.getLsbD 0]

/-- `((sr << 1) | k)[7:0]` (41_engine_primitives.md R158). -/
def shiftIn (sr : Byte) (k : Bool) : Byte := (sr <<< 1) ||| (BitVec.ofBool k).setWidth 8

/-- The tier of a requested speed, compared unsigned on 32 bits (R151). -/
def tierOf (speed : BitVec 32) : Tier :=
  if Config.speedFastMin ≤ speed then .fast
  else if Config.speedMedMin ≤ speed then .medium
  else .slow

/-- How long one DLY lasts at least, in microseconds (40_microops.md R135). -/
def tierDelay (p : Params) : Tier → Nat
  | .fast => p.tFast
  | .medium => p.tMed
  | .slow => p.tSlow

/-- `len` is legal when it does not exceed BUF_LEN (30_encoding.md R113). -/
def lenFits (p : Params) (len : Byte) : Bool := decide (len.toNat ≤ p.bufLen)

/-- `idx` is legal when it is below BUF_LEN (R113). -/
def idxFits (p : Params) (idx : Byte) : Bool := decide (idx.toNat < p.bufLen)

/-- The entry `idx` of a buffer. -/
def readEntry (buf : List Byte) (idx : Byte) : Byte := buf.getD idx.toNat 0x00#8

/-- A buffer with entry `idx` replaced. -/
def writeEntry (buf : List Byte) (idx val : Byte) : List Byte := buf.set idx.toNat val

/-- A buffer with its first entries replaced by `bytes`, in index order (20_memory.md R68); the others keep
their value, and the buffer its length. -/
def storeBytes : List Byte → List Byte → List Byte
  | [], buf => buf
  | _ :: _, [] => []
  | b :: bytes, _ :: buf => b :: storeBytes bytes buf

/-- The first `len` entries of a buffer (42_engine_transfers.md R170). -/
def payload (buf : List Byte) (len : Byte) : List Byte := buf.take len.toNat

/-- The GPIO collaborator supports a pin when its port code `pin[7:4]` is one of PORT_CODES (20_memory.md R64). -/
def supported (p : Params) (pin : Byte) : Bool :=
  pin.extractLsb' 4 4 == p.portA || pin.extractLsb' 4 4 == p.portB

/-- `sda_pin` = `scl_pin`: every operation acts on one pin (40_microops.md R139). -/
def onePin (s : State) : Bool := s.sdaPin == s.sclPin

/-- An RD() has an answer of the bus environment when the data pin is supported, is not the clock pin
(40_microops.md R138, R139; 93_implementation_defined.md U5, U2), and is the pin that the SDA wire hangs on (log entry
9). -/
def readable (s : State) : Bool := supported s.params s.sdaPin && !onePin s && s.sdaPin == s.bus.sdaAt

end Sys2Proof.Machine
end

