-- ==== Sys2Proof/Machine/Ops.lean ====
section
/-! DEFINITION. The shared operations: the six micro-operations (40_microops.md R131 to R136), which alone touch the
pins and the trace; delivering a response and refusing (00_scope.md R12, 30_encoding.md R104 to R113), which stand
where another machine would take an exception (60_exceptions.md R240, R245); and what the ports do with an input
(10_state.md R42, 70_reset_and_hazards.md R270). -/

namespace Sys2Proof.Machine

/-! ### The line driver and the timing controller -/

/-- What the free oracle of 20_memory.md R77 would answer now (log entry 7). -/
def oracleNow (s : State) : Bool := Config.busOracle s.epoch s.drawCtr s.trace s.calls

/-- What a line operation does outside the block: the environment's clock moves on, then the pin becomes an input or an
output at level 0, unless the collaborator does not support it (40_microops.md R138). Operations of both lines on one pin
act on that pin in the order issued (R139); what responders make of them is not known (log entry 9). -/
def onPin (pin : Byte) (released : Bool) (s : State) : Bus :=
  let b := s.bus.tick (oracleNow s)
  if supported s.params pin then
    let c := b.movePin released pin (oracleNow s)
    if onePin s then c.confuse else c
  else b

/-- SDA0, drive data low: the level is written before the direction (40_microops.md R131). On an unsupported pin the
calls do nothing, while the drive state and the trace say what was asked for (R138). -/
def sda0 (s : State) : State :=
  { s with
    sdaDrv := .low
    trace := s.trace ++ [.sda0]
    calls := s.calls ++ [.write s.sdaPin false, .setDirection s.sdaPin .output]
    bus := onPin s.sdaPin false s }

/-- SDA1, release data: mode `input` (R132). -/
def sda1 (s : State) : State :=
  { s with
    sdaDrv := .rel
    trace := s.trace ++ [.sda1]
    calls := s.calls ++ [.setDirection s.sdaPin .input]
    bus := onPin s.sdaPin true s }

/-- SCL0, drive clock low (R133). -/
def scl0 (s : State) : State :=
  { s with
    sclDrv := .low
    trace := s.trace ++ [.scl0]
    calls := s.calls ++ [.write s.sclPin false, .setDirection s.sclPin .output]
    bus := onPin s.sclPin false s }

/-- SCL1, release clock; nobody checks that the line rises (R134). -/
def scl1 (s : State) : State :=
  { s with
    sclDrv := .rel
    trace := s.trace ++ [.scl1]
    calls := s.calls ++ [.setDirection s.sclPin .input]
    bus := onPin s.sclPin true s }

/-- DLY, the bit delay of the tier (R135). -/
def dly (s : State) : State :=
  { s with
    trace := s.trace ++ [.dly]
    calls := s.calls ++ [.delayMicroseconds (tierDelay s.params s.tier)]
    bus := s.bus.tick (oracleNow s) }

/-- What the GPIO collaborator's `read(sda_pin)` finds: the level of SDA, which is the AND of the block's own
contribution and the environment's (20_memory.md R72, R77), or a free bit when the pin cannot be read
(40_microops.md R138). The bit, the bus afterwards, and how many free bits were drawn. -/
def sampleSda (s : State) : Bool × Bus × Nat :=
  let b := s.bus.tick (oracleNow s)
  if readable s then
    let a := b.answer (oracleNow s)
    (decide (s.sdaDrv = .rel) && a.1, a.2.1, a.2.2)
  else (Config.unreadablePin s.epoch s.drawCtr s.trace s.calls, b, 1)

/-- RD(), sample data (R136). -/
def rd (s : State) : Bool × State :=
  let a := sampleSda s
  (a.1, { s with
    trace := s.trace ++ [.rd a.1]
    calls := s.calls ++ [.read s.sdaPin a.1]
    bus := a.2.1
    drawCtr := s.drawCtr + a.2.2 })

/-- `SCL1 ; DLY ; SCL0 ; DLY`, one clock pulse in which nothing is sampled (41_engine_primitives.md R156). -/
def pulse (s : State) : State := dly (scl0 (dly (scl1 s)))

/-- `SCL1 ; DLY ; k <- RD() ; SCL0 ; DLY`, one clock pulse with a sample before its end (R156, R158). -/
def samplePulse (s : State) : Bool × State :=
  let r := rd (dly (scl1 s))
  (r.1, dly (scl0 r.2))

/-- Put one bit on the data line: a 1 by releasing it, a 0 by driving it low (40_microops.md R130). -/
def putSda (b : Bool) (s : State) : State := if b then sda1 s else sda0 s

/-! ### The engine's own registers -/

/-- `sr <- b` (10_state.md R27). -/
def writeSr (b : Byte) (s : State) : State := { s with sr := b }

/-- `ack <- b` (R26). -/
def writeAck (b : Bool) (s : State) : State := { s with ack := b }

/-- `bus_open <- b` (R25). -/
def writeOpen (b : Bool) (s : State) : State := { s with busOpen := b }

/-! ### Responses -/

/-- `respond(code, data)`: the command ends and its response word is delivered (00_scope.md R12, 10_state.md R42). -/
def respond (c : Code) (data : Data) (s : State) : State :=
  { s with cmdReady := true, rspValid := true, rspWord := responseWord c data }

/-- `refuse(code)`: nothing but the response (00_scope.md R12, 60_exceptions.md R245). -/
def refuse (c : Code) (s : State) : State := respond c 0#24 s

/-- R113: a command whose index or length reaches past BUF_LEN is refused BAD_ARG. -/
def checkArgs (fits : Bool) (command : State → State) (s : State) : State :=
  if fits then command s else refuse .badArg s

/-- R112: a command that needs the bus handle is refused NOT_CONFIGURED before CONFIGURE. Used inside `checkArgs`,
never around it: the order of R110. -/
def checkHandle (command : State → State) (s : State) : State :=
  if s.configured then command s else refuse .notConfigured s

/-! ### The ports -/

/-- A command is taken: `cmd_ready` falls until the response has been delivered (10_state.md R42). -/
def accept (rest : List Input) (s : State) : State :=
  { s with inputs := rest, cmdReady := false, rspValid := false }

/-- The host presents nothing, or the block is not ready: the block holds its state (60_exceptions.md R262). The
response of an earlier step is no longer being delivered (log entry 3). -/
def idle (s : State) : State := { s with rspValid := false }

/-- `rst` asserted (70_reset_and_hazards.md R270): every element takes its reset value; the parameters, the host and
the environment are not the block's, and the pins are left as they are (R271). -/
def resetBlock (rest : List Input) (s : State) : State :=
  State.afterReset s.params rest s.bus s.drawCtr (s.epoch + 1)

/-- Which pin an event moves, if any, and whether it releases it (40_microops.md R131 to R134). -/
def pinMove (s : State) : Event → Option (Byte × Bool)
  | .sda0 => some (s.sdaPin, false)
  | .sda1 => some (s.sdaPin, true)
  | .scl0 => some (s.sclPin, false)
  | .scl1 => some (s.sclPin, true)
  | .dly => none
  | .rd _ => none

/-- The held pins after one more event; an unsupported pin never moves (R138). -/
def pinsAfter (s : State) (held : List Byte) (e : Event) : List Byte :=
  match pinMove s e with
  | some (pin, released) => if supported s.params pin then movePin released pin held else held
  | none => held

/-- `rst` asserted while a command runs, of which the events `ran` have happened (R271): the command is abandoned
without a response and without a STOP; the pins are left as the events left them, which may be low, though the drive
states now read REL; and nothing is known of the bus any more: every later RD() is the free oracle's
(93_implementation_defined.md U11; log entry 1). -/
def resetMidCommand (ran : List Event) (rest : List Input) (s : State) : State :=
  State.afterReset s.params rest
    { s.bus with script := [], rest := .free, held := ran.foldl (pinsAfter s) s.bus.held } s.drawCtr (s.epoch + 1)

/-- What the next step finds on the command port (10_state.md R41, R42). -/
inductive Port where
  /-- Nothing to take. -/
  | quiet
  /-- `rst` between commands. -/
  | reset (rest : List Input)
  /-- `rst` inside the command of this word, after so many micro-operations. -/
  | abort (w : Word) (n : Nat) (rest : List Input)
  /-- A command word to take. -/
  | take (w : Word) (rest : List Input)
  deriving DecidableEq, Repr

/-- A command is taken when `cmd_valid` and `cmd_ready` are both 1 (10_state.md R42). `rst` is obeyed whatever `cmd_ready`
is; that the word of a `resetDuring` counts as taken then too, and its micro-operations as run, is the model's choice
(DESIGN CHOICE, log entry 23): with `cmd_ready` = 0 between steps, where no run from reset comes. -/
def port (s : State) : Port :=
  match s.inputs with
  | [] => .quiet
  | .reset :: rest => .reset rest
  | .resetDuring w n :: rest => .abort w n rest
  | .command w :: rest => if s.cmdReady then .take w rest else .quiet

/-- The command word `w` put in front of what the host will present, to a block that is ready. -/
def present (w : Word) (s : State) : State :=
  { s with inputs := .command w :: s.inputs, cmdReady := true }

end Sys2Proof.Machine
end

