-- ==== Sys2Proof/Machine/HostAccess.lean ====
section
/-! DEFINITION. The host access commands WRTX, RDRX, RDSTAT (45_host_access.md): no micro-operation, no bus handle
(30_encoding.md R111), no change of any engine or scanner register. -/

namespace Sys2Proof.Machine

/-- WRTX (R230). -/
def execWrTx (idx val : Byte) (s : State) : Host.Outcome State Fault Refusal :=
  .next (checkArgs (idxFits s.params idx)
    (fun s => respond .ok 0#24 { s with txbuf := writeEntry s.txbuf idx val }) s)

/-- RDRX (R231). -/
def execRdRx (idx : Byte) (s : State) : Host.Outcome State Fault Refusal :=
  .next (checkArgs (idxFits s.params idx)
    (fun s => respond .ok (byteData (readEntry s.rxbuf idx)) s) s)

/-- RDSTAT (R232). -/
def execRdStat (sel : View) (s : State) : Host.Outcome State Fault Refusal :=
  .next (respond .ok (view sel s) s)

end Sys2Proof.Machine
end

