-- ==== Sys2Proof/Machine/Primitives.lean ====
section
/-! DEFINITION. The engine primitives CONFIGURE, START, STOP, WRITEBYTE, READBYTE (41_engine_primitives.md). No
primitive looks at the bus before acting (R160). -/

namespace Sys2Proof.Machine

/-- CONFIGURE (R151): no micro-operation, no check of the pins, never an error. -/
def execConfigure (sda scl : Byte) (speed : BitVec 32) (s : State) : Host.Outcome State Fault Refusal :=
  .next (respond .ok 0#24
    { s with sdaPin := sda, sclPin := scl, tier := tierOf speed, configured := true })

/-- The data bits of `do_writebyte`: each is put on the line and clocked (R156). -/
def sendBits : List Bool → State → State
  | [], s => s
  | b :: bs, s => sendBits bs (pulse (putSda b s))

/-- `do_writebyte(b)` (R156): whether the byte was acknowledged. -/
def doWriteByte (b : Byte) (s : State) : Bool × State :=
  let r := samplePulse (sda1 (sendBits (bitsMsbFirst b) (writeSr b s)))
  (ackOf r.1, writeAck (ackOf r.1) (sda0 r.2))

/-- The eight sampling pulses of `do_readbyte`, so many of them to go (R158). -/
def recvBits : Nat → State → State
  | 0, s => s
  | n + 1, s =>
    let r := samplePulse s
    recvBits n (writeSr (shiftIn r.2.sr r.1) r.2)

/-- `do_readbyte(last)` (R158): the byte received. -/
def doReadByte (last : Bool) (s : State) : Byte × State :=
  let t := sda0 (pulse (putSda last (recvBits 8 (writeSr 0x00#8 (sda1 s)))))
  (t.sr, t)

/-- `do_start(a7, rw)` (R152): whether the address byte was acknowledged. -/
def doStart (a7 : Addr) (rw : Dir) (s : State) : Bool × State :=
  doWriteByte (addrByte a7 rw) (dly (scl0 (dly (sda0 (writeOpen true s)))))

/-- `do_stop()` (R154). -/
def doStop (s : State) : State :=
  writeOpen false (sda1 (dly (scl1 (dly (sda0 s)))))

/-- START (R152). -/
def execStart (a7 : Addr) (rw : Dir) (s : State) : Host.Outcome State Fault Refusal :=
  .next (checkHandle (fun s => let r := doStart a7 rw s; respond (ackCode r.1) 0#24 r.2) s)

/-- STOP (R154). -/
def execStop (s : State) : Host.Outcome State Fault Refusal :=
  .next (checkHandle (fun s => respond .ok 0#24 (doStop s)) s)

/-- WRITEBYTE (R156). -/
def execWriteByte (b : Byte) (s : State) : Host.Outcome State Fault Refusal :=
  .next (checkHandle (fun s => let r := doWriteByte b s; respond (ackCode r.1) 0#24 r.2) s)

/-- READBYTE (R158). -/
def execReadByte (last : Bool) (s : State) : Host.Outcome State Fault Refusal :=
  .next (checkHandle (fun s => let r := doReadByte last s; respond .ok (byteData r.1) r.2) s)

end Sys2Proof.Machine
end

