-- ==== Sys2Proof/Machine/Transfers.lean ====
section
/-! DEFINITION. The engine transfers WRITEN, READN, PROBE, READREG (42_engine_transfers.md). The procedures take and
return their bytes as values; only the commands touch TXBUF and RXBUF. Each `do_start` is followed by exactly one
`do_stop` (R178). -/

namespace Sys2Proof.Machine

/-- The loop of `do_writen`: `while ok and i < n` (R170). -/
def sendWhileAcked : Bool → List Byte → State → Bool × State
  | ok, [], s => (ok, s)
  | false, _ :: _, s => (false, s)
  | true, b :: bytes, s =>
    let r := doWriteByte b s
    sendWhileAcked r.1 bytes r.2

/-- `do_writen(a7, bytes)` (R170): whether every byte was acknowledged, the address byte among them. -/
def doWriteN (a7 : Addr) (bytes : List Byte) (s : State) : Bool × State :=
  let a := doStart a7 .write s
  let r := sendWhileAcked a.1 bytes a.2
  (r.1, doStop r.2)

/-- The loop of `do_readn`, so many bytes to go; the last one is read with `last` = 1 (R172). -/
def readBytes : Nat → State → List Byte × State
  | 0, s => ([], s)
  | n + 1, s =>
    let r := doReadByte (n == 0) s
    let rest := readBytes n r.2
    (r.1 :: rest.1, rest.2)

/-- `do_readn(a7, n)` (R172): the bytes, or none when the address byte was not acknowledged. -/
def doReadN (a7 : Addr) (n : Nat) (s : State) : Option (List Byte) × State :=
  let a := doStart a7 .read s
  if a.1 then
    let r := readBytes n a.2
    (some r.1, doStop r.2)
  else (none, doStop a.2)

/-- `do_probe(a7)` (R174). -/
def doProbe (a7 : Addr) (s : State) : Bool × State :=
  let a := doStart a7 .write s
  (a.1, doStop a.2)

/-- `do_readreg(a7, reg, n)` (R176): two transactions; without the first there is no second. -/
def doReadReg (a7 : Addr) (reg : Byte) (n : Nat) (s : State) : Option (List Byte) × State :=
  let w := doWriteN a7 [reg] s
  if w.1 then doReadN a7 n w.2 else (none, w.2)

/-- The end of a command that reads into RXBUF (R172, R176). -/
def respondRead (r : Option (List Byte) × State) : State :=
  match r.1 with
  | some bytes => respond .ok 0#24 { r.2 with rxbuf := storeBytes bytes r.2.rxbuf }
  | none => respond .noAck 0#24 r.2

/-- WRITEN (R170). -/
def execWriteN (a7 : Addr) (len : Byte) (s : State) : Host.Outcome State Fault Refusal :=
  .next (checkArgs (lenFits s.params len) (checkHandle fun s =>
    let r := doWriteN a7 (payload s.txbuf len) s
    respond (ackCode r.1) 0#24 r.2) s)

/-- READN (R172). -/
def execReadN (a7 : Addr) (len : Byte) (s : State) : Host.Outcome State Fault Refusal :=
  .next (checkArgs (lenFits s.params len) (checkHandle fun s =>
    respondRead (doReadN a7 len.toNat s)) s)

/-- PROBE (R174). -/
def execProbe (a7 : Addr) (s : State) : Host.Outcome State Fault Refusal :=
  .next (checkHandle (fun s => let r := doProbe a7 s; respond (ackCode r.1) 0#24 r.2) s)

/-- READREG (R176). -/
def execReadReg (a7 : Addr) (reg len : Byte) (s : State) : Host.Outcome State Fault Refusal :=
  .next (checkArgs (lenFits s.params len) (checkHandle fun s =>
    respondRead (doReadReg a7 reg len.toNat s)) s)

end Sys2Proof.Machine
end

