-- ==== Sys2Proof/Machine/Identify.lean ====
section
/-! DEFINITION. Device identification, IDENTIFY (43_identify.md). The bytes travel as values, so TXBUF and RXBUF are
untouched (R200); no scanner register is written (R201). -/

namespace Sys2Proof.Machine

/-- A rule of one register read: `hit` if the read succeeded and its byte passes the test (R192, R194, R196); a read
that failed compares nothing (R198). -/
def readAndTest (a7 : Addr) (reg : Byte) (test : Byte → Bool) (hit : Kind) (s : State) : Kind × State :=
  let r := doReadReg a7 reg 1 s
  match r.1 with
  | some [v] => (if test v then hit else .unknown, r.2)
  | _ => (.unknown, r.2)

/-- Rule 4: write the test byte, then read it back (R195). -/
def writeAndEcho (a7 : Addr) (reg val : Byte) (s : State) : Kind × State :=
  let w := doWriteN a7 [reg, val] s
  if w.1 then readAndTest a7 reg (fun v => v == val) .rtcB w.2 else (.unknown, w.2)

/-- `do_identify(a7)` (R190): the first rule whose address matches is the only one tried (R191). -/
def doIdentify (a7 : Addr) (s : State) : Kind × State :=
  if a7 = Config.addrUv then
    readAndTest a7 Config.regUvPartid (fun v => v == Config.valUvPartid) .uv s
  else if a7 = s.params.addrCo2 then (.co2, s)
  else if a7 = s.params.addrRtcA then
    readAndTest a7 s.params.regRtcAStatus (fun v => v &&& s.params.maskRtcATop == 0x00#8) .rtcA s
  else if a7 = s.params.addrRtcShared then
    writeAndEcho a7 s.params.regRtcBThresh s.params.valRtcBTest s
  else readAndTest a7 s.params.regImuWhoami (fun v => v == s.params.valImuWhoami) .imu s

/-- IDENTIFY (R190): always OK; UNKNOWN when nothing matched or the bus traffic failed. -/
def execIdentify (a7 : Addr) (s : State) : Host.Outcome State Fault Refusal :=
  .next (checkHandle (fun s => let r := doIdentify a7 s; respond .ok (kindData r.1) r.2) s)

end Sys2Proof.Machine
end

