-- ==== Sys2Proof/Machine/Scanner.lean ====
section
/-! DEFINITION. The bus scanner, SCAN (44_scanner.md). -/

namespace Sys2Proof.Machine

/-- The entry actions (R212). -/
def scanEntry (s : State) : State :=
  { s with
    scanState := .scanning
    scanResult := .none
    badCnt := 0#4
    foundAddr := 0#7
    foundKind := .unknown
    scanAddr := Config.scanFirst.setWidth 8 }

/-- Found: the record of the address and kind, and the response (R213, R217). -/
def scanFound (k : Kind) (s : State) : State :=
  let a : Addr := s.scanAddr.setWidth 7
  respond .ok (recordData a k)
    { s with foundAddr := a, foundKind := k, scanState := .found, scanResult := .found }

/-- Exhausted by the bus-fault abort (R215). -/
def scanFault (s : State) : State :=
  respond .busFault 0#24 { s with scanState := .exhausted, scanResult := .busFault }

/-- Exhausted by the end of the window (R213). -/
def scanNothing (s : State) : State :=
  respond .noSensors 0#24 { s with scanState := .exhausted, scanResult := .noSensors }

/-- What one visited address does to the scan. -/
inductive Visit where
  /-- The scan is over, in this state. -/
  | over (s : State)
  /-- The next address is to be visited. -/
  | goOn (s : State)
  deriving DecidableEq, Repr

/-- One turn of the loop of R213, at `scan_addr`: an acknowledge below VALID_MIN is counted and never identified;
one from VALID_MIN on is identified. -/
def scanVisit (s : State) : Visit :=
  let p := doProbe (s.scanAddr.setWidth 7) s
  if p.1 then
    if p.2.scanAddr < Config.validMin.setWidth 8 then
      let t : State := { p.2 with badCnt := p.2.badCnt + 1 }
      if t.badCnt = Config.badLimit then .over (scanFault t) else .goOn t
    else
      let r := doIdentify (p.2.scanAddr.setWidth 7) p.2
      if r.1 = .unknown then .goOn r.2 else .over (scanFound r.1 r.2)
  else .goOn p.2

/-- The loop of R213 with so many addresses of the window to go; with none left, `scan_addr` is above SCAN_LAST. -/
def scanFrom : Nat → State → State
  | 0, s => scanNothing s
  | n + 1, s =>
    match scanVisit s with
    | .over t => t
    | .goOn t => scanFrom n { t with scanAddr := t.scanAddr + 1 }

/-- The number of addresses in the scan window, SCAN_LAST - SCAN_FIRST + 1 (R219). -/
def scanWindow (p : Params) : Nat := p.scanLast.toNat + 1 - Config.scanFirst.toNat

/-- SCAN (R210): accepted with the same effect in every scanner state. -/
def execScan (s : State) : Host.Outcome State Fault Refusal :=
  .next (checkHandle (fun s => scanFrom (scanWindow s.params) (scanEntry s)) s)

end Sys2Proof.Machine
end

