-- ==== Sys2Proof/Machine/Dispatch.lean ====
section
/-! DEFINITION. The meaning of every command: one arm for each constructor of `Instr`. -/

namespace Sys2Proof.Machine

def exec (i : Instr) (s : State) : Host.Outcome State Fault Refusal :=
  match i with
  | .configure sda scl speed => Sys2Proof.Machine.execConfigure sda scl speed s
  | .start a7 rw => Sys2Proof.Machine.execStart a7 rw s
  | .stop => Sys2Proof.Machine.execStop s
  | .writeByte b => Sys2Proof.Machine.execWriteByte b s
  | .readByte last => Sys2Proof.Machine.execReadByte last s
  | .writeN a7 len => Sys2Proof.Machine.execWriteN a7 len s
  | .readN a7 len => Sys2Proof.Machine.execReadN a7 len s
  | .probe a7 => Sys2Proof.Machine.execProbe a7 s
  | .readReg a7 reg len => Sys2Proof.Machine.execReadReg a7 reg len s
  | .scan => Sys2Proof.Machine.execScan s
  | .identify a7 => Sys2Proof.Machine.execIdentify a7 s
  | .wrTx idx val => Sys2Proof.Machine.execWrTx idx val s
  | .rdRx idx => Sys2Proof.Machine.execRdRx idx s
  | .rdStat sel => Sys2Proof.Machine.execRdStat sel s

end Sys2Proof.Machine
end

