-- ==== Sys2Proof/Machine/Abort.lean ====
section
/-! DEFINITION. `rst` inside a command (70_reset_and_hazards.md R271): which part of the command has run. -/

namespace Sys2Proof.Machine

/-- The first `n` micro-operations of the command of the word `w`, taken in the state `s`: all of them when it has no
more, none when the word selects no command (30_encoding.md R107, R108) or the command is refused. -/
def ranBefore (w : Word) (n : Nat) (s : State) : List Event :=
  match decode w with
  | .ok i =>
    match exec i s with
    | .next t => (t.trace.drop s.trace.length).take n
    | .fault _ => []
    | .refused _ => []
  | .error _ => []

/-- The command of the word `w` is taken, and `rst` is asserted after `n` of its micro-operations (R271). -/
def abort (w : Word) (n : Nat) (rest : List Input) (s : State) : State :=
  resetMidCommand (ranBefore w n (accept rest s)) rest s

end Sys2Proof.Machine
end

