-- ==== Sys2Proof/Machine/Step.lean ====
section
/-! DEFINITION. One step of the machine: what the host presents is taken, a command from its word to its response
(10_state.md R36, R42). -/

namespace Sys2Proof.Machine

/-- A word that selects no command is answered BAD_CMD (30_encoding.md R107, R108); the others run. -/
def step (s : State) : Host.Outcome State Fault Refusal :=
  match port s with
  | .quiet => .next (idle s)
  | .reset rest => .next (resetBlock rest s)
  | .abort w n rest => .next (abort w n rest s)
  | .take w rest =>
    match decode w with
    | .ok i => exec i (accept rest s)
    | .error _ => .next (refuse .badCmd (accept rest s))

/-- `s` with the command word `w` presented to a block that is ready, so that the next step takes it (log entry 19).
A command is one 64-bit word (30_encoding.md R100), so every bit above `nbits` is 0. -/
def State.withFetchWord (s : State) (nbits w : Nat) : State :=
  present (BitVec.ofNat 64 (w % 2 ^ nbits)) s

end Sys2Proof.Machine
end

