-- ==== Sys2Proof/Safety.lean ====
section
/-! DEFINITION. The terms in which claims about BBI2CM are made: the traces that the rules give (40_microops.md to
44_scanner.md), the START and STOP conditions (20_memory.md R75, R76), the order a host must keep (70_reset_and_hazards.md
R280, R282), the frames, the bounds (R290), and the invariants (10_state.md R50 and the ranges of R21 to R35). The
traces are written out from the rules, not computed by the machine. -/

namespace Sys2Proof.Safety

open Sys2Proof.Machine

/-! ### The opcode table -/

/-- The column `match` of the opcode map (30_encoding.md R103). -/
def matchOf : Instr → Word
  | .configure _ _ _ => 0x0100000000000000#64
  | .start _ _ => 0x0200000000000000#64
  | .stop => 0x0300000000000000#64
  | .writeByte _ => 0x0400000000000000#64
  | .readByte _ => 0x0500000000000000#64
  | .writeN _ _ => 0x0600000000000000#64
  | .readN _ _ => 0x0700000000000000#64
  | .probe _ => 0x0800000000000000#64
  | .readReg _ _ _ => 0x0900000000000000#64
  | .scan => 0x0A00000000000000#64
  | .identify _ => 0x0B00000000000000#64
  | .wrTx _ _ => 0x1000000000000000#64
  | .rdRx _ => 0x1100000000000000#64
  | .rdStat _ => 0x1200000000000000#64

/-- The column `mask` of the opcode map (R103). -/
def maskOf : Instr → Word
  | .configure _ _ _ => 0xFF0000FF00000000#64
  | .start _ _ => 0xFF80FEFFFFFFFFFF#64
  | .stop => 0xFFFFFFFFFFFFFFFF#64
  | .writeByte _ => 0xFF00FFFFFFFFFFFF#64
  | .readByte _ => 0xFFFEFFFFFFFFFFFF#64
  | .writeN _ _ => 0xFF80FF00FFFFFFFF#64
  | .readN _ _ => 0xFF80FF00FFFFFFFF#64
  | .probe _ => 0xFF80FFFFFFFFFFFF#64
  | .readReg _ _ _ => 0xFF800000FFFFFFFF#64
  | .scan => 0xFFFFFFFFFFFFFFFF#64
  | .identify _ => 0xFF80FFFFFFFFFFFF#64
  | .wrTx _ _ => 0xFF0000FFFFFFFFFF#64
  | .rdRx _ => 0xFF00FFFFFFFFFFFF#64
  | .rdStat _ => 0xFFFCFFFFFFFFFFFF#64

/-- The number of a status view (45_host_access.md R232). -/
def viewNumber : View → BitVec 2
  | .status => 0#2
  | .config => 1#2
  | .scanstat => 2#2
  | .found => 3#2

/-- The operands of the command are the fields of the word that its format names (30_encoding.md R101, R102). -/
def Carries (w : Word) : Instr → Prop
  | .configure sda scl speed =>
    sda = w.extractLsb' 48 8 ∧ scl = w.extractLsb' 40 8 ∧ speed = w.extractLsb' 0 32
  | .start a7 rw => a7 = w.extractLsb' 48 7 ∧ (rw = .read ↔ w.getLsbD 40 = true)
  | .stop => True
  | .writeByte b => b = w.extractLsb' 48 8
  | .readByte last => last = w.getLsbD 48
  | .writeN a7 len => a7 = w.extractLsb' 48 7 ∧ len = w.extractLsb' 32 8
  | .readN a7 len => a7 = w.extractLsb' 48 7 ∧ len = w.extractLsb' 32 8
  | .probe a7 => a7 = w.extractLsb' 48 7
  | .readReg a7 reg len =>
    a7 = w.extractLsb' 48 7 ∧ reg = w.extractLsb' 40 8 ∧ len = w.extractLsb' 32 8
  | .scan => True
  | .identify a7 => a7 = w.extractLsb' 48 7
  | .wrTx idx val => idx = w.extractLsb' 48 8 ∧ val = w.extractLsb' 40 8
  | .rdRx idx => idx = w.extractLsb' 48 8
  | .rdStat sel => viewNumber sel = w.extractLsb' 48 2

/-- The opcodes of the opcode map (R103). -/
def opcodes : List Byte :=
  [0x01#8, 0x02#8, 0x03#8, 0x04#8, 0x05#8, 0x06#8, 0x07#8, 0x08#8, 0x09#8, 0x0A#8, 0x0B#8, 0x10#8, 0x11#8, 0x12#8]

/-- The block takes the command word `w`, and `rest` is what the host presents afterwards (10_state.md R42). -/
def Takes (s : State) (w : Word) (rest : List Input) : Prop := s.cmdReady = true ∧ s.inputs = .command w :: rest

/-- The code of a response word (30_encoding.md R104). -/
def codeOf (r : Response) : BitVec 4 := r.extractLsb' 28 4

/-! ### Traces -/

/-- The byte whose bits, most significant first, are the list (20_memory.md R66). -/
def byteOf (ks : List Bool) : Byte := ks.foldl (fun acc k => (acc <<< 1) ||| (BitVec.ofBool k).setWidth 8) 0#8

/-- One data bit sent: the SDA operation, then a clock pulse (41_engine_primitives.md R156). -/
def bitOut (b : Bool) : List Event := [if b then .sda1 else .sda0, .scl1, .dly, .scl0, .dly]

/-- A byte sent, with the acknowledge sample `k` (R156). -/
def byteOut (b : Byte) (k : Bool) : List Event :=
  bitOut (b.getLsbD 7) ++ bitOut (b.getLsbD 6) ++ bitOut (b.getLsbD 5) ++ bitOut (b.getLsbD 4) ++
    bitOut (b.getLsbD 3) ++ bitOut (b.getLsbD 2) ++ bitOut (b.getLsbD 1) ++ bitOut (b.getLsbD 0) ++
    [.sda1, .scl1, .dly, .rd k, .scl0, .dly, .sda0]

/-- One data bit received as `k` (R158). -/
def bitIn (k : Bool) : List Event := [.scl1, .dly, .rd k, .scl0, .dly]

/-- A byte received as the samples `ks`, and the master's acknowledge: released when `last` (R158). -/
def byteIn (ks : List Bool) (last : Bool) : List Event :=
  .sda1 :: ks.flatMap bitIn ++ [if last then .sda1 else .sda0, .scl1, .dly, .scl0, .dly, .sda0]

/-- START with the acknowledge sample `k` (R152): the address byte is `a7` then the direction bit (20_memory.md R67). -/
def startOut (a7 : Addr) (rw : Dir) (k : Bool) : List Event :=
  [.sda0, .dly, .scl0, .dly] ++ byteOut (a7 ++ rw.bit : BitVec 8) k

/-- STOP (R154). -/
def stopOut : List Event := [.sda0, .dly, .scl1, .dly, .sda1]

/-- What a stretch of a command does on the bus: the events it emits, the answers to its RD(), the last byte sent or
received (`sr`, 10_state.md R27) and the last acknowledge (`ack`, R26); `none` where there was none. -/
structure Traffic where
  events : List Event
  answers : List Bool
  sr : Option Byte
  ack : Option Bool
  deriving DecidableEq, Repr

/-- No micro-operation at all. -/
def Traffic.nothing : Traffic := ⟨[], [], none, none⟩

/-- One stretch after another. -/
def Traffic.andThen (x y : Traffic) : Traffic :=
  ⟨x.events ++ y.events, x.answers ++ y.answers, y.sr.or x.sr, y.ack.or x.ack⟩

/-- START with the acknowledge sample `k` (41_engine_primitives.md R152). -/
def started (a7 : Addr) (rw : Dir) (k : Bool) : Traffic :=
  ⟨startOut a7 rw k, [k], some (a7 ++ rw.bit : BitVec 8), some (!k)⟩

/-- STOP (R154). -/
def stopped : Traffic := ⟨stopOut, [], none, none⟩

/-- One byte sent with the acknowledge sample `k` (R156). -/
def sent (b : Byte) (k : Bool) : Traffic := ⟨byteOut b k, [k], some b, some (!k)⟩

/-- One byte received as the samples `ks` (R158). -/
def received (ks : List Bool) (last : Bool) : Traffic := ⟨byteIn ks last, ks, some (byteOf ks), none⟩

/-- `while ok and i < n` (42_engine_transfers.md R170): bytes in order up to the first one not acknowledged, which is the
last one sent; whether all were acknowledged. -/
inductive SentBytes : List Byte → Traffic → Bool → Prop where
  | done : SentBytes [] .nothing true
  | nack (b : Byte) (bytes : List Byte) : SentBytes (b :: bytes) (sent b true) false
  | ack (b : Byte) {bytes : List Byte} {x : Traffic} {ok : Bool} :
    SentBytes bytes x ok → SentBytes (b :: bytes) ((sent b false).andThen x) ok

/-- So many bytes received in order, only the final one with NACK (R172). -/
inductive ReadBytes : Nat → Traffic → List Byte → Prop where
  | done : ReadBytes 0 .nothing []
  | more {n : Nat} (ks : List Bool) {x : Traffic} {bytes : List Byte} : ks.length = 8 → ReadBytes n x bytes →
    ReadBytes (n + 1) ((received ks (decide (n = 0))).andThen x) (byteOf ks :: bytes)

/-- A write transaction and whether every byte of it was acknowledged, the address byte among them (R170). -/
inductive WriteTx (a7 : Addr) (bytes : List Byte) : Traffic → Bool → Prop where
  | absent : WriteTx a7 bytes ((started a7 .write true).andThen stopped) false
  | answered {x : Traffic} {ok : Bool} : SentBytes bytes x ok →
    WriteTx a7 bytes ((started a7 .write false).andThen (x.andThen stopped)) ok

/-- A read transaction and its bytes, none when the address was not acknowledged (R172). -/
inductive ReadTx (a7 : Addr) (n : Nat) : Traffic → Option (List Byte) → Prop where
  | absent : ReadTx a7 n ((started a7 .read true).andThen stopped) none
  | answered {x : Traffic} {bytes : List Byte} : ReadBytes n x bytes →
    ReadTx a7 n ((started a7 .read false).andThen (x.andThen stopped)) (some bytes)

/-- A register read: the write of the register number, and only if that succeeded the read (R176). -/
inductive RegRead (a7 : Addr) (reg : Byte) (n : Nat) : Traffic → Option (List Byte) → Prop where
  | refused {x : Traffic} : WriteTx a7 [reg] x false → RegRead a7 reg n x none
  | granted {x y : Traffic} {r : Option (List Byte)} : WriteTx a7 [reg] x true → ReadTx a7 n y r →
    RegRead a7 reg n (x.andThen y) r

/-- `k` if the byte was read and passes the test, else UNKNOWN (43_identify.md R197, R198). -/
def kindIf (k : Kind) (test : Byte → Bool) : Option (List Byte) → Kind
  | some [v] => if test v then k else .unknown
  | _ => .unknown

/-- Identification: the rule that the address selects, its traffic and its verdict (R190 to R198). -/
inductive Identified (p : Params) (a7 : Addr) : Traffic → Kind → Prop where
  | uv {x : Traffic} {r : Option (List Byte)} : a7 = 0x53#7 → RegRead a7 0x06#8 1 x r →
    Identified p a7 x (kindIf .uv (fun v => v == 0xB2#8) r)
  | co2 : a7 ≠ 0x53#7 → a7 = p.addrCo2 → Identified p a7 .nothing .co2
  | rtcA {x : Traffic} {r : Option (List Byte)} : a7 ≠ 0x53#7 → a7 ≠ p.addrCo2 → a7 = p.addrRtcA →
    RegRead a7 p.regRtcAStatus 1 x r → Identified p a7 x (kindIf .rtcA (fun v => v &&& p.maskRtcATop == 0#8) r)
  | rtcBUnwritten {x : Traffic} : a7 ≠ 0x53#7 → a7 ≠ p.addrCo2 → a7 ≠ p.addrRtcA → a7 = p.addrRtcShared →
    WriteTx a7 [p.regRtcBThresh, p.valRtcBTest] x false → Identified p a7 x .unknown
  | rtcB {x y : Traffic} {r : Option (List Byte)} : a7 ≠ 0x53#7 → a7 ≠ p.addrCo2 → a7 ≠ p.addrRtcA →
    a7 = p.addrRtcShared → WriteTx a7 [p.regRtcBThresh, p.valRtcBTest] x true → RegRead a7 p.regRtcBThresh 1 y r →
    Identified p a7 (x.andThen y) (kindIf .rtcB (fun v => v == p.valRtcBTest) r)
  | imu {x : Traffic} {r : Option (List Byte)} : a7 ≠ 0x53#7 → a7 ≠ p.addrCo2 → a7 ≠ p.addrRtcA →
    a7 ≠ p.addrRtcShared → RegRead a7 p.regImuWhoami 1 x r →
    Identified p a7 x (kindIf .imu (fun v => v == p.valImuWhoami) r)

/-- How a scan ends (44_scanner.md R214). -/
inductive ScanEnd where
  | found (a : Nat) (k : Kind)
  | noSensors
  | busFault (a : Nat)
  deriving DecidableEq, Repr

/-- PROBE with the acknowledge sample `k` (42_engine_transfers.md R174). -/
def probed (a7 : Addr) (k : Bool) : Traffic := (started a7 .write k).andThen stopped

/-- The scan loop from the address `a` on, with `bad` acknowledges counted so far: its traffic, how it ends, and the
count at the end (44_scanner.md R213). -/
inductive Scanned (p : Params) : Nat → Nat → Traffic → ScanEnd → Nat → Prop where
  | exhausted {a bad : Nat} : a = p.scanLast.toNat + 1 → Scanned p a bad .nothing .noSensors bad
  | silent {a bad : Nat} {x : Traffic} {e : ScanEnd} {n : Nat} : a ≤ p.scanLast.toNat →
    Scanned p (a + 1) bad x e n → Scanned p a bad ((probed (BitVec.ofNat 7 a) true).andThen x) e n
  | flagged {a bad : Nat} {x : Traffic} {e : ScanEnd} {n : Nat} : a ≤ p.scanLast.toNat → a < 16 → bad + 1 ≠ 10 →
    Scanned p (a + 1) (bad + 1) x e n → Scanned p a bad ((probed (BitVec.ofNat 7 a) false).andThen x) e n
  | aborted {a bad : Nat} : a ≤ p.scanLast.toNat → a < 16 → bad + 1 = 10 →
    Scanned p a bad (probed (BitVec.ofNat 7 a) false) (.busFault a) 10
  | unknown {a bad : Nat} {x y : Traffic} {e : ScanEnd} {n : Nat} : a ≤ p.scanLast.toNat → 16 ≤ a →
    Identified p (BitVec.ofNat 7 a) x .unknown → Scanned p (a + 1) bad y e n →
    Scanned p a bad ((probed (BitVec.ofNat 7 a) false).andThen (x.andThen y)) e n
  | found {a bad : Nat} {x : Traffic} {k : Kind} : a ≤ p.scanLast.toNat → 16 ≤ a → k ≠ .unknown →
    Identified p (BitVec.ofNat 7 a) x k →
    Scanned p a bad ((probed (BitVec.ofNat 7 a) false).andThen x) (.found a k) bad

/-- The ranges of the end of a scan that counted `bad` low acknowledges (R215, R216). -/
def ScanInRange (p : Params) (bad : Nat) : ScanEnd → Prop
  | .found a k => bad ≤ 9 ∧ k ≠ .unknown ∧ 16 ≤ a ∧ a ≤ p.scanLast.toNat
  | .noSensors => bad ≤ 9
  | .busFault a => bad = 10 ∧ 13 ≤ a ∧ a ≤ 15

/-- The most events a command can emit (70_reset_and_hazards.md R290). -/
def eventBound : Instr → Nat
  | .configure _ _ _ => 0
  | .start _ _ => 51
  | .stop => 5
  | .writeByte _ => 47
  | .readByte _ => 47
  | .writeN _ len => 56 + 47 * len.toNat
  | .readN _ len => 56 + 47 * len.toNat
  | .probe _ => 56
  | .readReg _ _ len => 159 + 47 * len.toNat
  | .scan => 46816
  | .identify _ => 356
  | .wrTx _ _ => 0
  | .rdRx _ => 0
  | .rdStat _ => 0

/-- The collaborator calls behind an event (40_microops.md R131 to R136; 60_exceptions.md R258). -/
def callsOf (s : State) : Event → List Call
  | .sda0 => [.write s.sdaPin false, .setDirection s.sdaPin .output]
  | .sda1 => [.setDirection s.sdaPin .input]
  | .scl0 => [.write s.sclPin false, .setDirection s.sclPin .output]
  | .scl1 => [.setDirection s.sclPin .input]
  | .dly =>
    [.delayMicroseconds
      (match s.tier with
        | .fast => s.params.tFast
        | .medium => s.params.tMed
        | .slow => s.params.tSlow)]
  | .rd b => [.read s.sdaPin b]

/-- The drive state of the data line after the events (R131, R132). -/
def sdaAfter : Drive → List Event → Drive
  | d, [] => d
  | _, .sda0 :: es => sdaAfter .low es
  | _, .sda1 :: es => sdaAfter .rel es
  | d, .scl0 :: es => sdaAfter d es
  | d, .scl1 :: es => sdaAfter d es
  | d, .dly :: es => sdaAfter d es
  | d, .rd _ :: es => sdaAfter d es

/-- The drive state of the clock line after the events (R133, R134). -/
def sclAfter : Drive → List Event → Drive
  | d, [] => d
  | _, .scl0 :: es => sclAfter .low es
  | _, .scl1 :: es => sclAfter .rel es
  | d, .sda0 :: es => sclAfter d es
  | d, .sda1 :: es => sclAfter d es
  | d, .dly :: es => sclAfter d es
  | d, .rd _ :: es => sclAfter d es

/-- What the events make of the pin `p`, which the collaborator had as `d`: low after a drive, released after a release, by
the operations of the line or of both lines that are configured on it (R131 to R134, R139); a pin that is not supported, or
not configured, stands (R138; 70_reset_and_hazards.md R282). -/
def pinAfter (s : State) (p : Byte) : Drive → List Event → Drive
  | d, [] => d
  | d, .sda0 :: es => pinAfter s p (if p = s.sdaPin ∧ supported s.params p = true then .low else d) es
  | d, .sda1 :: es => pinAfter s p (if p = s.sdaPin ∧ supported s.params p = true then .rel else d) es
  | d, .scl0 :: es => pinAfter s p (if p = s.sclPin ∧ supported s.params p = true then .low else d) es
  | d, .scl1 :: es => pinAfter s p (if p = s.sclPin ∧ supported s.params p = true then .rel else d) es
  | d, .dly :: es => pinAfter s p d es
  | d, .rd _ :: es => pinAfter s p d es

/-- Every pin of the GPIO collaborator is in `t` what the events have made of it since `s`, and the bus hangs where it
did (log entry 9). -/
structure PinsAfter (s : State) (es : List Event) (t : State) : Prop where
  pins : ∀ p, p ∈ t.bus.held ↔ pinAfter s p (if p ∈ s.bus.held then .low else .rel) es = .low
  sdaAt : t.bus.sdaAt = s.bus.sdaAt
  sclAt : t.bus.sclAt = s.bus.sclAt

/-- Every RD() of the events is issued with both lines released (R136). -/
def readsReleased (sda scl : Drive) (es : List Event) : Prop :=
  ∀ before b after, es = before ++ .rd b :: after → sdaAfter sda before = .rel ∧ sclAfter scl before = .rel

/-! ### The wire -/

/-- A START or a STOP condition (20_memory.md R75). -/
inductive Cond where
  | start
  | stop
  deriving DecidableEq, Repr

/-- The START and STOP conditions as the drive states tell: every change of `sda_drv` while `scl_drv` is REL, from the given
drive states on. They are those of the wire (20_memory.md R75) where the bus hangs on the pins, two supported ones that
agree with the drive states, and nobody else pulls SDA or SCL. -/
def conditions : Drive → Drive → List Event → List Cond
  | _, _, [] => []
  | .rel, .rel, .sda0 :: es => .start :: conditions .low .rel es
  | .low, .rel, .sda1 :: es => .stop :: conditions .rel .rel es
  | _, scl, .sda0 :: es => conditions .low scl es
  | _, scl, .sda1 :: es => conditions .rel scl es
  | sda, _, .scl0 :: es => conditions sda .low es
  | sda, _, .scl1 :: es => conditions sda .rel es
  | sda, scl, .dly :: es => conditions sda scl es
  | sda, scl, .rd _ :: es => conditions sda scl es

/-- START and STOP conditions in turn, so many of each: every START has its STOP. -/
def matched : Nat → List Cond
  | 0 => []
  | n + 1 => .start :: .stop :: matched n

/-! ### What the host must respect -/

/-- The order of R280 and R282, so far as the state shows it: transactions, SCAN, IDENTIFY and CONFIGURE only with the
bus closed; WRITEBYTE and READBYTE only with it open; STOP and the host access commands always. -/
def HostInOrder (s : State) : Instr → Prop
  | .configure _ _ _ => s.busOpen = false
  | .start _ _ => s.busOpen = false
  | .stop => True
  | .writeByte _ => s.busOpen = true
  | .readByte _ => s.busOpen = true
  | .writeN _ _ => s.busOpen = false
  | .readN _ _ => s.busOpen = false
  | .probe _ => s.busOpen = false
  | .readReg _ _ _ => s.busOpen = false
  | .scan => s.busOpen = false
  | .identify _ => s.busOpen = false
  | .wrTx _ _ => True
  | .rdRx _ => True
  | .rdStat _ => True

/-- The composite commands: each ends with the bus closed (10_state.md R50, 42_engine_transfers.md R178). -/
def closesBus : Instr → Bool
  | .configure _ _ _ => false
  | .start _ _ => false
  | .stop => false
  | .writeByte _ => false
  | .readByte _ => false
  | .writeN _ _ => true
  | .readN _ _ => true
  | .probe _ => true
  | .readReg _ _ _ => true
  | .scan => true
  | .identify _ => true
  | .wrTx _ _ => false
  | .rdRx _ => false
  | .rdStat _ => false

/-- The coming RD() are answered `ks` and then as `rest` says: `SEQ(ks ++ rest; ...)` of 95_test_vectors.md, on a data
pin that can be read (20_memory.md R77, 40_microops.md R138). -/
def Scripted (s : State) (ks rest : List Bool) : Prop := readable s = true ∧ s.bus.script = ks ++ rest

/-- Every RD() is answered `v`: the fixtures EMPTY and STUCK (R82). -/
def Always (s : State) (v : Bool) : Prop :=
  readable s = true ∧ s.bus.script = [] ∧ s.bus.rest = (if v then .empty else .stuck)

/-- `ks` are the environment's answers to the RD() between `s` and `t`: those of its script where it has as many, all
1 on EMPTY, all 0 on STUCK. (A free oracle's answers are any.) -/
structure Answers (s t : State) (ks : List Bool) : Prop where
  /-- A script of at least as many answers is used up by so many, and they are `ks`. -/
  scripted : ∀ xs rest, xs.length = ks.length → Scripted s xs rest → ks = xs ∧ t.bus.script = rest
  /-- EMPTY and STUCK stay what they are, and every answer is theirs. -/
  constant : ∀ v, Always s v → (∀ k ∈ ks, k = v) ∧ Always t v

/-- `t` is `s` in everything but what everyone else gives SCL, now and later (20_memory.md R72). -/
def ButForScl (s t : State) : Prop :=
  t = { s with bus := { s.bus with envScl := t.bus.envScl, sclScript := t.bus.sclScript } }

/-- Between `s` and `t` the block did exactly `x` on the bus: the trace grew by its events, its RD() were answered as it
says, and `sr` and `ack` are what it left. -/
structure Did (s t : State) (x : Traffic) : Prop where
  trace : t.trace = s.trace ++ x.events
  answers : Answers s t x.answers
  sr : t.sr = x.sr.getD s.sr
  ack : t.ack = x.ack.getD s.ack

/-- The conditions that a command in order makes, as the drive states tell (41_engine_primitives.md R153, R155; 42_engine_transfers.md
R178): one START, the STOP that closes it (an empty pair from the idle bus), none inside a byte, and for a composite
command START and STOP in turn. -/
def conditionsOf (s : State) : Instr → List Cond → Prop
  | .configure _ _ _, cs => cs = []
  | .start _ _, cs => cs = [.start]
  | .stop, cs => cs = if s.busOpen then [.stop] else [.start, .stop]
  | .writeByte _, cs => cs = []
  | .readByte _, cs => cs = []
  | .writeN _ _, cs => cs = matched 1
  | .readN _ _, cs => cs = matched 1
  | .probe _, cs => cs = matched 1
  | .readReg _ _ _, cs => cs = matched 1 ∨ cs = matched 2
  | .scan, cs => ∃ n, cs = matched n
  | .identify _, cs => ∃ n, n ≤ 3 ∧ cs = matched n
  | .wrTx _ _, cs => cs = []
  | .rdRx _, cs => cs = []
  | .rdStat _, cs => cs = []

/-! ### Frames -/

/-- What no command changes but through its response port: the parameters, the host's coming inputs, the count of
resets. -/
structure SameWorld (s t : State) : Prop where
  params : t.params = s.params
  inputs : t.inputs = s.inputs
  epoch : t.epoch = s.epoch

/-- The bus handle is as it was (10_state.md R21 to R23). -/
structure SameHandle (s t : State) : Prop where
  configured : t.configured = s.configured
  sdaPin : t.sdaPin = s.sdaPin
  sclPin : t.sclPin = s.sclPin
  tier : t.tier = s.tier

/-- Every byte of both buffers is as it was (R28, R29). -/
structure SameBuffers (s t : State) : Prop where
  txbuf : t.txbuf = s.txbuf
  rxbuf : t.rxbuf = s.rxbuf

/-- The scanner registers are as they were (R30 to R34). -/
structure SameScanner (s t : State) : Prop where
  scanState : t.scanState = s.scanState
  scanAddr : t.scanAddr = s.scanAddr
  badCnt : t.badCnt = s.badCnt
  scanResult : t.scanResult = s.scanResult
  foundAddr : t.foundAddr = s.foundAddr
  foundKind : t.foundKind = s.foundKind

/-- The line drivers, the engine flags, the shift register, the trace, the ports and the environment are as they
were: no micro-operation (R24 to R27, R40). -/
structure SameEngine (s t : State) : Prop where
  sdaDrv : t.sdaDrv = s.sdaDrv
  sclDrv : t.sclDrv = s.sclDrv
  busOpen : t.busOpen = s.busOpen
  ack : t.ack = s.ack
  sr : t.sr = s.sr
  trace : t.trace = s.trace
  calls : t.calls = s.calls
  bus : t.bus = s.bus
  drawCtr : t.drawCtr = s.drawCtr

/-- The response port after a command has ended with this code and data (10_state.md R42, 30_encoding.md R104):
the code in bits 31 to 28, the data in bits 23 to 0. -/
structure Responded (c : BitVec 4) (data : Data) (t : State) : Prop where
  cmdReady : t.cmdReady = true
  rspValid : t.rspValid = true
  rspWord : t.rspWord = (c ++ 0#4 ++ data : BitVec 32)

/-- Everything but the engine and the response port is as it was. -/
structure EngineOnly (s t : State) : Prop where
  world : SameWorld s t
  handle : SameHandle s t
  buffers : SameBuffers s t
  scanner : SameScanner s t

/-- Nothing but the response has changed: a refusal (00_scope.md R12, 60_exceptions.md R245). -/
structure OnlyResponse (c : BitVec 4) (data : Data) (s t : State) : Prop where
  world : SameWorld s t
  handle : SameHandle s t
  buffers : SameBuffers s t
  scanner : SameScanner s t
  engine : SameEngine s t
  response : Responded c data t

/-- The code of a kind (10_state.md R35). -/
def kindCode : Kind → BitVec 3
  | .unknown => 0#3
  | .uv => 1#3
  | .co2 => 2#3
  | .rtcA => 3#3
  | .rtcB => 4#3
  | .imu => 5#3

/-- The scanner registers and the response at the end of a scan, `bad` being the low acknowledges counted
(44_scanner.md R216, R217). -/
def ScanLeft : ScanEnd → Nat → State → Prop
  | .found a k, bad, t =>
    t.scanState = .found ∧ t.scanResult = .found ∧ t.scanAddr.toNat = a ∧ t.foundAddr.toNat = a ∧ t.foundKind = k ∧
      t.badCnt.toNat = bad ∧ Responded 0x0#4 (0#13 ++ kindCode k ++ 0#1 ++ t.foundAddr : BitVec 24) t
  | .noSensors, bad, t =>
    t.scanState = .exhausted ∧ t.scanResult = .noSensors ∧ t.scanAddr.toNat = t.params.scanLast.toNat + 1 ∧
      t.foundAddr = 0#7 ∧ t.foundKind = .unknown ∧ t.badCnt.toNat = bad ∧ Responded 0x3#4 0#24 t
  | .busFault a, bad, t =>
    t.scanState = .exhausted ∧ t.scanResult = .busFault ∧ t.scanAddr.toNat = a ∧ t.foundAddr = 0#7 ∧
      t.foundKind = .unknown ∧ t.badCnt.toNat = bad ∧ Responded 0x2#4 0#24 t

/-- The code of a tier (10_state.md R23). -/
def tierCode : Tier → BitVec 2
  | .fast => 0#2
  | .medium => 1#2
  | .slow => 2#2

/-- The code of a scanner state (R30). -/
def scanStateCode : ScanState → BitVec 2
  | .idle => 0#2
  | .scanning => 1#2
  | .found => 2#2
  | .exhausted => 3#2

/-- The code of a scan result (R33). -/
def scanResultCode : ScanResult → BitVec 2
  | .none => 0#2
  | .found => 1#2
  | .noSensors => 2#2
  | .busFault => 3#2

/-- `d` is view 0, STATUS, of `s` (R43). -/
structure StatusView (s : State) (d : Data) : Prop where
  busOpen : d.getLsbD 0 = s.busOpen
  ack : d.getLsbD 1 = s.ack
  sdaDrv : d.getLsbD 2 = decide (s.sdaDrv = .rel)
  sclDrv : d.getLsbD 3 = decide (s.sclDrv = .rel)
  configured : d.getLsbD 4 = s.configured
  zero5 : d.extractLsb' 5 3 = 0#3
  sr : d.extractLsb' 8 8 = s.sr
  zero16 : d.extractLsb' 16 8 = 0#8

/-- `d` is view 1, CONFIG (R44). -/
structure ConfigView (s : State) (d : Data) : Prop where
  sdaPin : d.extractLsb' 0 8 = s.sdaPin
  sclPin : d.extractLsb' 8 8 = s.sclPin
  tier : d.extractLsb' 16 2 = tierCode s.tier
  configured : d.getLsbD 18 = s.configured
  zero19 : d.extractLsb' 19 5 = 0#5

/-- `d` is view 2, SCANSTAT (R45). -/
structure ScanstatView (s : State) (d : Data) : Prop where
  scanState : d.extractLsb' 0 2 = scanStateCode s.scanState
  scanResult : d.extractLsb' 2 2 = scanResultCode s.scanResult
  badCnt : d.extractLsb' 4 4 = s.badCnt
  scanAddr : d.extractLsb' 8 8 = s.scanAddr
  zero16 : d.extractLsb' 16 8 = 0#8

/-- `d` is view 3, FOUND (R46). -/
structure FoundView (s : State) (d : Data) : Prop where
  foundAddr : d.extractLsb' 0 7 = s.foundAddr
  zero7 : d.getLsbD 7 = false
  foundKind : d.extractLsb' 8 3 = kindCode s.foundKind
  zero11 : d.extractLsb' 11 13 = 0#13

/-- The table of 10_state.md R48, buffers apart ("unspecified"): every register of the block after a reset. -/
structure ResetValues (t : State) : Prop where
  configured : t.configured = false
  sdaPin : t.sdaPin = 0x00#8
  sclPin : t.sclPin = 0x00#8
  tier : t.tier = .slow
  sdaDrv : t.sdaDrv = .rel
  sclDrv : t.sclDrv = .rel
  busOpen : t.busOpen = false
  ack : t.ack = false
  sr : t.sr = 0x00#8
  scanState : t.scanState = .idle
  scanAddr : t.scanAddr = 0x00#8
  badCnt : t.badCnt = 0#4
  scanResult : t.scanResult = .none
  foundAddr : t.foundAddr = 0x00#7
  foundKind : t.foundKind = .unknown
  trace : t.trace = []
  cmdReady : t.cmdReady = true
  rspValid : t.rspValid = false
  txLength : t.txbuf.length = t.params.bufLen
  rxLength : t.rxbuf.length = t.params.bufLen

/-- The bus has exactly one device on it, the reference responder `d`, waiting for a START condition, and hangs on the
configured pins, which can be driven and read; both wires are high, and nobody else pulls SCL now or later (20_memory.md
R72, R83). -/
structure OneDevice (s : State) (d : Responder) : Prop where
  readable : readable s = true
  clock : supported s.params s.sclPin = true
  hangs : s.sclPin = s.bus.sclAt
  script : s.bus.script = []
  rest : s.bus.rest = .responders [d]
  sda : s.bus.masterSda = true
  scl : s.bus.masterScl = true
  clockFree : s.bus.envScl = true
  clockScript : s.bus.sclScript = []
  silent : d.phase = .silent

/-! ### The GPIO and delay ports -/

/-- The calls that BBI2CM makes (60_exceptions.md R257, R258): never `write(pin, 1)`, never a pull mode, never
`read(scl_pin)`. -/
def AllowedCall (s : State) : Call → Prop
  | .setDirection pin mode => (pin = s.sdaPin ∨ pin = s.sclPin) ∧ (mode = .output ∨ mode = .input)
  | .write pin level => (pin = s.sdaPin ∨ pin = s.sclPin) ∧ level = false
  | .read pin _ => pin = s.sdaPin
  | .delayMicroseconds n =>
    n = (match s.tier with | .fast => s.params.tFast | .medium => s.params.tMed | .slow => s.params.tSlow)

/-! ### Invariants -/

/-- 10_state.md R50: closed means both lines released, open means both held low. -/
def BusConsistent (s : State) : Prop :=
  if s.busOpen then s.sdaDrv = .low ∧ s.sclDrv = .low else s.sdaDrv = .rel ∧ s.sclDrv = .rel

/-- The bus is idle (42_engine_transfers.md R178). -/
structure BusIdle (s : State) : Prop where
  busOpen : s.busOpen = false
  sdaDrv : s.sdaDrv = .rel
  sclDrv : s.sclDrv = .rel

/-- What the scanner registers hold between commands (10_state.md R30 to R34, 44_scanner.md R216, 90_conflicts.md C5). -/
def ScannerOk (s : State) : Prop :=
  match s.scanState with
  | .idle => s.scanResult = .none ∧ s.scanAddr = 0#8 ∧ s.badCnt = 0#4 ∧ s.foundAddr = 0#7 ∧ s.foundKind = .unknown
  | .scanning => False
  | .found =>
    s.scanResult = .found ∧ s.foundKind ≠ .unknown ∧ 16 ≤ s.foundAddr.toNat ∧
      s.foundAddr.toNat ≤ s.params.scanLast.toNat ∧ s.scanAddr.toNat = s.foundAddr.toNat ∧ s.badCnt.toNat ≤ 9
  | .exhausted =>
    s.foundAddr = 0#7 ∧ s.foundKind = .unknown ∧
      ((s.scanResult = .noSensors ∧ s.scanAddr.toNat = s.params.scanLast.toNat + 1 ∧ s.badCnt.toNat ≤ 9) ∨
        (s.scanResult = .busFault ∧ 13 ≤ s.scanAddr.toNat ∧ s.scanAddr.toNat ≤ 15 ∧ s.badCnt.toNat = 10))

/-- Before CONFIGURE nothing has moved (10_state.md R21, 30_encoding.md R112). -/
structure Untouched (s : State) : Prop where
  sdaPin : s.sdaPin = 0x00#8
  sclPin : s.sclPin = 0x00#8
  tier : s.tier = .slow
  sdaDrv : s.sdaDrv = .rel
  sclDrv : s.sclDrv = .rel
  busOpen : s.busOpen = false
  ack : s.ack = false
  sr : s.sr = 0x00#8
  scanState : s.scanState = .idle
  trace : s.trace = []
  calls : s.calls = []

/-- The register files of the responders are in their canonical form, and hold only registers 0 to 255 (20_memory.md R83). -/
def Responder.wf (d : Responder) : Bool := Memory.wf d.mem && d.mem.all (fun c => decide (c.1 < 256))

/-- The held pins are in their canonical form, and every responder on the bus is well formed. -/
def busWf (b : Bus) : Bool :=
  pinsWf b.held &&
    match b.rest with
    | .free => true
    | .empty => true
    | .stuck => true
    | .responders ds => ds.all Responder.wf

/-- What holds between commands, from reset on. -/
structure Inv (s : State) : Prop where
  /-- The parameters are legal (00_scope.md R9; the lower bound of SCAN_LAST is the model's, log entry 5). -/
  legal : s.params.Legal
  /-- TXBUF has BUF_LEN entries (10_state.md R28). -/
  txLength : s.txbuf.length = s.params.bufLen
  /-- RXBUF has BUF_LEN entries (R29). -/
  rxLength : s.rxbuf.length = s.params.bufLen
  /-- The block is ready for the next command (R42). -/
  ready : s.cmdReady = true
  /-- The scanner registers are in range. -/
  scanner : ScannerOk s
  /-- Before CONFIGURE nothing has moved. -/
  untouched : s.configured = false → Untouched s
  /-- The held pins and the environment's register files are canonical. -/
  bus : busWf s.bus = true

end Sys2Proof.Safety
end

