-- ==== Sys2Proof/Certificates/Slice0/Obligations.lean ====
section
/-! DEFINITION. The statements for the provers. Every one of them is about every state unless a premise says otherwise;
the premises are the host's (the bus handle is configured, the length fits) or facts that the invariant `Inv` states. -/

section

open Sys2Proof Sys2Proof.Machine Sys2Proof.Safety

/-! ### Encoding -/

/-- The words of 95_test_vectors.md section 3.1, one of each kind, decode to the commands they stand for. -/
def Obligations.WordsDecodeAsWritten : Prop :=
  decode 0x01C1C200000186A0#64 = .ok (.configure 0xC1#8 0xC2#8 100000#32) ∧
  decode 0x0253000000000000#64 = .ok (.start 0x53#7 .write) ∧
  decode 0x0253010000000000#64 = .ok (.start 0x53#7 .read) ∧
  decode 0x0300000000000000#64 = .ok .stop ∧
  decode 0x04A6000000000000#64 = .ok (.writeByte 0xA6#8) ∧
  decode 0x0500000000000000#64 = .ok (.readByte false) ∧
  decode 0x0501000000000000#64 = .ok (.readByte true) ∧
  decode 0x0653000400000000#64 = .ok (.writeN 0x53#7 4#8) ∧
  decode 0x0753000300000000#64 = .ok (.readN 0x53#7 3#8) ∧
  decode 0x0853000000000000#64 = .ok (.probe 0x53#7) ∧
  decode 0x0953060100000000#64 = .ok (.readReg 0x53#7 0x06#8 1#8) ∧
  decode 0x0A00000000000000#64 = .ok .scan ∧
  decode 0x0B53000000000000#64 = .ok (.identify 0x53#7) ∧
  decode 0x1000060000000000#64 = .ok (.wrTx 0#8 0x06#8) ∧
  decode 0x1102000000000000#64 = .ok (.rdRx 2#8) ∧
  decode 0x1203000000000000#64 = .ok (.rdStat .found)

/-- 30_encoding.md R103 with the formats of R101: a word decodes to a command exactly when its masked bits match the
command's row and its operand fields are the command's operands. -/
def Obligations.WordSelectsByMaskAndMatch : Prop :=
  ∀ (w : Word) (i : Instr), decode w = .ok i ↔ (w &&& maskOf i = matchOf i ∧ Carries w i)

/-- Decoding the encoded command gives it back, for every command and every operand value: no operand bit is dropped. -/
def Obligations.DecodeOfEncodeIsTheCommand : Prop :=
  ∀ i : Instr, decode (encode i) = .ok i

/-- Every word that decodes is the encoding of the command it decodes to: a command has one word. -/
def Obligations.EncodeOfDecodeIsTheWord : Prop :=
  ∀ (w : Word) (i : Instr), decode w = .ok i → encode i = w

/-- 30_encoding.md R107: a word with a reserved opcode, the all-zero word and the all-ones word among them, is answered
BAD_CMD with data 0, and nothing but the response changes. -/
def Obligations.ReservedOpcodeIsRefused : Prop :=
  (∀ (s : State) (w : Word) (rest : List Input), Takes s w rest → w.extractLsb' 56 8 ∉ opcodes →
    ∃ t, step s = .next t ∧ OnlyResponse 0xF#4 0#24 { s with inputs := rest } t) ∧
  (0#64 : Word).extractLsb' 56 8 ∉ opcodes ∧ (BitVec.allOnes 64).extractLsb' 56 8 ∉ opcodes

/-- 30_encoding.md R108: a word whose opcode is that of a row, with a 1 in a must-be-zero bit of the row's format, is
answered BAD_CMD with data 0, and nothing but the response changes. -/
def Obligations.MustBeZeroBitIsRefused : Prop :=
  ∀ (s : State) (w : Word) (rest : List Input) (row : Instr), Takes s w rest →
    w.extractLsb' 56 8 = (matchOf row).extractLsb' 56 8 → w &&& maskOf row ≠ matchOf row →
    ∃ t, step s = .next t ∧ OnlyResponse 0xF#4 0#24 { s with inputs := rest } t

/-! ### The checks -/

/-- 30_encoding.md R113: a length above BUF_LEN, or an index not below it, is refused BAD_ARG; with BUF_LEN = 255 only
index 255 can fail; a length 0 is never refused so. -/
def Obligations.PastTheBufferIsRefused : Prop :=
  (∀ (s : State) (a7 : Addr) (reg len : Byte), s.params.bufLen < len.toNat →
    (∃ t, exec (.writeN a7 len) s = .next t ∧ OnlyResponse 0xD#4 0#24 s t) ∧
    (∃ t, exec (.readN a7 len) s = .next t ∧ OnlyResponse 0xD#4 0#24 s t) ∧
    (∃ t, exec (.readReg a7 reg len) s = .next t ∧ OnlyResponse 0xD#4 0#24 s t)) ∧
  (∀ (s : State) (idx val : Byte), s.params.bufLen ≤ idx.toNat →
    (∃ t, exec (.wrTx idx val) s = .next t ∧ OnlyResponse 0xD#4 0#24 s t) ∧
    (∃ t, exec (.rdRx idx) s = .next t ∧ OnlyResponse 0xD#4 0#24 s t)) ∧
  (∀ (s : State) (i : Instr) (t : State), s.params.bufLen = 255 → exec i s = .next t → codeOf t.rspWord = 0xD#4 →
    (∃ val, i = .wrTx 255#8 val) ∨ i = .rdRx 255#8) ∧
  (∀ (s : State) (a7 : Addr) (reg : Byte) (i : Instr),
    i = .writeN a7 0#8 ∨ i = .readN a7 0#8 ∨ i = .readReg a7 reg 0#8 →
    ∃ t, exec i s = .next t ∧ codeOf t.rspWord ≠ 0xD#4)

/-- 30_encoding.md R111, R112: before CONFIGURE the ten commands that perform micro-operations are refused
NOT_CONFIGURED (their lengths fitting), and the other four are not. -/
def Obligations.UnconfiguredIsRefused : Prop :=
  ∀ s : State, s.configured = false →
    (∀ i : Instr,
      (∃ a7 rw, i = .start a7 rw) ∨ i = .stop ∨ (∃ b, i = .writeByte b) ∨ (∃ last, i = .readByte last) ∨
        (∃ a7 len, i = .writeN a7 len ∧ len.toNat ≤ s.params.bufLen) ∨
        (∃ a7 len, i = .readN a7 len ∧ len.toNat ≤ s.params.bufLen) ∨ (∃ a7, i = .probe a7) ∨
        (∃ a7 reg len, i = .readReg a7 reg len ∧ len.toNat ≤ s.params.bufLen) ∨ (∃ a7, i = .identify a7) ∨ i = .scan →
      ∃ t, exec i s = .next t ∧ OnlyResponse 0xE#4 0#24 s t) ∧
    ∀ i : Instr,
      (∃ sda scl speed, i = .configure sda scl speed) ∨ (∃ idx val, i = .wrTx idx val) ∨ (∃ idx, i = .rdRx idx) ∨
        (∃ sel, i = .rdStat sel) →
      ∃ t, exec i s = .next t ∧ codeOf t.rspWord ≠ 0xE#4

/-- 30_encoding.md R110: the order of the checks on a word that is taken, and that a command which passes them all is not
refused: its own rule runs. -/
def Obligations.ChecksAreMadeInOrder : Prop :=
  ∀ (s : State) (w : Word) (rest : List Input), Takes s w rest →
    ∃ t, step s = .next t ∧
      ((∀ i, decode w ≠ .ok i) → OnlyResponse 0xF#4 0#24 { s with inputs := rest } t) ∧
      ∀ i, decode w = .ok i →
        (i.fits s.params.bufLen = false → OnlyResponse 0xD#4 0#24 { s with inputs := rest } t) ∧
        (i.fits s.params.bufLen = true → i.needsHandle = true → s.configured = false →
          OnlyResponse 0xE#4 0#24 { s with inputs := rest } t) ∧
        (i.fits s.params.bufLen = true → (i.needsHandle = true → s.configured = true) →
          codeOf t.rspWord ∉ [0xD#4, 0xE#4, 0xF#4])

/-- 30_encoding.md R104, with the codes that R105 says are ever produced: every word that is taken is answered by exactly
one response word, whose bits 27 to 24 are 0. -/
def Obligations.OneResponseForEveryCommand : Prop :=
  ∀ (s : State) (w : Word) (rest : List Input), Takes s w rest →
    ∃ t, step s = .next t ∧ t.rspValid = true ∧ t.cmdReady = true ∧ t.inputs = rest ∧
      t.rspWord.extractLsb' 24 4 = 0#4 ∧ codeOf t.rspWord ∈ [0x0#4, 0x1#4, 0x2#4, 0x3#4, 0xD#4, 0xE#4, 0xF#4]

/-! ### The step -/

/-- When the block takes a word that decodes to a command, the step is that command's meaning, run on the state in which
the word has been taken: `inputs` moved on, `cmd_ready` = 0, no response delivered. -/
def Obligations.StepRunsTheDecodedCommand : Prop :=
  ∀ (s : State) (w : Word) (rest : List Input) (i : Instr), Takes s w rest → decode w = .ok i →
    step s = exec i { s with inputs := rest, cmdReady := false, rspValid := false }

/-- With nothing presented the block idles and holds its state (60_exceptions.md R262); the response of the step before is
no longer being delivered (log entry 3, the model's). -/
def Obligations.StepIdlesWithNothingPresented : Prop :=
  ∀ s : State, s.inputs = [] → step s = .next { s with rspValid := false }

/-- 60_exceptions.md R240: BBI2CM never traps; in this model, no step ever faults or is refused. -/
def Obligations.NoStepTraps : Prop :=
  ∀ s : State, ∃ t, step s = .next t

/-- 10_state.md R48, R49 and 70_reset_and_hazards.md R270: what power-on and an assertion of `rst` between commands leave.
(Which bytes the buffers then hold is free, log entry 6.) -/
def Obligations.ResetLeavesTheTable : Prop :=
  ResetValues State.reset ∧
  ∀ (s : State) (rest : List Input), s.inputs = .reset :: rest →
    ∃ t, step s = .next t ∧ ResetValues t ∧ t.params = s.params ∧ t.inputs = rest ∧ t.bus = s.bus

/-- 70_reset_and_hazards.md R271: `rst` inside a command, after any number of its micro-operations, abandons it without a
response and without a STOP: every pin is left as those micro-operations left it, while the drive states read REL; a word
that is no command moves no pin. With sda_pin = scl_pin all operations act on one pin, in the order issued (40_microops.md
R139). Afterwards the bus environment is unconstrained (log entry 1, the model's choice between the two that R271 allows).
In a state with cmd_ready = 0, where no run from reset comes, that the word counts as taken is the model's choice (log
entry 23), and so it is in every state that the bus hangs on fixed pins (log entry 9). -/
def Obligations.ResetInsideACommandAbandonsIt : Prop :=
  ∀ (s : State) (w : Word) (n : Nat) (rest : List Input), s.inputs = .resetDuring w n :: rest →
    ∃ t, step s = .next t ∧ ResetValues t ∧ t.params = s.params ∧ t.inputs = rest ∧ t.bus.script = [] ∧
      t.bus.rest = .free ∧ ((∀ i, decode w ≠ .ok i) → PinsAfter s [] t) ∧
      ∀ i es u, decode w = .ok i →
        exec i { s with inputs := rest, cmdReady := false, rspValid := false } = .next u →
        u.trace = s.trace ++ es → PinsAfter s (es.take n) t

/-! ### Invariants -/

/-- The invariant of the model holds after power-on. -/
def Obligations.ResetHasTheInvariant : Prop := Inv State.reset

/-- Every step keeps it: parameters and buffer lengths, the ranges of the scanner registers, nothing moved before
CONFIGURE, the canonical held pins, the canonical register files of the environment. -/
def Obligations.EveryStepKeepsTheInvariant : Prop :=
  ∀ s t : State, Inv s → step s = .next t → Inv t

/-- 10_state.md R50: if the host keeps the order, closed means released and open means held low between commands, from
reset on, and the composite commands end with the bus closed. -/
def Obligations.OrderKeepsTheBusConsistent : Prop :=
  BusConsistent State.reset ∧
  ∀ (s : State) (i : Instr), BusConsistent s → HostInOrder s i →
    ∃ t, exec i s = .next t ∧ BusConsistent t ∧ (closesBus i = true → t.busOpen = false)

/-- Which commands may write what: the handle by CONFIGURE alone (10_state.md R21 to R23), TXBUF by WRTX (R28), RXBUF by
READN and READREG (R29), the scanner registers by SCAN (R30 to R34, 43_identify.md R201); a parameter, a coming input
and the count of resets by no command. -/
def Obligations.OnlyTheNamedCommandsWrite : Prop :=
  ∀ (i : Instr) (s : State), ∃ t, exec i s = .next t ∧ SameWorld s t ∧
    ((∀ sda scl speed, i ≠ .configure sda scl speed) → SameHandle s t) ∧
    ((∀ idx val, i ≠ .wrTx idx val) → t.txbuf = s.txbuf) ∧
    ((∀ a7 len, i ≠ .readN a7 len) → (∀ a7 reg len, i ≠ .readReg a7 reg len) → t.rxbuf = s.rxbuf) ∧
    (i ≠ .scan → SameScanner s t)

/-! ### The commands -/

/-- CONFIGURE (41_engine_primitives.md R151): the pins, the tier by the two thresholds, `configured`, and nothing else. -/
def Obligations.ConfigureStoresTheHandle : Prop :=
  ∀ (s : State) (sda scl : Byte) (speed : BitVec 32),
    ∃ t, exec (.configure sda scl speed) s = .next t ∧ t.sdaPin = sda ∧ t.sclPin = scl ∧ t.configured = true ∧
      (400000 ≤ speed.toNat → t.tier = .fast) ∧
      (100000 ≤ speed.toNat → speed.toNat < 400000 → t.tier = .medium) ∧ (speed.toNat < 100000 → t.tier = .slow) ∧
      SameWorld s t ∧ SameBuffers s t ∧ SameScanner s t ∧ SameEngine s t ∧ Responded 0x0#4 0#24 t

/-- START (41_engine_primitives.md R152): the START prefix and the address byte; the bus is then open and held, whether or
not the address was acknowledged, and nothing but the engine has changed. -/
def Obligations.StartSendsTheAddress : Prop :=
  ∀ (s : State) (a7 : Addr) (rw : Dir), s.configured = true →
    ∃ k t, exec (.start a7 rw) s = .next t ∧ Did s t (started a7 rw k) ∧ t.busOpen = true ∧ t.sdaDrv = .low ∧
      t.sclDrv = .low ∧ EngineOnly s t ∧ Responded (if k then 0x1#4 else 0x0#4) 0#24 t

/-- STOP (41_engine_primitives.md R154, R155): from every state the bus ends idle; `sr` and `ack` stand. -/
def Obligations.StopReleasesTheBus : Prop :=
  ∀ s : State, s.configured = true →
    ∃ t, exec .stop s = .next t ∧ Did s t stopped ∧ BusIdle t ∧ t.sr = s.sr ∧ t.ack = s.ack ∧ EngineOnly s t ∧
      Responded 0x0#4 0#24 t

/-- WRITEBYTE (41_engine_primitives.md R156): the nine pulses, `sr` the byte, `ack` the sample read low, both lines held low;
`bus_open` stands. -/
def Obligations.WriteByteSendsEightBitsAndSamples : Prop :=
  ∀ (s : State) (b : Byte), s.configured = true →
    ∃ k t, exec (.writeByte b) s = .next t ∧ Did s t (sent b k) ∧ t.busOpen = s.busOpen ∧ t.sdaDrv = .low ∧
      t.sclDrv = .low ∧ EngineOnly s t ∧ Responded (if k then 0x1#4 else 0x0#4) 0#24 t

/-- READBYTE (41_engine_primitives.md R158): eight samples, the first one bit 7, are the byte in `sr` and in the response;
the ninth pulse is released exactly when `last`; `ack` and `bus_open` stand. -/
def Obligations.ReadByteShiftsEightSamples : Prop :=
  ∀ (s : State) (last : Bool), s.configured = true →
    ∃ ks t, exec (.readByte last) s = .next t ∧ ks.length = 8 ∧ Did s t (received ks last) ∧ t.busOpen = s.busOpen ∧
      t.ack = s.ack ∧ t.sdaDrv = .low ∧ t.sclDrv = .low ∧ EngineOnly s t ∧
      Responded 0x0#4 (0#16 ++ byteOf ks : BitVec 24) t

/-- WRITEN (42_engine_transfers.md R170): one write transaction of the first `len` entries of TXBUF; only the engine changes;
the response says no more than whether every byte was acknowledged. -/
def Obligations.WriteNSendsTheBuffer : Prop :=
  ∀ (s : State) (a7 : Addr) (len : Byte), s.configured = true → len.toNat ≤ s.params.bufLen →
    ∃ x ok t, exec (.writeN a7 len) s = .next t ∧ WriteTx a7 (s.txbuf.take len.toNat) x ok ∧ Did s t x ∧ BusIdle t ∧
      EngineOnly s t ∧ Responded (if ok then 0x0#4 else 0x1#4) 0#24 t

/-- READN (42_engine_transfers.md R172): one read transaction; its bytes become the first entries of RXBUF, in order, the
others standing; a read address that is not acknowledged leaves RXBUF alone. -/
def Obligations.ReadNFillsTheBuffer : Prop :=
  ∀ (s : State) (a7 : Addr) (len : Byte), s.configured = true → len.toNat ≤ s.params.bufLen →
    s.rxbuf.length = s.params.bufLen →
    ∃ x r t, exec (.readN a7 len) s = .next t ∧ ReadTx a7 len.toNat x r ∧ Did s t x ∧ BusIdle t ∧ SameWorld s t ∧
      SameHandle s t ∧ SameScanner s t ∧ t.txbuf = s.txbuf ∧
      (r = none → t.rxbuf = s.rxbuf ∧ Responded 0x1#4 0#24 t) ∧
      ∀ bytes, r = some bytes →
        bytes.length = len.toNat ∧ t.rxbuf = bytes ++ s.rxbuf.drop len.toNat ∧ Responded 0x0#4 0#24 t

/-- PROBE (42_engine_transfers.md R174, R175): the address alone, direction write, then STOP: 56 events, 22 of them DLY,
10 SCL1 and one RD(); OK exactly when that RD() returned 0. -/
def Obligations.ProbeReportsTheAcknowledge : Prop :=
  ∀ (s : State) (a7 : Addr), s.configured = true →
    ∃ k t, exec (.probe a7) s = .next t ∧ Did s t (probed a7 k) ∧ BusIdle t ∧ EngineOnly s t ∧
      Responded (if k then 0x1#4 else 0x0#4) 0#24 t ∧ (probed a7 k).events.length = 56 ∧
      (probed a7 k).events.count .dly = 22 ∧ (probed a7 k).events.count .scl1 = 10 ∧
      (probed a7 k).events.filter (fun e => e == .rd false || e == .rd true) = [.rd k]

/-- READREG (42_engine_transfers.md R176): a write transaction of the register number and, only if every byte of it was
acknowledged, a read transaction of `len` bytes into RXBUF; TXBUF is neither read nor written. -/
def Obligations.ReadRegWritesThenReads : Prop :=
  ∀ (s : State) (a7 : Addr) (reg len : Byte), s.configured = true → len.toNat ≤ s.params.bufLen →
    s.rxbuf.length = s.params.bufLen →
    ∃ x r t, exec (.readReg a7 reg len) s = .next t ∧ RegRead a7 reg len.toNat x r ∧ Did s t x ∧ BusIdle t ∧
      SameWorld s t ∧ SameHandle s t ∧ SameScanner s t ∧ t.txbuf = s.txbuf ∧
      (r = none → t.rxbuf = s.rxbuf ∧ Responded 0x1#4 0#24 t) ∧
      ∀ bytes, r = some bytes →
        bytes.length = len.toNat ∧ t.rxbuf = bytes ++ s.rxbuf.drop len.toNat ∧ Responded 0x0#4 0#24 t

/-- IDENTIFY (43_identify.md R190 to R198, R200, R201): the one rule that the address selects, its traffic and its verdict;
only the engine changes, so the buffers and the scanner registers stand; rule 2 does not even change the engine. -/
def Obligations.IdentifyTriesOneRule : Prop :=
  ∀ (s : State) (a7 : Addr), s.configured = true →
    ∃ x k t, exec (.identify a7) s = .next t ∧ Identified s.params a7 x k ∧ Did s t x ∧ EngineOnly s t ∧
      Responded 0x0#4 (0#21 ++ kindCode k : BitVec 24) t ∧ (BusIdle s → BusIdle t) ∧
      if a7 ≠ 0x53#7 ∧ a7 = s.params.addrCo2 then SameEngine s t else BusIdle t

/-- SCAN (44_scanner.md R212, R213, R215 to R217): from every scanner state, the loop over the window from 4 to SCAN_LAST,
the end state with its ranges and the response; the bus ends idle; the buffers and the handle stand. (That SCAN_LAST is at
least 16 is the model's premise, log entry 5.) -/
def Obligations.ScanRunsTheWindow : Prop :=
  ∀ s : State, s.configured = true → 16 ≤ s.params.scanLast.toNat →
    ∃ x e bad t, exec .scan s = .next t ∧ Scanned s.params 4 0 x e bad ∧ Did s t x ∧ ScanLeft e bad t ∧ BusIdle t ∧
      SameWorld s t ∧ SameHandle s t ∧ SameBuffers s t ∧ ScanInRange s.params bad e

/-- WRTX (45_host_access.md R230): one entry of TXBUF, and nothing else. -/
def Obligations.WrTxWritesOneEntry : Prop :=
  ∀ (s : State) (idx val : Byte), idx.toNat < s.params.bufLen → s.txbuf.length = s.params.bufLen →
    ∃ t, exec (.wrTx idx val) s = .next t ∧ t.txbuf.length = s.txbuf.length ∧
      (∀ n, t.txbuf[n]? = if n = idx.toNat then some val else s.txbuf[n]?) ∧ t.rxbuf = s.rxbuf ∧ SameWorld s t ∧
      SameHandle s t ∧ SameScanner s t ∧ SameEngine s t ∧ Responded 0x0#4 0#24 t

/-- RDRX (45_host_access.md R231): the entry in the response, and no change. -/
def Obligations.RdRxReadsOneEntry : Prop :=
  ∀ (s : State) (idx : Byte), idx.toNat < s.params.bufLen → s.rxbuf.length = s.params.bufLen →
    ∃ b t, s.rxbuf[idx.toNat]? = some b ∧ exec (.rdRx idx) s = .next t ∧
      OnlyResponse 0x0#4 (0#16 ++ b : BitVec 24) s t

/-- RDSTAT (45_host_access.md R232) with the four views of 10_state.md R43 to R46: the view in the response, no change, in
every state, before CONFIGURE too. -/
def Obligations.RdStatReadsTheView : Prop :=
  ∀ (s : State) (sel : View),
    ∃ d t, exec (.rdStat sel) s = .next t ∧ OnlyResponse 0x0#4 d s t ∧
      match sel with
      | .status => StatusView s d
      | .config => ConfigView s d
      | .scanstat => ScanstatView s d
      | .found => FoundView s d

/-- The reset values that 10_state.md R43 to R46 give the four views, read by RDSTAT directly after a reset
(45_host_access.md R232). -/
def Obligations.ViewsAfterReset : Prop :=
  ∀ s : State, ResetValues s →
    (∃ t, exec (.rdStat .status) s = .next t ∧ OnlyResponse 0x0#4 0x00000C#24 s t) ∧
    (∃ t, exec (.rdStat .config) s = .next t ∧ OnlyResponse 0x0#4 0x020000#24 s t) ∧
    (∃ t, exec (.rdStat .scanstat) s = .next t ∧ OnlyResponse 0x0#4 0x000000#24 s t) ∧
    ∃ t, exec (.rdStat .found) s = .next t ∧ OnlyResponse 0x0#4 0x000000#24 s t

/-! ### Rules about every command -/

/-- 40_microops.md R131 to R136: behind every event of every command but CONFIGURE stand exactly the collaborator calls of
its rule, in order, and the drive states are what the last operation on each line made them. -/
def Obligations.EventsAreTheirCalls : Prop :=
  ∀ (i : Instr) (s : State), (∀ sda scl speed, i ≠ .configure sda scl speed) →
    ∃ es t, exec i s = .next t ∧ t.trace = s.trace ++ es ∧ t.calls = s.calls ++ es.flatMap (callsOf s) ∧
      t.sdaDrv = sdaAfter s.sdaDrv es ∧ t.sclDrv = sclAfter s.sclDrv es

/-- 60_exceptions.md R257, with R258: of the collaborators' interfaces no command uses more than these calls, so that no
line is ever driven high (40_microops.md R130); and PROBE uses each of them. -/
def Obligations.OnlyTheAllowedCalls : Prop :=
  (∀ (i : Instr) (s : State), ∃ cs t, exec i s = .next t ∧ t.calls = s.calls ++ cs ∧ ∀ c ∈ cs, AllowedCall s c) ∧
  ∀ (s : State) (a7 : Addr), s.configured = true →
    ∃ cs t k, exec (.probe a7) s = .next t ∧ t.calls = s.calls ++ cs ∧
      ∀ c ∈ [Call.setDirection s.sdaPin .output, .setDirection s.sclPin .output, .setDirection s.sdaPin .input,
        .setDirection s.sclPin .input, .write s.sdaPin false, .write s.sclPin false, .read s.sdaPin k], c ∈ cs

/-- 40_microops.md R136: every RD() of every command is issued with both lines released. -/
def Obligations.SamplesFindBothLinesReleased : Prop :=
  ∀ (i : Instr) (s : State), ∃ es t, exec i s = .next t ∧ t.trace = s.trace ++ es ∧
    readsReleased s.sdaDrv s.sclDrv es

/-- 70_reset_and_hazards.md R290: every command ends, whatever the environment answers and whatever the parameters are, after
at most so many micro-operations. -/
def Obligations.EventsAreBounded : Prop :=
  ∀ (i : Instr) (s : State), ∃ es t, exec i s = .next t ∧ t.trace = s.trace ++ es ∧ es.length ≤ eventBound i

/-- 20_memory.md R76 and 42_engine_transfers.md R178, as the drive states tell: read off the events and the drive states
before the command, a command in order makes exactly its START and STOP conditions; a refused one makes no event. These
are the conditions on the wire where the bus hangs on the pins, two supported ones (70_reset_and_hazards.md R283) that
agree with the drive states, and nobody else pulls SDA or SCL; after `rst` inside a command (R271), or with unsupported or equal pins
(40_microops.md R138, R139), they need not be. -/
def Obligations.StartsAndStopsAreMatched : Prop :=
  ∀ (i : Instr) (s : State), BusConsistent s → HostInOrder s i →
    ∃ es t, exec i s = .next t ∧ t.trace = s.trace ++ es ∧
      if i.fits s.params.bufLen = true ∧ (i.needsHandle = true → s.configured = true) then
        conditionsOf s i (conditions s.sdaDrv s.sclDrv es)
      else es = []

/-- 60_exceptions.md R241 to R243: which commands raise NO_ACK, BUS_FAULT and NO_SENSORS, and what is recorded. -/
def Obligations.ErrorsAreRaisedByTheNamedCommands : Prop :=
  ∀ (i : Instr) (s : State), ∃ t, exec i s = .next t ∧
    (codeOf t.rspWord = 0x1#4 → t.ack = false ∧
      ((∃ a7 rw, i = .start a7 rw) ∨ (∃ b, i = .writeByte b) ∨ (∃ a7 len, i = .writeN a7 len) ∨
        (∃ a7 len, i = .readN a7 len) ∨ (∃ a7, i = .probe a7) ∨ ∃ a7 reg len, i = .readReg a7 reg len)) ∧
    (codeOf t.rspWord = 0x2#4 → i = .scan ∧ t.scanState = .exhausted ∧ t.scanResult = .busFault) ∧
    (codeOf t.rspWord = 0x3#4 → i = .scan ∧ t.scanState = .exhausted ∧ t.scanResult = .noSensors)

/-- 60_exceptions.md R248: after an error response the transfer commands and SCAN leave the bus idle, START leaves it open
and held, WRITEBYTE holds both lines and leaves it open if it was; the block is ready for the next command. -/
def Obligations.ErrorsLeaveTheBusInOrder : Prop :=
  ∀ (i : Instr) (s t : State), 16 ≤ s.params.scanLast.toNat → exec i s = .next t →
    codeOf t.rspWord ∈ [0x1#4, 0x2#4, 0x3#4] →
    t.cmdReady = true ∧ (closesBus i = true → BusIdle t) ∧
      ((∃ a7 rw, i = .start a7 rw) → t.busOpen = true ∧ t.sdaDrv = .low ∧ t.sclDrv = .low) ∧
      ((∃ b, i = .writeByte b) → t.busOpen = s.busOpen ∧ t.sdaDrv = .low ∧ t.sclDrv = .low)

/-- 42_engine_transfers.md R175: PROBE is START with direction write followed by STOP, state for state; the one response of
PROBE is START's. -/
def Obligations.ProbeIsStartThenStop : Prop :=
  ∀ (s : State) (a7 : Addr), s.configured = true →
    ∃ t u v, exec (.probe a7) s = .next t ∧ exec (.start a7 .write) s = .next u ∧ exec .stop u = .next v ∧
      t = { v with rspWord := u.rspWord }

/-- 42_engine_transfers.md R177: READREG is WRTX, WRITEN of one byte and READN, state for state but for TXBUF, when the write
succeeds; when it does not, it is the WRITEN alone. -/
def Obligations.ReadRegIsLoadWriteRead : Prop :=
  ∀ (s : State) (a7 : Addr) (reg len : Byte), s.configured = true → len.toNat ≤ s.params.bufLen →
    2 ≤ s.params.bufLen → s.txbuf.length = s.params.bufLen →
    ∃ t u v w, exec (.readReg a7 reg len) s = .next t ∧ exec (.wrTx 0#8 reg) s = .next u ∧
      exec (.writeN a7 1#8) u = .next v ∧ exec (.readN a7 len) v = .next w ∧
      (codeOf v.rspWord = 0x0#4 → t = { w with txbuf := s.txbuf }) ∧
      (codeOf v.rspWord ≠ 0x0#4 → t = { v with txbuf := s.txbuf })

/-! ### Environments -/

/-- 44_scanner.md R219: on the EMPTY bus a scan is 124 unanswered probes, 6944 events, and reports NO_SENSORS. -/
def Obligations.EmptyBusScansToTheEnd : Prop :=
  ∀ s : State, s.configured = true → s.params.scanLast = 127#7 → Always s true →
    ∃ es t, exec .scan s = .next t ∧ t.trace = s.trace ++ es ∧ es.length = 6944 ∧ es.count .dly = 2728 ∧
      t.scanState = .exhausted ∧ t.scanResult = .noSensors ∧ t.scanAddr = 128#8 ∧ t.badCnt = 0#4 ∧
      Responded 0x3#4 0#24 t

/-- 44_scanner.md R219, R215: on the STUCK bus a scan aborts with BUS_FAULT at address 13, after 560 events. -/
def Obligations.StuckBusIsABusFault : Prop :=
  ∀ s : State, s.configured = true → 16 ≤ s.params.scanLast.toNat → Always s false →
    ∃ es t, exec .scan s = .next t ∧ t.trace = s.trace ++ es ∧ es.length = 560 ∧ t.scanState = .exhausted ∧
      t.scanResult = .busFault ∧ t.scanAddr = 13#8 ∧ t.badCnt = 10#4 ∧ Responded 0x2#4 0#24 t

/-- 20_memory.md R83: a register file read after a write gives the byte written at that register and every other byte as
before, and the write keeps the canonical form. -/
def Obligations.RegisterFileReadsWhatWasWritten : Prop :=
  ∀ (m : Memory) (a : Nat) (b : Byte), m.wf = true →
    (Memory.write m a b).wf = true ∧ Memory.read (Memory.write m a b) a = b ∧
      ∀ a', a' ≠ a → Memory.read (Memory.write m a b) a' = Memory.read m a'

/-- The first property of the source (95_test_vectors.md S1; 42_engine_transfers.md R175): with one reference responder on
the bus, PROBE is answered OK exactly at its address, and the register file stands. -/
def Obligations.ProbeFindsOnlyTheDevice : Prop :=
  ∀ (s : State) (d : Responder) (a7 : Addr), s.configured = true → OneDevice s d →
    ∃ t e, exec (.probe a7) s = .next t ∧ Responded (if a7 = d.addr then 0x0#4 else 0x1#4) 0#24 t ∧
      OneDevice t e ∧ e.addr = d.addr ∧ e.mem = d.mem ∧ e.ptr = d.ptr

/-- 42_engine_transfers.md R176 against 20_memory.md R83: READREG of a reference responder gives the bytes of its register
file from `reg` on, wrapping past register 255; at another address it is answered NO_ACK and RXBUF stands. -/
def Obligations.ReadRegGivesTheDevicesBytes : Prop :=
  ∀ (s : State) (d : Responder) (a7 : Addr) (reg len : Byte), s.configured = true → OneDevice s d →
    1 ≤ len.toNat → len.toNat ≤ s.params.bufLen → s.rxbuf.length = s.params.bufLen →
    ∃ t e, exec (.readReg a7 reg len) s = .next t ∧ OneDevice t e ∧ e.addr = d.addr ∧ e.mem = d.mem ∧
      if a7 = d.addr then
        Responded 0x0#4 0#24 t ∧
          t.rxbuf = (List.range len.toNat).map (fun n => Memory.read d.mem ((reg.toNat + n) % 256)) ++
            s.rxbuf.drop len.toNat
      else Responded 0x1#4 0#24 t ∧ t.rxbuf = s.rxbuf

/-- The sixth property of the source (95_test_vectors.md S6): what WRITEN sent to a reference responder behind a register
number, READREG of that register gives back unchanged. -/
def Obligations.WhatWasWrittenIsReadBack : Prop :=
  ∀ (s : State) (d : Responder) (reg : Byte) (bytes : List Byte) (len : Byte), s.configured = true → OneDevice s d →
    d.stores = true → d.mem.wf = true → 1 ≤ len.toNat → len.toNat + 1 ≤ s.params.bufLen → s.params.bufLen ≤ 255 →
    s.rxbuf.length = s.params.bufLen → s.txbuf.take (len.toNat + 1) = reg :: bytes → bytes.length = len.toNat →
    ∃ t u, exec (.writeN d.addr (len + 1#8)) s = .next t ∧ Responded 0x0#4 0#24 t ∧
      exec (.readReg d.addr reg len) t = .next u ∧ Responded 0x0#4 0#24 u ∧ u.rxbuf.take len.toNat = bytes

/-! ### The lines -/

/-- 40_microops.md R131 to R134, R138, R139: after every command each pin of the GPIO collaborator is what the last
operation on it has made of it: an unsupported pin and one that is not configured as before, and with sda_pin = scl_pin
the operations of both lines act on one pin in the order issued. CONFIGURE moves no pin (70_reset_and_hazards.md R282).
That the bus hangs on fixed pins is the model's choice (log entry 9). -/
def Obligations.PinsFollowTheEvents : Prop :=
  ∀ (i : Instr) (s : State),
    ∃ es t, exec i s = .next t ∧ t.trace = s.trace ++ es ∧ PinsAfter s es t

/-- 20_memory.md R74, 70_reset_and_hazards.md R287: BBI2CM never reads SCL. On a bus without reference responders (which do
see it), whoever holds SCL, and whenever, changes nothing of what any command does: not its trace, its answers, its
response, nor any register. -/
def Obligations.ClockIsNeverRead : Prop :=
  ∀ (i : Instr) (s s' : State), (∀ ds, s.bus.rest ≠ .responders ds) → ButForScl s s' →
    ∃ t t', exec i s = .next t ∧ exec i s' = .next t' ∧ ButForScl t t'

/-- 70_reset_and_hazards.md R282: CONFIGURE with the bus open or not is carried out and changes no pin and no drive state,
which from now on speak of the new pins; the following STOP goes to the new pins and leaves every other one as it was, an
old one LOW for instance; and the responders see nothing of it where the bus hangs on other pins and nobody else moves SCL
(that the bus hangs on two fixed pins is the model's choice, log entry 9). -/
def Obligations.ReconfiguringLeavesTheOldPins : Prop :=
  ∀ (s : State) (sda scl : Byte) (speed : BitVec 32),
    ∃ t u, exec (.configure sda scl speed) s = .next t ∧ exec .stop t = .next u ∧
      Responded 0x0#4 0#24 t ∧ t.bus = s.bus ∧ t.sdaDrv = s.sdaDrv ∧ t.sclDrv = s.sclDrv ∧ t.sdaPin = sda ∧ t.sclPin = scl ∧
      u.calls = s.calls ++ stopOut.flatMap (callsOf t) ∧ BusIdle u ∧
      (∀ p, p ≠ sda → p ≠ scl → (p ∈ u.bus.held ↔ p ∈ s.bus.held)) ∧
      (supported s.params sda = true → sda ∉ u.bus.held) ∧ (supported s.params scl = true → scl ∉ u.bus.held) ∧
      (sda ≠ scl → s.bus.sdaAt ∉ [sda, scl] → s.bus.sclAt ∉ [sda, scl] → s.bus.sclScript = [] →
        u.bus.rest = s.bus.rest)

end
end

