-- ==== Sys2Proof/Laws/State.lean ====
section
/-! SUPPORT. One lemma for each field of State under each shared update, true by `rfl`. -/

namespace Sys2Proof.Machine

@[simp] theorem sda0_params (s : State) : (sda0 s).params = s.params := rfl
@[simp] theorem sda0_configured (s : State) : (sda0 s).configured = s.configured := rfl
@[simp] theorem sda0_sdaPin (s : State) : (sda0 s).sdaPin = s.sdaPin := rfl
@[simp] theorem sda0_sclPin (s : State) : (sda0 s).sclPin = s.sclPin := rfl
@[simp] theorem sda0_tier (s : State) : (sda0 s).tier = s.tier := rfl
@[simp] theorem sda0_sdaDrv (s : State) : (sda0 s).sdaDrv = .low := rfl
@[simp] theorem sda0_sclDrv (s : State) : (sda0 s).sclDrv = s.sclDrv := rfl
@[simp] theorem sda0_busOpen (s : State) : (sda0 s).busOpen = s.busOpen := rfl
@[simp] theorem sda0_ack (s : State) : (sda0 s).ack = s.ack := rfl
@[simp] theorem sda0_sr (s : State) : (sda0 s).sr = s.sr := rfl
@[simp] theorem sda0_txbuf (s : State) : (sda0 s).txbuf = s.txbuf := rfl
@[simp] theorem sda0_rxbuf (s : State) : (sda0 s).rxbuf = s.rxbuf := rfl
@[simp] theorem sda0_scanState (s : State) : (sda0 s).scanState = s.scanState := rfl
@[simp] theorem sda0_scanAddr (s : State) : (sda0 s).scanAddr = s.scanAddr := rfl
@[simp] theorem sda0_badCnt (s : State) : (sda0 s).badCnt = s.badCnt := rfl
@[simp] theorem sda0_scanResult (s : State) : (sda0 s).scanResult = s.scanResult := rfl
@[simp] theorem sda0_foundAddr (s : State) : (sda0 s).foundAddr = s.foundAddr := rfl
@[simp] theorem sda0_foundKind (s : State) : (sda0 s).foundKind = s.foundKind := rfl
@[simp] theorem sda0_cmdReady (s : State) : (sda0 s).cmdReady = s.cmdReady := rfl
@[simp] theorem sda0_rspValid (s : State) : (sda0 s).rspValid = s.rspValid := rfl
@[simp] theorem sda0_rspWord (s : State) : (sda0 s).rspWord = s.rspWord := rfl
@[simp] theorem sda0_inputs (s : State) : (sda0 s).inputs = s.inputs := rfl
@[simp] theorem sda0_trace (s : State) : (sda0 s).trace = s.trace ++ [.sda0] := rfl
@[simp] theorem sda0_calls (s : State) : (sda0 s).calls = s.calls ++ [.write s.sdaPin false, .setDirection s.sdaPin .output] := rfl
theorem sda0_bus (s : State) : (sda0 s).bus = onPin s.sdaPin false s := rfl
@[simp] theorem sda0_drawCtr (s : State) : (sda0 s).drawCtr = s.drawCtr := rfl
@[simp] theorem sda0_epoch (s : State) : (sda0 s).epoch = s.epoch := rfl

@[simp] theorem sda1_params (s : State) : (sda1 s).params = s.params := rfl
@[simp] theorem sda1_configured (s : State) : (sda1 s).configured = s.configured := rfl
@[simp] theorem sda1_sdaPin (s : State) : (sda1 s).sdaPin = s.sdaPin := rfl
@[simp] theorem sda1_sclPin (s : State) : (sda1 s).sclPin = s.sclPin := rfl
@[simp] theorem sda1_tier (s : State) : (sda1 s).tier = s.tier := rfl
@[simp] theorem sda1_sdaDrv (s : State) : (sda1 s).sdaDrv = .rel := rfl
@[simp] theorem sda1_sclDrv (s : State) : (sda1 s).sclDrv = s.sclDrv := rfl
@[simp] theorem sda1_busOpen (s : State) : (sda1 s).busOpen = s.busOpen := rfl
@[simp] theorem sda1_ack (s : State) : (sda1 s).ack = s.ack := rfl
@[simp] theorem sda1_sr (s : State) : (sda1 s).sr = s.sr := rfl
@[simp] theorem sda1_txbuf (s : State) : (sda1 s).txbuf = s.txbuf := rfl
@[simp] theorem sda1_rxbuf (s : State) : (sda1 s).rxbuf = s.rxbuf := rfl
@[simp] theorem sda1_scanState (s : State) : (sda1 s).scanState = s.scanState := rfl
@[simp] theorem sda1_scanAddr (s : State) : (sda1 s).scanAddr = s.scanAddr := rfl
@[simp] theorem sda1_badCnt (s : State) : (sda1 s).badCnt = s.badCnt := rfl
@[simp] theorem sda1_scanResult (s : State) : (sda1 s).scanResult = s.scanResult := rfl
@[simp] theorem sda1_foundAddr (s : State) : (sda1 s).foundAddr = s.foundAddr := rfl
@[simp] theorem sda1_foundKind (s : State) : (sda1 s).foundKind = s.foundKind := rfl
@[simp] theorem sda1_cmdReady (s : State) : (sda1 s).cmdReady = s.cmdReady := rfl
@[simp] theorem sda1_rspValid (s : State) : (sda1 s).rspValid = s.rspValid := rfl
@[simp] theorem sda1_rspWord (s : State) : (sda1 s).rspWord = s.rspWord := rfl
@[simp] theorem sda1_inputs (s : State) : (sda1 s).inputs = s.inputs := rfl
@[simp] theorem sda1_trace (s : State) : (sda1 s).trace = s.trace ++ [.sda1] := rfl
@[simp] theorem sda1_calls (s : State) : (sda1 s).calls = s.calls ++ [.setDirection s.sdaPin .input] := rfl
theorem sda1_bus (s : State) : (sda1 s).bus = onPin s.sdaPin true s := rfl
@[simp] theorem sda1_drawCtr (s : State) : (sda1 s).drawCtr = s.drawCtr := rfl
@[simp] theorem sda1_epoch (s : State) : (sda1 s).epoch = s.epoch := rfl

@[simp] theorem scl0_params (s : State) : (scl0 s).params = s.params := rfl
@[simp] theorem scl0_configured (s : State) : (scl0 s).configured = s.configured := rfl
@[simp] theorem scl0_sdaPin (s : State) : (scl0 s).sdaPin = s.sdaPin := rfl
@[simp] theorem scl0_sclPin (s : State) : (scl0 s).sclPin = s.sclPin := rfl
@[simp] theorem scl0_tier (s : State) : (scl0 s).tier = s.tier := rfl
@[simp] theorem scl0_sdaDrv (s : State) : (scl0 s).sdaDrv = s.sdaDrv := rfl
@[simp] theorem scl0_sclDrv (s : State) : (scl0 s).sclDrv = .low := rfl
@[simp] theorem scl0_busOpen (s : State) : (scl0 s).busOpen = s.busOpen := rfl
@[simp] theorem scl0_ack (s : State) : (scl0 s).ack = s.ack := rfl
@[simp] theorem scl0_sr (s : State) : (scl0 s).sr = s.sr := rfl
@[simp] theorem scl0_txbuf (s : State) : (scl0 s).txbuf = s.txbuf := rfl
@[simp] theorem scl0_rxbuf (s : State) : (scl0 s).rxbuf = s.rxbuf := rfl
@[simp] theorem scl0_scanState (s : State) : (scl0 s).scanState = s.scanState := rfl
@[simp] theorem scl0_scanAddr (s : State) : (scl0 s).scanAddr = s.scanAddr := rfl
@[simp] theorem scl0_badCnt (s : State) : (scl0 s).badCnt = s.badCnt := rfl
@[simp] theorem scl0_scanResult (s : State) : (scl0 s).scanResult = s.scanResult := rfl
@[simp] theorem scl0_foundAddr (s : State) : (scl0 s).foundAddr = s.foundAddr := rfl
@[simp] theorem scl0_foundKind (s : State) : (scl0 s).foundKind = s.foundKind := rfl
@[simp] theorem scl0_cmdReady (s : State) : (scl0 s).cmdReady = s.cmdReady := rfl
@[simp] theorem scl0_rspValid (s : State) : (scl0 s).rspValid = s.rspValid := rfl
@[simp] theorem scl0_rspWord (s : State) : (scl0 s).rspWord = s.rspWord := rfl
@[simp] theorem scl0_inputs (s : State) : (scl0 s).inputs = s.inputs := rfl
@[simp] theorem scl0_trace (s : State) : (scl0 s).trace = s.trace ++ [.scl0] := rfl
@[simp] theorem scl0_calls (s : State) : (scl0 s).calls = s.calls ++ [.write s.sclPin false, .setDirection s.sclPin .output] := rfl
theorem scl0_bus (s : State) : (scl0 s).bus = onPin s.sclPin false s := rfl
@[simp] theorem scl0_drawCtr (s : State) : (scl0 s).drawCtr = s.drawCtr := rfl
@[simp] theorem scl0_epoch (s : State) : (scl0 s).epoch = s.epoch := rfl

@[simp] theorem scl1_params (s : State) : (scl1 s).params = s.params := rfl
@[simp] theorem scl1_configured (s : State) : (scl1 s).configured = s.configured := rfl
@[simp] theorem scl1_sdaPin (s : State) : (scl1 s).sdaPin = s.sdaPin := rfl
@[simp] theorem scl1_sclPin (s : State) : (scl1 s).sclPin = s.sclPin := rfl
@[simp] theorem scl1_tier (s : State) : (scl1 s).tier = s.tier := rfl
@[simp] theorem scl1_sdaDrv (s : State) : (scl1 s).sdaDrv = s.sdaDrv := rfl
@[simp] theorem scl1_sclDrv (s : State) : (scl1 s).sclDrv = .rel := rfl
@[simp] theorem scl1_busOpen (s : State) : (scl1 s).busOpen = s.busOpen := rfl
@[simp] theorem scl1_ack (s : State) : (scl1 s).ack = s.ack := rfl
@[simp] theorem scl1_sr (s : State) : (scl1 s).sr = s.sr := rfl
@[simp] theorem scl1_txbuf (s : State) : (scl1 s).txbuf = s.txbuf := rfl
@[simp] theorem scl1_rxbuf (s : State) : (scl1 s).rxbuf = s.rxbuf := rfl
@[simp] theorem scl1_scanState (s : State) : (scl1 s).scanState = s.scanState := rfl
@[simp] theorem scl1_scanAddr (s : State) : (scl1 s).scanAddr = s.scanAddr := rfl
@[simp] theorem scl1_badCnt (s : State) : (scl1 s).badCnt = s.badCnt := rfl
@[simp] theorem scl1_scanResult (s : State) : (scl1 s).scanResult = s.scanResult := rfl
@[simp] theorem scl1_foundAddr (s : State) : (scl1 s).foundAddr = s.foundAddr := rfl
@[simp] theorem scl1_foundKind (s : State) : (scl1 s).foundKind = s.foundKind := rfl
@[simp] theorem scl1_cmdReady (s : State) : (scl1 s).cmdReady = s.cmdReady := rfl
@[simp] theorem scl1_rspValid (s : State) : (scl1 s).rspValid = s.rspValid := rfl
@[simp] theorem scl1_rspWord (s : State) : (scl1 s).rspWord = s.rspWord := rfl
@[simp] theorem scl1_inputs (s : State) : (scl1 s).inputs = s.inputs := rfl
@[simp] theorem scl1_trace (s : State) : (scl1 s).trace = s.trace ++ [.scl1] := rfl
@[simp] theorem scl1_calls (s : State) : (scl1 s).calls = s.calls ++ [.setDirection s.sclPin .input] := rfl
theorem scl1_bus (s : State) : (scl1 s).bus = onPin s.sclPin true s := rfl
@[simp] theorem scl1_drawCtr (s : State) : (scl1 s).drawCtr = s.drawCtr := rfl
@[simp] theorem scl1_epoch (s : State) : (scl1 s).epoch = s.epoch := rfl

@[simp] theorem dly_params (s : State) : (dly s).params = s.params := rfl
@[simp] theorem dly_configured (s : State) : (dly s).configured = s.configured := rfl
@[simp] theorem dly_sdaPin (s : State) : (dly s).sdaPin = s.sdaPin := rfl
@[simp] theorem dly_sclPin (s : State) : (dly s).sclPin = s.sclPin := rfl
@[simp] theorem dly_tier (s : State) : (dly s).tier = s.tier := rfl
@[simp] theorem dly_sdaDrv (s : State) : (dly s).sdaDrv = s.sdaDrv := rfl
@[simp] theorem dly_sclDrv (s : State) : (dly s).sclDrv = s.sclDrv := rfl
@[simp] theorem dly_busOpen (s : State) : (dly s).busOpen = s.busOpen := rfl
@[simp] theorem dly_ack (s : State) : (dly s).ack = s.ack := rfl
@[simp] theorem dly_sr (s : State) : (dly s).sr = s.sr := rfl
@[simp] theorem dly_txbuf (s : State) : (dly s).txbuf = s.txbuf := rfl
@[simp] theorem dly_rxbuf (s : State) : (dly s).rxbuf = s.rxbuf := rfl
@[simp] theorem dly_scanState (s : State) : (dly s).scanState = s.scanState := rfl
@[simp] theorem dly_scanAddr (s : State) : (dly s).scanAddr = s.scanAddr := rfl
@[simp] theorem dly_badCnt (s : State) : (dly s).badCnt = s.badCnt := rfl
@[simp] theorem dly_scanResult (s : State) : (dly s).scanResult = s.scanResult := rfl
@[simp] theorem dly_foundAddr (s : State) : (dly s).foundAddr = s.foundAddr := rfl
@[simp] theorem dly_foundKind (s : State) : (dly s).foundKind = s.foundKind := rfl
@[simp] theorem dly_cmdReady (s : State) : (dly s).cmdReady = s.cmdReady := rfl
@[simp] theorem dly_rspValid (s : State) : (dly s).rspValid = s.rspValid := rfl
@[simp] theorem dly_rspWord (s : State) : (dly s).rspWord = s.rspWord := rfl
@[simp] theorem dly_inputs (s : State) : (dly s).inputs = s.inputs := rfl
@[simp] theorem dly_trace (s : State) : (dly s).trace = s.trace ++ [.dly] := rfl
@[simp] theorem dly_calls (s : State) : (dly s).calls = s.calls ++ [.delayMicroseconds (tierDelay s.params s.tier)] := rfl
theorem dly_bus (s : State) : (dly s).bus = s.bus.tick (oracleNow s) := rfl
@[simp] theorem dly_drawCtr (s : State) : (dly s).drawCtr = s.drawCtr := rfl
@[simp] theorem dly_epoch (s : State) : (dly s).epoch = s.epoch := rfl

@[simp] theorem rd_params (s : State) : (rd s).2.params = s.params := rfl
@[simp] theorem rd_configured (s : State) : (rd s).2.configured = s.configured := rfl
@[simp] theorem rd_sdaPin (s : State) : (rd s).2.sdaPin = s.sdaPin := rfl
@[simp] theorem rd_sclPin (s : State) : (rd s).2.sclPin = s.sclPin := rfl
@[simp] theorem rd_tier (s : State) : (rd s).2.tier = s.tier := rfl
@[simp] theorem rd_sdaDrv (s : State) : (rd s).2.sdaDrv = s.sdaDrv := rfl
@[simp] theorem rd_sclDrv (s : State) : (rd s).2.sclDrv = s.sclDrv := rfl
@[simp] theorem rd_busOpen (s : State) : (rd s).2.busOpen = s.busOpen := rfl
@[simp] theorem rd_ack (s : State) : (rd s).2.ack = s.ack := rfl
@[simp] theorem rd_sr (s : State) : (rd s).2.sr = s.sr := rfl
@[simp] theorem rd_txbuf (s : State) : (rd s).2.txbuf = s.txbuf := rfl
@[simp] theorem rd_rxbuf (s : State) : (rd s).2.rxbuf = s.rxbuf := rfl
@[simp] theorem rd_scanState (s : State) : (rd s).2.scanState = s.scanState := rfl
@[simp] theorem rd_scanAddr (s : State) : (rd s).2.scanAddr = s.scanAddr := rfl
@[simp] theorem rd_badCnt (s : State) : (rd s).2.badCnt = s.badCnt := rfl
@[simp] theorem rd_scanResult (s : State) : (rd s).2.scanResult = s.scanResult := rfl
@[simp] theorem rd_foundAddr (s : State) : (rd s).2.foundAddr = s.foundAddr := rfl
@[simp] theorem rd_foundKind (s : State) : (rd s).2.foundKind = s.foundKind := rfl
@[simp] theorem rd_cmdReady (s : State) : (rd s).2.cmdReady = s.cmdReady := rfl
@[simp] theorem rd_rspValid (s : State) : (rd s).2.rspValid = s.rspValid := rfl
@[simp] theorem rd_rspWord (s : State) : (rd s).2.rspWord = s.rspWord := rfl
@[simp] theorem rd_inputs (s : State) : (rd s).2.inputs = s.inputs := rfl
@[simp] theorem rd_trace (s : State) : (rd s).2.trace = s.trace ++ [.rd (rd s).1] := rfl
@[simp] theorem rd_calls (s : State) : (rd s).2.calls = s.calls ++ [.read s.sdaPin (rd s).1] := rfl
theorem rd_bus (s : State) : (rd s).2.bus = (sampleSda s).2.1 := rfl
@[simp] theorem rd_drawCtr (s : State) : (rd s).2.drawCtr = s.drawCtr + (sampleSda s).2.2 := rfl
@[simp] theorem rd_epoch (s : State) : (rd s).2.epoch = s.epoch := rfl

@[simp] theorem respond_params (c : Code) (d : Data) (s : State) : (respond c d s).params = s.params := rfl
@[simp] theorem respond_configured (c : Code) (d : Data) (s : State) : (respond c d s).configured = s.configured := rfl
@[simp] theorem respond_sdaPin (c : Code) (d : Data) (s : State) : (respond c d s).sdaPin = s.sdaPin := rfl
@[simp] theorem respond_sclPin (c : Code) (d : Data) (s : State) : (respond c d s).sclPin = s.sclPin := rfl
@[simp] theorem respond_tier (c : Code) (d : Data) (s : State) : (respond c d s).tier = s.tier := rfl
@[simp] theorem respond_sdaDrv (c : Code) (d : Data) (s : State) : (respond c d s).sdaDrv = s.sdaDrv := rfl
@[simp] theorem respond_sclDrv (c : Code) (d : Data) (s : State) : (respond c d s).sclDrv = s.sclDrv := rfl
@[simp] theorem respond_busOpen (c : Code) (d : Data) (s : State) : (respond c d s).busOpen = s.busOpen := rfl
@[simp] theorem respond_ack (c : Code) (d : Data) (s : State) : (respond c d s).ack = s.ack := rfl
@[simp] theorem respond_sr (c : Code) (d : Data) (s : State) : (respond c d s).sr = s.sr := rfl
@[simp] theorem respond_txbuf (c : Code) (d : Data) (s : State) : (respond c d s).txbuf = s.txbuf := rfl
@[simp] theorem respond_rxbuf (c : Code) (d : Data) (s : State) : (respond c d s).rxbuf = s.rxbuf := rfl
@[simp] theorem respond_scanState (c : Code) (d : Data) (s : State) : (respond c d s).scanState = s.scanState := rfl
@[simp] theorem respond_scanAddr (c : Code) (d : Data) (s : State) : (respond c d s).scanAddr = s.scanAddr := rfl
@[simp] theorem respond_badCnt (c : Code) (d : Data) (s : State) : (respond c d s).badCnt = s.badCnt := rfl
@[simp] theorem respond_scanResult (c : Code) (d : Data) (s : State) : (respond c d s).scanResult = s.scanResult := rfl
@[simp] theorem respond_foundAddr (c : Code) (d : Data) (s : State) : (respond c d s).foundAddr = s.foundAddr := rfl
@[simp] theorem respond_foundKind (c : Code) (d : Data) (s : State) : (respond c d s).foundKind = s.foundKind := rfl
@[simp] theorem respond_cmdReady (c : Code) (d : Data) (s : State) : (respond c d s).cmdReady = true := rfl
@[simp] theorem respond_rspValid (c : Code) (d : Data) (s : State) : (respond c d s).rspValid = true := rfl
@[simp] theorem respond_rspWord (c : Code) (d : Data) (s : State) : (respond c d s).rspWord = responseWord c d := rfl
@[simp] theorem respond_inputs (c : Code) (d : Data) (s : State) : (respond c d s).inputs = s.inputs := rfl
@[simp] theorem respond_trace (c : Code) (d : Data) (s : State) : (respond c d s).trace = s.trace := rfl
@[simp] theorem respond_calls (c : Code) (d : Data) (s : State) : (respond c d s).calls = s.calls := rfl
@[simp] theorem respond_bus (c : Code) (d : Data) (s : State) : (respond c d s).bus = s.bus := rfl
@[simp] theorem respond_drawCtr (c : Code) (d : Data) (s : State) : (respond c d s).drawCtr = s.drawCtr := rfl
@[simp] theorem respond_epoch (c : Code) (d : Data) (s : State) : (respond c d s).epoch = s.epoch := rfl

@[simp] theorem refuse_params (c : Code) (s : State) : (refuse c s).params = s.params := rfl
@[simp] theorem refuse_configured (c : Code) (s : State) : (refuse c s).configured = s.configured := rfl
@[simp] theorem refuse_sdaPin (c : Code) (s : State) : (refuse c s).sdaPin = s.sdaPin := rfl
@[simp] theorem refuse_sclPin (c : Code) (s : State) : (refuse c s).sclPin = s.sclPin := rfl
@[simp] theorem refuse_tier (c : Code) (s : State) : (refuse c s).tier = s.tier := rfl
@[simp] theorem refuse_sdaDrv (c : Code) (s : State) : (refuse c s).sdaDrv = s.sdaDrv := rfl
@[simp] theorem refuse_sclDrv (c : Code) (s : State) : (refuse c s).sclDrv = s.sclDrv := rfl
@[simp] theorem refuse_busOpen (c : Code) (s : State) : (refuse c s).busOpen = s.busOpen := rfl
@[simp] theorem refuse_ack (c : Code) (s : State) : (refuse c s).ack = s.ack := rfl
@[simp] theorem refuse_sr (c : Code) (s : State) : (refuse c s).sr = s.sr := rfl
@[simp] theorem refuse_txbuf (c : Code) (s : State) : (refuse c s).txbuf = s.txbuf := rfl
@[simp] theorem refuse_rxbuf (c : Code) (s : State) : (refuse c s).rxbuf = s.rxbuf := rfl
@[simp] theorem refuse_scanState (c : Code) (s : State) : (refuse c s).scanState = s.scanState := rfl
@[simp] theorem refuse_scanAddr (c : Code) (s : State) : (refuse c s).scanAddr = s.scanAddr := rfl
@[simp] theorem refuse_badCnt (c : Code) (s : State) : (refuse c s).badCnt = s.badCnt := rfl
@[simp] theorem refuse_scanResult (c : Code) (s : State) : (refuse c s).scanResult = s.scanResult := rfl
@[simp] theorem refuse_foundAddr (c : Code) (s : State) : (refuse c s).foundAddr = s.foundAddr := rfl
@[simp] theorem refuse_foundKind (c : Code) (s : State) : (refuse c s).foundKind = s.foundKind := rfl
@[simp] theorem refuse_cmdReady (c : Code) (s : State) : (refuse c s).cmdReady = true := rfl
@[simp] theorem refuse_rspValid (c : Code) (s : State) : (refuse c s).rspValid = true := rfl
@[simp] theorem refuse_rspWord (c : Code) (s : State) : (refuse c s).rspWord = responseWord c 0#24 := rfl
@[simp] theorem refuse_inputs (c : Code) (s : State) : (refuse c s).inputs = s.inputs := rfl
@[simp] theorem refuse_trace (c : Code) (s : State) : (refuse c s).trace = s.trace := rfl
@[simp] theorem refuse_calls (c : Code) (s : State) : (refuse c s).calls = s.calls := rfl
@[simp] theorem refuse_bus (c : Code) (s : State) : (refuse c s).bus = s.bus := rfl
@[simp] theorem refuse_drawCtr (c : Code) (s : State) : (refuse c s).drawCtr = s.drawCtr := rfl
@[simp] theorem refuse_epoch (c : Code) (s : State) : (refuse c s).epoch = s.epoch := rfl

@[simp] theorem accept_params (r : List Input) (s : State) : (accept r s).params = s.params := rfl
@[simp] theorem accept_configured (r : List Input) (s : State) : (accept r s).configured = s.configured := rfl
@[simp] theorem accept_sdaPin (r : List Input) (s : State) : (accept r s).sdaPin = s.sdaPin := rfl
@[simp] theorem accept_sclPin (r : List Input) (s : State) : (accept r s).sclPin = s.sclPin := rfl
@[simp] theorem accept_tier (r : List Input) (s : State) : (accept r s).tier = s.tier := rfl
@[simp] theorem accept_sdaDrv (r : List Input) (s : State) : (accept r s).sdaDrv = s.sdaDrv := rfl
@[simp] theorem accept_sclDrv (r : List Input) (s : State) : (accept r s).sclDrv = s.sclDrv := rfl
@[simp] theorem accept_busOpen (r : List Input) (s : State) : (accept r s).busOpen = s.busOpen := rfl
@[simp] theorem accept_ack (r : List Input) (s : State) : (accept r s).ack = s.ack := rfl
@[simp] theorem accept_sr (r : List Input) (s : State) : (accept r s).sr = s.sr := rfl
@[simp] theorem accept_txbuf (r : List Input) (s : State) : (accept r s).txbuf = s.txbuf := rfl
@[simp] theorem accept_rxbuf (r : List Input) (s : State) : (accept r s).rxbuf = s.rxbuf := rfl
@[simp] theorem accept_scanState (r : List Input) (s : State) : (accept r s).scanState = s.scanState := rfl
@[simp] theorem accept_scanAddr (r : List Input) (s : State) : (accept r s).scanAddr = s.scanAddr := rfl
@[simp] theorem accept_badCnt (r : List Input) (s : State) : (accept r s).badCnt = s.badCnt := rfl
@[simp] theorem accept_scanResult (r : List Input) (s : State) : (accept r s).scanResult = s.scanResult := rfl
@[simp] theorem accept_foundAddr (r : List Input) (s : State) : (accept r s).foundAddr = s.foundAddr := rfl
@[simp] theorem accept_foundKind (r : List Input) (s : State) : (accept r s).foundKind = s.foundKind := rfl
@[simp] theorem accept_cmdReady (r : List Input) (s : State) : (accept r s).cmdReady = false := rfl
@[simp] theorem accept_rspValid (r : List Input) (s : State) : (accept r s).rspValid = false := rfl
@[simp] theorem accept_rspWord (r : List Input) (s : State) : (accept r s).rspWord = s.rspWord := rfl
@[simp] theorem accept_inputs (r : List Input) (s : State) : (accept r s).inputs = r := rfl
@[simp] theorem accept_trace (r : List Input) (s : State) : (accept r s).trace = s.trace := rfl
@[simp] theorem accept_calls (r : List Input) (s : State) : (accept r s).calls = s.calls := rfl
@[simp] theorem accept_bus (r : List Input) (s : State) : (accept r s).bus = s.bus := rfl
@[simp] theorem accept_drawCtr (r : List Input) (s : State) : (accept r s).drawCtr = s.drawCtr := rfl
@[simp] theorem accept_epoch (r : List Input) (s : State) : (accept r s).epoch = s.epoch := rfl

@[simp] theorem idle_params (s : State) : (idle s).params = s.params := rfl
@[simp] theorem idle_configured (s : State) : (idle s).configured = s.configured := rfl
@[simp] theorem idle_sdaPin (s : State) : (idle s).sdaPin = s.sdaPin := rfl
@[simp] theorem idle_sclPin (s : State) : (idle s).sclPin = s.sclPin := rfl
@[simp] theorem idle_tier (s : State) : (idle s).tier = s.tier := rfl
@[simp] theorem idle_sdaDrv (s : State) : (idle s).sdaDrv = s.sdaDrv := rfl
@[simp] theorem idle_sclDrv (s : State) : (idle s).sclDrv = s.sclDrv := rfl
@[simp] theorem idle_busOpen (s : State) : (idle s).busOpen = s.busOpen := rfl
@[simp] theorem idle_ack (s : State) : (idle s).ack = s.ack := rfl
@[simp] theorem idle_sr (s : State) : (idle s).sr = s.sr := rfl
@[simp] theorem idle_txbuf (s : State) : (idle s).txbuf = s.txbuf := rfl
@[simp] theorem idle_rxbuf (s : State) : (idle s).rxbuf = s.rxbuf := rfl
@[simp] theorem idle_scanState (s : State) : (idle s).scanState = s.scanState := rfl
@[simp] theorem idle_scanAddr (s : State) : (idle s).scanAddr = s.scanAddr := rfl
@[simp] theorem idle_badCnt (s : State) : (idle s).badCnt = s.badCnt := rfl
@[simp] theorem idle_scanResult (s : State) : (idle s).scanResult = s.scanResult := rfl
@[simp] theorem idle_foundAddr (s : State) : (idle s).foundAddr = s.foundAddr := rfl
@[simp] theorem idle_foundKind (s : State) : (idle s).foundKind = s.foundKind := rfl
@[simp] theorem idle_cmdReady (s : State) : (idle s).cmdReady = s.cmdReady := rfl
@[simp] theorem idle_rspValid (s : State) : (idle s).rspValid = false := rfl
@[simp] theorem idle_rspWord (s : State) : (idle s).rspWord = s.rspWord := rfl
@[simp] theorem idle_inputs (s : State) : (idle s).inputs = s.inputs := rfl
@[simp] theorem idle_trace (s : State) : (idle s).trace = s.trace := rfl
@[simp] theorem idle_calls (s : State) : (idle s).calls = s.calls := rfl
@[simp] theorem idle_bus (s : State) : (idle s).bus = s.bus := rfl
@[simp] theorem idle_drawCtr (s : State) : (idle s).drawCtr = s.drawCtr := rfl
@[simp] theorem idle_epoch (s : State) : (idle s).epoch = s.epoch := rfl

@[simp] theorem scanEntry_params (s : State) : (scanEntry s).params = s.params := rfl
@[simp] theorem scanEntry_configured (s : State) : (scanEntry s).configured = s.configured := rfl
@[simp] theorem scanEntry_sdaPin (s : State) : (scanEntry s).sdaPin = s.sdaPin := rfl
@[simp] theorem scanEntry_sclPin (s : State) : (scanEntry s).sclPin = s.sclPin := rfl
@[simp] theorem scanEntry_tier (s : State) : (scanEntry s).tier = s.tier := rfl
@[simp] theorem scanEntry_sdaDrv (s : State) : (scanEntry s).sdaDrv = s.sdaDrv := rfl
@[simp] theorem scanEntry_sclDrv (s : State) : (scanEntry s).sclDrv = s.sclDrv := rfl
@[simp] theorem scanEntry_busOpen (s : State) : (scanEntry s).busOpen = s.busOpen := rfl
@[simp] theorem scanEntry_ack (s : State) : (scanEntry s).ack = s.ack := rfl
@[simp] theorem scanEntry_sr (s : State) : (scanEntry s).sr = s.sr := rfl
@[simp] theorem scanEntry_txbuf (s : State) : (scanEntry s).txbuf = s.txbuf := rfl
@[simp] theorem scanEntry_rxbuf (s : State) : (scanEntry s).rxbuf = s.rxbuf := rfl
@[simp] theorem scanEntry_scanState (s : State) : (scanEntry s).scanState = .scanning := rfl
@[simp] theorem scanEntry_scanAddr (s : State) : (scanEntry s).scanAddr = Config.scanFirst.setWidth 8 := rfl
@[simp] theorem scanEntry_badCnt (s : State) : (scanEntry s).badCnt = 0#4 := rfl
@[simp] theorem scanEntry_scanResult (s : State) : (scanEntry s).scanResult = .none := rfl
@[simp] theorem scanEntry_foundAddr (s : State) : (scanEntry s).foundAddr = 0#7 := rfl
@[simp] theorem scanEntry_foundKind (s : State) : (scanEntry s).foundKind = .unknown := rfl
@[simp] theorem scanEntry_cmdReady (s : State) : (scanEntry s).cmdReady = s.cmdReady := rfl
@[simp] theorem scanEntry_rspValid (s : State) : (scanEntry s).rspValid = s.rspValid := rfl
@[simp] theorem scanEntry_rspWord (s : State) : (scanEntry s).rspWord = s.rspWord := rfl
@[simp] theorem scanEntry_inputs (s : State) : (scanEntry s).inputs = s.inputs := rfl
@[simp] theorem scanEntry_trace (s : State) : (scanEntry s).trace = s.trace := rfl
@[simp] theorem scanEntry_calls (s : State) : (scanEntry s).calls = s.calls := rfl
@[simp] theorem scanEntry_bus (s : State) : (scanEntry s).bus = s.bus := rfl
@[simp] theorem scanEntry_drawCtr (s : State) : (scanEntry s).drawCtr = s.drawCtr := rfl
@[simp] theorem scanEntry_epoch (s : State) : (scanEntry s).epoch = s.epoch := rfl

@[simp] theorem writeSr_params (b : Byte) (s : State) : (writeSr b s).params = s.params := rfl
@[simp] theorem writeSr_configured (b : Byte) (s : State) : (writeSr b s).configured = s.configured := rfl
@[simp] theorem writeSr_sdaPin (b : Byte) (s : State) : (writeSr b s).sdaPin = s.sdaPin := rfl
@[simp] theorem writeSr_sclPin (b : Byte) (s : State) : (writeSr b s).sclPin = s.sclPin := rfl
@[simp] theorem writeSr_tier (b : Byte) (s : State) : (writeSr b s).tier = s.tier := rfl
@[simp] theorem writeSr_sdaDrv (b : Byte) (s : State) : (writeSr b s).sdaDrv = s.sdaDrv := rfl
@[simp] theorem writeSr_sclDrv (b : Byte) (s : State) : (writeSr b s).sclDrv = s.sclDrv := rfl
@[simp] theorem writeSr_busOpen (b : Byte) (s : State) : (writeSr b s).busOpen = s.busOpen := rfl
@[simp] theorem writeSr_ack (b : Byte) (s : State) : (writeSr b s).ack = s.ack := rfl
@[simp] theorem writeSr_sr (b : Byte) (s : State) : (writeSr b s).sr = b := rfl
@[simp] theorem writeSr_txbuf (b : Byte) (s : State) : (writeSr b s).txbuf = s.txbuf := rfl
@[simp] theorem writeSr_rxbuf (b : Byte) (s : State) : (writeSr b s).rxbuf = s.rxbuf := rfl
@[simp] theorem writeSr_scanState (b : Byte) (s : State) : (writeSr b s).scanState = s.scanState := rfl
@[simp] theorem writeSr_scanAddr (b : Byte) (s : State) : (writeSr b s).scanAddr = s.scanAddr := rfl
@[simp] theorem writeSr_badCnt (b : Byte) (s : State) : (writeSr b s).badCnt = s.badCnt := rfl
@[simp] theorem writeSr_scanResult (b : Byte) (s : State) : (writeSr b s).scanResult = s.scanResult := rfl
@[simp] theorem writeSr_foundAddr (b : Byte) (s : State) : (writeSr b s).foundAddr = s.foundAddr := rfl
@[simp] theorem writeSr_foundKind (b : Byte) (s : State) : (writeSr b s).foundKind = s.foundKind := rfl
@[simp] theorem writeSr_cmdReady (b : Byte) (s : State) : (writeSr b s).cmdReady = s.cmdReady := rfl
@[simp] theorem writeSr_rspValid (b : Byte) (s : State) : (writeSr b s).rspValid = s.rspValid := rfl
@[simp] theorem writeSr_rspWord (b : Byte) (s : State) : (writeSr b s).rspWord = s.rspWord := rfl
@[simp] theorem writeSr_inputs (b : Byte) (s : State) : (writeSr b s).inputs = s.inputs := rfl
@[simp] theorem writeSr_trace (b : Byte) (s : State) : (writeSr b s).trace = s.trace := rfl
@[simp] theorem writeSr_calls (b : Byte) (s : State) : (writeSr b s).calls = s.calls := rfl
@[simp] theorem writeSr_bus (b : Byte) (s : State) : (writeSr b s).bus = s.bus := rfl
@[simp] theorem writeSr_drawCtr (b : Byte) (s : State) : (writeSr b s).drawCtr = s.drawCtr := rfl
@[simp] theorem writeSr_epoch (b : Byte) (s : State) : (writeSr b s).epoch = s.epoch := rfl

@[simp] theorem writeAck_params (b : Bool) (s : State) : (writeAck b s).params = s.params := rfl
@[simp] theorem writeAck_configured (b : Bool) (s : State) : (writeAck b s).configured = s.configured := rfl
@[simp] theorem writeAck_sdaPin (b : Bool) (s : State) : (writeAck b s).sdaPin = s.sdaPin := rfl
@[simp] theorem writeAck_sclPin (b : Bool) (s : State) : (writeAck b s).sclPin = s.sclPin := rfl
@[simp] theorem writeAck_tier (b : Bool) (s : State) : (writeAck b s).tier = s.tier := rfl
@[simp] theorem writeAck_sdaDrv (b : Bool) (s : State) : (writeAck b s).sdaDrv = s.sdaDrv := rfl
@[simp] theorem writeAck_sclDrv (b : Bool) (s : State) : (writeAck b s).sclDrv = s.sclDrv := rfl
@[simp] theorem writeAck_busOpen (b : Bool) (s : State) : (writeAck b s).busOpen = s.busOpen := rfl
@[simp] theorem writeAck_ack (b : Bool) (s : State) : (writeAck b s).ack = b := rfl
@[simp] theorem writeAck_sr (b : Bool) (s : State) : (writeAck b s).sr = s.sr := rfl
@[simp] theorem writeAck_txbuf (b : Bool) (s : State) : (writeAck b s).txbuf = s.txbuf := rfl
@[simp] theorem writeAck_rxbuf (b : Bool) (s : State) : (writeAck b s).rxbuf = s.rxbuf := rfl
@[simp] theorem writeAck_scanState (b : Bool) (s : State) : (writeAck b s).scanState = s.scanState := rfl
@[simp] theorem writeAck_scanAddr (b : Bool) (s : State) : (writeAck b s).scanAddr = s.scanAddr := rfl
@[simp] theorem writeAck_badCnt (b : Bool) (s : State) : (writeAck b s).badCnt = s.badCnt := rfl
@[simp] theorem writeAck_scanResult (b : Bool) (s : State) : (writeAck b s).scanResult = s.scanResult := rfl
@[simp] theorem writeAck_foundAddr (b : Bool) (s : State) : (writeAck b s).foundAddr = s.foundAddr := rfl
@[simp] theorem writeAck_foundKind (b : Bool) (s : State) : (writeAck b s).foundKind = s.foundKind := rfl
@[simp] theorem writeAck_cmdReady (b : Bool) (s : State) : (writeAck b s).cmdReady = s.cmdReady := rfl
@[simp] theorem writeAck_rspValid (b : Bool) (s : State) : (writeAck b s).rspValid = s.rspValid := rfl
@[simp] theorem writeAck_rspWord (b : Bool) (s : State) : (writeAck b s).rspWord = s.rspWord := rfl
@[simp] theorem writeAck_inputs (b : Bool) (s : State) : (writeAck b s).inputs = s.inputs := rfl
@[simp] theorem writeAck_trace (b : Bool) (s : State) : (writeAck b s).trace = s.trace := rfl
@[simp] theorem writeAck_calls (b : Bool) (s : State) : (writeAck b s).calls = s.calls := rfl
@[simp] theorem writeAck_bus (b : Bool) (s : State) : (writeAck b s).bus = s.bus := rfl
@[simp] theorem writeAck_drawCtr (b : Bool) (s : State) : (writeAck b s).drawCtr = s.drawCtr := rfl
@[simp] theorem writeAck_epoch (b : Bool) (s : State) : (writeAck b s).epoch = s.epoch := rfl

@[simp] theorem writeOpen_params (b : Bool) (s : State) : (writeOpen b s).params = s.params := rfl
@[simp] theorem writeOpen_configured (b : Bool) (s : State) : (writeOpen b s).configured = s.configured := rfl
@[simp] theorem writeOpen_sdaPin (b : Bool) (s : State) : (writeOpen b s).sdaPin = s.sdaPin := rfl
@[simp] theorem writeOpen_sclPin (b : Bool) (s : State) : (writeOpen b s).sclPin = s.sclPin := rfl
@[simp] theorem writeOpen_tier (b : Bool) (s : State) : (writeOpen b s).tier = s.tier := rfl
@[simp] theorem writeOpen_sdaDrv (b : Bool) (s : State) : (writeOpen b s).sdaDrv = s.sdaDrv := rfl
@[simp] theorem writeOpen_sclDrv (b : Bool) (s : State) : (writeOpen b s).sclDrv = s.sclDrv := rfl
@[simp] theorem writeOpen_busOpen (b : Bool) (s : State) : (writeOpen b s).busOpen = b := rfl
@[simp] theorem writeOpen_ack (b : Bool) (s : State) : (writeOpen b s).ack = s.ack := rfl
@[simp] theorem writeOpen_sr (b : Bool) (s : State) : (writeOpen b s).sr = s.sr := rfl
@[simp] theorem writeOpen_txbuf (b : Bool) (s : State) : (writeOpen b s).txbuf = s.txbuf := rfl
@[simp] theorem writeOpen_rxbuf (b : Bool) (s : State) : (writeOpen b s).rxbuf = s.rxbuf := rfl
@[simp] theorem writeOpen_scanState (b : Bool) (s : State) : (writeOpen b s).scanState = s.scanState := rfl
@[simp] theorem writeOpen_scanAddr (b : Bool) (s : State) : (writeOpen b s).scanAddr = s.scanAddr := rfl
@[simp] theorem writeOpen_badCnt (b : Bool) (s : State) : (writeOpen b s).badCnt = s.badCnt := rfl
@[simp] theorem writeOpen_scanResult (b : Bool) (s : State) : (writeOpen b s).scanResult = s.scanResult := rfl
@[simp] theorem writeOpen_foundAddr (b : Bool) (s : State) : (writeOpen b s).foundAddr = s.foundAddr := rfl
@[simp] theorem writeOpen_foundKind (b : Bool) (s : State) : (writeOpen b s).foundKind = s.foundKind := rfl
@[simp] theorem writeOpen_cmdReady (b : Bool) (s : State) : (writeOpen b s).cmdReady = s.cmdReady := rfl
@[simp] theorem writeOpen_rspValid (b : Bool) (s : State) : (writeOpen b s).rspValid = s.rspValid := rfl
@[simp] theorem writeOpen_rspWord (b : Bool) (s : State) : (writeOpen b s).rspWord = s.rspWord := rfl
@[simp] theorem writeOpen_inputs (b : Bool) (s : State) : (writeOpen b s).inputs = s.inputs := rfl
@[simp] theorem writeOpen_trace (b : Bool) (s : State) : (writeOpen b s).trace = s.trace := rfl
@[simp] theorem writeOpen_calls (b : Bool) (s : State) : (writeOpen b s).calls = s.calls := rfl
@[simp] theorem writeOpen_bus (b : Bool) (s : State) : (writeOpen b s).bus = s.bus := rfl
@[simp] theorem writeOpen_drawCtr (b : Bool) (s : State) : (writeOpen b s).drawCtr = s.drawCtr := rfl
@[simp] theorem writeOpen_epoch (b : Bool) (s : State) : (writeOpen b s).epoch = s.epoch := rfl

end Sys2Proof.Machine
end

