-- ==== Sys2Proof/Laws/Runs.lean ====
section
/-! SUPPORT. What a procedure of the engine can do, said once: it is a run of micro-operations and of writes to `sr`,
`ack` and `bus_open` (40_microops.md, 10_state.md R24 to R27). Every frame and every invariant of the engine follows
by one induction on such a run. -/

namespace Sys2Proof.Machine

/-- `t` is reached from `s` by micro-operations and writes to the engine's flags and shift register. -/
inductive Runs : State → State → Prop where
  | refl (s : State) : Runs s s
  | sda0 {s t : State} : Runs s t → Runs s (sda0 t)
  | sda1 {s t : State} : Runs s t → Runs s (sda1 t)
  | scl0 {s t : State} : Runs s t → Runs s (scl0 t)
  | scl1 {s t : State} : Runs s t → Runs s (scl1 t)
  | dly {s t : State} : Runs s t → Runs s (dly t)
  | rd {s t : State} : Runs s t → Runs s (rd t).2
  | setSr {s t : State} (b : Byte) : Runs s t → Runs s (writeSr b t)
  | setAck {s t : State} (b : Bool) : Runs s t → Runs s (writeAck b t)
  | setOpen {s t : State} (b : Bool) : Runs s t → Runs s (writeOpen b t)

theorem Runs.trans {s t u : State} (h : Runs s t) (h' : Runs t u) : Runs s u := by
  induction h' with
  | refl => exact h
  | sda0 _ ih => exact ih.sda0
  | sda1 _ ih => exact ih.sda1
  | scl0 _ ih => exact ih.scl0
  | scl1 _ ih => exact ih.scl1
  | dly _ ih => exact ih.dly
  | rd _ ih => exact ih.rd
  | setSr b _ ih => exact ih.setSr b
  | setAck b _ ih => exact ih.setAck b
  | setOpen b _ ih => exact ih.setOpen b

/-! ### The procedures are such runs -/

theorem runs_putSda (b : Bool) (s : State) : Runs s (putSda b s) := by
  cases b
  · exact (Runs.refl s).sda0
  · exact (Runs.refl s).sda1

theorem runs_pulse (s : State) : Runs s (pulse s) := (Runs.refl s).scl1.dly.scl0.dly

theorem runs_samplePulse (s : State) : Runs s (samplePulse s).2 := (Runs.refl s).scl1.dly.rd.scl0.dly

theorem runs_sendBits (bs : List Bool) (s : State) : Runs s (sendBits bs s) := by
  induction bs generalizing s with
  | nil => exact .refl s
  | cons b bs ih => exact ((runs_putSda b s).trans (runs_pulse _)).trans (ih _)

theorem runs_recvBits (n : Nat) (s : State) : Runs s (recvBits n s) := by
  induction n generalizing s with
  | zero => exact .refl s
  | succ n ih => exact ((runs_samplePulse s).setSr _).trans (ih _)

theorem runs_doWriteByte (b : Byte) (s : State) : Runs s (doWriteByte b s).2 :=
  (((((Runs.refl s).setSr b).trans (runs_sendBits _ _)).sda1.trans (runs_samplePulse _)).sda0).setAck _

theorem runs_doReadByte (last : Bool) (s : State) : Runs s (doReadByte last s).2 :=
  ((((((Runs.refl s).sda1.setSr 0x00#8).trans (runs_recvBits 8 _)).trans (runs_putSda last _)).trans
    (runs_pulse _))).sda0

theorem runs_doStart (a7 : Addr) (rw : Dir) (s : State) : Runs s (doStart a7 rw s).2 :=
  ((Runs.refl s).setOpen true).sda0.dly.scl0.dly.trans (runs_doWriteByte _ _)

theorem runs_doStop (s : State) : Runs s (doStop s) := ((Runs.refl s).sda0.dly.scl1.dly.sda1).setOpen false

theorem runs_sendWhileAcked (ok : Bool) (bytes : List Byte) (s : State) :
    Runs s (sendWhileAcked ok bytes s).2 := by
  induction bytes generalizing ok s with
  | nil => cases ok <;> exact .refl s
  | cons b bytes ih =>
    cases ok
    · exact .refl s
    · exact (runs_doWriteByte b s).trans (ih _ _)

theorem runs_readBytes (n : Nat) (s : State) : Runs s (readBytes n s).2 := by
  induction n generalizing s with
  | zero => exact .refl s
  | succ n ih => exact (runs_doReadByte _ s).trans (ih _)

theorem runs_doWriteN (a7 : Addr) (bytes : List Byte) (s : State) : Runs s (doWriteN a7 bytes s).2 :=
  ((runs_doStart a7 .write s).trans (runs_sendWhileAcked _ _ _)).trans (runs_doStop _)

theorem runs_doReadN (a7 : Addr) (n : Nat) (s : State) : Runs s (doReadN a7 n s).2 := by
  unfold doReadN
  dsimp only
  split
  · exact ((runs_doStart a7 .read s).trans (runs_readBytes _ _)).trans (runs_doStop _)
  · exact (runs_doStart a7 .read s).trans (runs_doStop _)

theorem runs_doProbe (a7 : Addr) (s : State) : Runs s (doProbe a7 s).2 :=
  (runs_doStart a7 .write s).trans (runs_doStop _)

theorem runs_doReadReg (a7 : Addr) (reg : Byte) (n : Nat) (s : State) : Runs s (doReadReg a7 reg n s).2 := by
  unfold doReadReg
  dsimp only
  split
  · exact (runs_doWriteN a7 [reg] s).trans (runs_doReadN a7 n _)
  · exact runs_doWriteN a7 [reg] s

theorem readAndTest_state (a7 : Addr) (reg : Byte) (test : Byte → Bool) (hit : Kind) (s : State) :
    (readAndTest a7 reg test hit s).2 = (doReadReg a7 reg 1 s).2 := by
  unfold readAndTest
  dsimp only
  split <;> rfl

theorem runs_readAndTest (a7 : Addr) (reg : Byte) (test : Byte → Bool) (hit : Kind) (s : State) :
    Runs s (readAndTest a7 reg test hit s).2 := by
  rw [readAndTest_state]
  exact runs_doReadReg a7 reg 1 s

theorem runs_writeAndEcho (a7 : Addr) (reg val : Byte) (s : State) : Runs s (writeAndEcho a7 reg val s).2 := by
  unfold writeAndEcho
  dsimp only
  split
  · exact (runs_doWriteN a7 [reg, val] s).trans (runs_readAndTest _ _ _ _ _)
  · exact runs_doWriteN a7 [reg, val] s

theorem runs_doIdentify (a7 : Addr) (s : State) : Runs s (doIdentify a7 s).2 := by
  unfold doIdentify
  split
  · exact runs_readAndTest _ _ _ _ _
  · split
    · exact .refl s
    · split
      · exact runs_readAndTest _ _ _ _ _
      · split
        · exact runs_writeAndEcho _ _ _ _
        · exact runs_readAndTest _ _ _ _ _

/-! ### What follows for every run -/

/-- A run touches neither the world, the handle, the buffers, nor the scanner and the response port. -/
def outsideEngine (s : State) :=
  (s.params, s.inputs, s.epoch, s.configured, s.sdaPin, s.sclPin, s.tier, s.txbuf, s.rxbuf,
    (s.scanState, s.scanAddr, s.badCnt, s.scanResult, s.foundAddr, s.foundKind),
    (s.cmdReady, s.rspValid, s.rspWord))

theorem Runs.outside {s t : State} (h : Runs s t) : outsideEngine t = outsideEngine s := by
  induction h with
  | refl => rfl
  | sda0 _ ih | sda1 _ ih | scl0 _ ih | scl1 _ ih | dly _ ih | rd _ ih => exact ih
  | setSr _ _ ih | setAck _ _ ih | setOpen _ _ ih => exact ih

theorem Runs.engineOnly {s t : State} (h : Runs s t) : Safety.EngineOnly s t := by
  have e := h.outside
  simp only [outsideEngine, Prod.mk.injEq] at e
  obtain ⟨h1, h2, h3, h4, h5, h6, h7, h8, h9, ⟨h10, h11, h12, h13, h14, h15⟩, -⟩ := e
  exact ⟨⟨h1, h2, h3⟩, ⟨h4, h5, h6, h7⟩, ⟨h8, h9⟩, ⟨h10, h11, h12, h13, h14, h15⟩⟩

/-- The response port is not touched before the command ends. -/
theorem Runs.port {s t : State} (h : Runs s t) :
    t.cmdReady = s.cmdReady ∧ t.rspValid = s.rspValid ∧ t.rspWord = s.rspWord := by
  have e := h.outside
  simp only [outsideEngine, Prod.mk.injEq] at e
  exact ⟨e.2.2.2.2.2.2.2.2.2.2.1, e.2.2.2.2.2.2.2.2.2.2.2.1, e.2.2.2.2.2.2.2.2.2.2.2.2⟩

/-- A run only appends to the trace. -/
theorem Runs.trace_extends {s t : State} (h : Runs s t) : ∃ es, t.trace = s.trace ++ es := by
  induction h with
  | refl => exact ⟨[], by simp⟩
  | sda0 _ ih | sda1 _ ih | scl0 _ ih | scl1 _ ih | dly _ ih | rd _ ih =>
    obtain ⟨es, h⟩ := ih
    exact ⟨es ++ _, by rw [← List.append_assoc, ← h]; rfl⟩
  | setSr _ _ ih | setAck _ _ ih | setOpen _ _ ih => exact ih

/-- A run only makes calls that are allowed (60_exceptions.md R257, R258). -/
theorem Runs.calls_allowed {s t : State} (h : Runs s t) :
    ∃ cs, t.calls = s.calls ++ cs ∧ ∀ c ∈ cs, Safety.AllowedCall s c := by
  induction h with
  | refl => exact ⟨[], by simp, by simp⟩
  | sda0 r ih | sda1 r ih | scl0 r ih | scl1 r ih | rd r ih =>
    obtain ⟨cs, h, a⟩ := ih
    have e := r.engineOnly
    refine ⟨cs ++ _, by simp [h]; rfl, ?_⟩
    simp [or_imp, forall_and, Safety.AllowedCall, e.handle.sdaPin, e.handle.sclPin]
    exact a
  | dly r ih =>
    obtain ⟨cs, h, a⟩ := ih
    have e := r.engineOnly
    refine ⟨cs ++ _, by simp [h]; rfl, ?_⟩
    simp only [List.mem_append, List.mem_singleton, or_imp, forall_and, forall_eq, Safety.AllowedCall,
      e.world.params, e.handle.tier]
    refine ⟨a, ?_⟩
    cases Sys2Proof.Machine.State.tier _ <;> rfl
  | setSr _ _ ih | setAck _ _ ih | setOpen _ _ ih => exact ih

/-- What the movements of the pins and the environment's own clock keep, a run keeps. -/
theorem Runs.bus_keeps {s t : State} (P : Bus → Prop) (hpin : ∀ r p o b, P b → P (Bus.movePin r p o b))
    (hconf : ∀ b, P b → P (Bus.confuse b)) (htick : ∀ o b, P b → P (Bus.tick o b))
    (hanswer : ∀ o b, P b → P (Bus.answer o b).2.1) (h : Runs s t) : P s.bus → P t.bus := by
  intro hs
  have wire : ∀ {u : State} (pin : Byte) (r : Bool), P u.bus → P (onPin pin r u) := by
    intro u pin r hu
    unfold onPin
    dsimp only
    split
    · split
      · exact hconf _ (hpin _ _ _ _ (htick _ _ hu))
      · exact hpin _ _ _ _ (htick _ _ hu)
    · exact htick _ _ hu
  induction h with
  | refl => exact hs
  | sda0 _ ih | sda1 _ ih | scl0 _ ih | scl1 _ ih => exact wire _ _ ih
  | dly _ ih => exact htick _ _ ih
  | rd _ ih =>
    simp only [rd_bus, sampleSda]
    split
    · exact hanswer _ _ (htick _ _ ih)
    · exact htick _ _ ih
  | setSr _ _ ih | setAck _ _ ih | setOpen _ _ ih => exact ih

/-- Where the bus hangs does not change. -/
theorem Runs.wiring {s t : State} (h : Runs s t) : t.bus.sdaAt = s.bus.sdaAt ∧ t.bus.sclAt = s.bus.sclAt := by
  refine h.bus_keeps (fun b => b.sdaAt = s.bus.sdaAt ∧ b.sclAt = s.bus.sclAt) ?_ ?_ ?_ ?_ ⟨rfl, rfl⟩
  · exact fun _ _ _ _ h => h
  · exact fun _ h => h
  · intro o b h
    unfold Bus.tick
    split <;> exact h
  · intro o b h
    unfold Bus.answer
    split <;> exact h

/-- Whether the data pin can be read does not change within a command. -/
theorem Runs.readable {s t : State} (h : Runs s t) : readable t = readable s := by
  have e := h.engineOnly
  simp only [Machine.readable, onePin, e.world.params, e.handle.sdaPin, e.handle.sclPin, h.wiring.1]

end Sys2Proof.Machine
end

