-- ==== Sys2Proof/Laws/Bus.lean ====
section
/-! SUPPORT. The responders' register files keep their canonical form (20_memory.md R83), and what the environment's
reactions keep: the script but for the answers taken, the form of the register files. -/

namespace Sys2Proof.Machine

open Safety

/-! ### Memory -/

theorem Memory.wfFrom_mono {lo lo' : Nat} {m : Memory} (h : Memory.wfFrom lo m = true) (hle : lo' ≤ lo) :
    Memory.wfFrom lo' m = true := by
  cases m with
  | nil => rfl
  | cons c m =>
    simp only [Memory.wfFrom, Bool.and_eq_true, decide_eq_true_eq] at h ⊢
    exact ⟨⟨by omega, h.1.2⟩, h.2⟩

theorem Memory.wfFrom_write {lo a : Nat} {m : Memory} {b : Byte} (h : Memory.wfFrom lo m = true) (ha : lo ≤ a) :
    Memory.wfFrom lo (Memory.write m a b) = true := by
  induction m generalizing lo with
  | nil =>
    simp only [Memory.write]
    split
    · rfl
    · simp_all [Memory.wfFrom]
  | cons c m ih =>
    obtain ⟨k, v⟩ := c
    simp only [Memory.wfFrom, Bool.and_eq_true, decide_eq_true_eq] at h
    simp only [Memory.write]
    split
    · split
      · simp [Memory.wfFrom, h]
      · rename_i hlt hb
        simp [Memory.wfFrom, h, ha, hb, Nat.succ_le_of_lt hlt]
    · split
      · split
        · exact Memory.wfFrom_mono h.2 (by omega)
        · rename_i heq hb
          subst heq
          simp [Memory.wfFrom, h, hb]
      · simp only [Memory.wfFrom, Bool.and_eq_true, decide_eq_true_eq]
        exact ⟨h.1, ih h.2 (by omega)⟩

/-- A write keeps the canonical form. -/
theorem Memory.wf_write {m : Memory} (a : Nat) (b : Byte) (h : m.wf = true) : (m.write a b).wf = true :=
  Memory.wfFrom_write h (Nat.zero_le a)

theorem Memory.read_of_lt {lo a : Nat} {m : Memory} (h : Memory.wfFrom lo m = true) (ha : a < lo) :
    m.read a = Memory.unlisted := by
  induction m generalizing lo with
  | nil => rfl
  | cons c m ih =>
    simp only [Memory.wfFrom, Bool.and_eq_true, decide_eq_true_eq] at h
    simp only [Memory.read]
    rw [if_neg (by omega)]
    exact ih h.2 (by omega)

theorem Memory.read_write_from {lo : Nat} {m : Memory} (a a' : Nat) (b : Byte) (h : Memory.wfFrom lo m = true) :
    (m.write a b).read a' = if a' = a then b else m.read a' := by
  induction m generalizing lo with
  | nil =>
    simp only [Memory.write]
    split
    · rename_i hb
      simp [Memory.read, hb]
    · simp only [Memory.read]
      by_cases heq : a' = a
      · simp [heq]
      · simp [heq, Ne.symm heq]
  | cons c m ih =>
    obtain ⟨k, v⟩ := c
    simp only [Memory.wfFrom, Bool.and_eq_true, decide_eq_true_eq] at h
    simp only [Memory.write]
    split
    · rename_i hlt
      split
      · rename_i hb
        split
        · rename_i heq
          subst heq
          simp only [Memory.read, hb]
          rw [if_neg (by omega)]
          exact Memory.read_of_lt h.2 (by omega)
        · rfl
      · simp only [Memory.read]
        by_cases heq : a' = a
        · simp [heq]
        · simp [heq, Ne.symm heq]
    · split
      · rename_i heq
        subst heq
        split
        · rename_i hb
          by_cases heq' : a' = a
          · subst heq'
            simp only [if_true, hb]
            exact Memory.read_of_lt h.2 (by omega)
          · simp [Memory.read, heq', Ne.symm heq']
        · by_cases heq' : a' = a
          · simp [Memory.read, heq']
          · simp [Memory.read, heq', Ne.symm heq']
      · simp only [Memory.read, ih h.2]
        by_cases hk : k = a'
        · subst hk
          rw [if_pos rfl, if_pos rfl, if_neg (by omega)]
        · simp [hk]

/-- A read after a write: the byte written at that register, every other register as before. -/
theorem Memory.read_write {m : Memory} (a a' : Nat) (b : Byte) (h : m.wf = true) :
    (m.write a b).read a' = if a' = a then b else m.read a' :=
  Memory.read_write_from a a' b h

theorem Memory.write_below {m : Memory} {a n : Nat} {b : Byte} (h : m.all (fun c => decide (c.1 < n)) = true)
    (ha : a < n) : (m.write a b).all (fun c => decide (c.1 < n)) = true := by
  induction m with
  | nil => simp only [Memory.write]; split <;> simp [ha]
  | cons c m ih =>
    simp only [List.all_cons, Bool.and_eq_true, decide_eq_true_eq] at h
    simp only [Memory.write]
    split
    · split <;> simp only [List.all_cons, Bool.and_eq_true, decide_eq_true_eq]
      · exact h
      · exact ⟨ha, h⟩
    · split
      · split
        · exact h.2
        · simp only [List.all_cons, Bool.and_eq_true, decide_eq_true_eq]
          exact ⟨ha, h.2⟩
      · simp only [List.all_cons, Bool.and_eq_true, decide_eq_true_eq]
        exact ⟨h.1, ih h.2⟩

/-! ### The pins -/

theorem mem_holdPin {p q : Byte} {held : List Byte} : q ∈ holdPin p held ↔ q = p ∨ q ∈ held := by
  induction held with
  | nil => simp [holdPin]
  | cons a held ih =>
    unfold holdPin
    split
    · simp
    · split
      · rename_i h
        subst h
        simp
      · simp only [List.mem_cons, ih]
        tauto

theorem mem_freePin {p q : Byte} {held : List Byte} : q ∈ freePin p held ↔ q ≠ p ∧ q ∈ held := by
  simp [freePin, and_comm]

/-- A movement of a pin, said once: the pin is held or not, and no other pin moves. -/
theorem mem_movePin {r : Bool} {p q : Byte} {held : List Byte} :
    q ∈ movePin r p held ↔ if q = p then r = false else q ∈ held := by
  cases r <;> by_cases h : q = p <;> simp [movePin, mem_holdPin, mem_freePin, h]

theorem pinsWf_movePin (r : Bool) (p : Byte) {held : List Byte} (h : pinsWf held = true) :
    pinsWf (movePin r p held) = true := by
  induction held with
  | nil => cases r <;> rfl
  | cons a held ih =>
    simp only [pinsWf, Bool.and_eq_true, List.all_eq_true, decide_eq_true_eq] at h
    have ih := ih h.2
    cases r with
    | true =>
      simp only [movePin, if_true, freePin, List.filter_cons] at ih ⊢
      split
      · simp only [pinsWf, Bool.and_eq_true, List.all_eq_true, decide_eq_true_eq, List.mem_filter]
        exact ⟨fun q hq => h.1 q hq.1, ih⟩
      · exact ih
    | false =>
      simp only [movePin, Bool.false_eq_true, if_false, holdPin] at ih ⊢
      split
      · rename_i hlt
        simp only [pinsWf, Bool.and_eq_true, List.all_eq_true, decide_eq_true_eq, List.mem_cons, forall_eq_or_imp]
        exact ⟨⟨hlt, fun q hq => by have := h.1 q hq; bv_omega⟩, h.1, h.2⟩
      · split
        · simp only [pinsWf, Bool.and_eq_true, List.all_eq_true, decide_eq_true_eq]
          exact h
        · rename_i h1 h2
          simp only [pinsWf, Bool.and_eq_true, List.all_eq_true, decide_eq_true_eq]
          refine ⟨fun q hq => ?_, ih⟩
          rcases mem_holdPin.mp hq with rfl | hq
          · bv_omega
          · exact h.1 q hq

/-! ### Responders -/

theorem responder_wf_nextGroup {d : Responder} (h : Safety.Responder.wf d = true) :
    Safety.Responder.wf d.nextGroup = true := by
  simp only [Safety.Responder.wf, Bool.and_eq_true] at h ⊢
  unfold Responder.nextGroup
  cases d.phase with
  | silent => exact h
  | address => dsimp only; split <;> [split; skip] <;> exact h
  | pointer => exact h
  | read => exact h
  | store =>
    dsimp only
    cases d.stores
    · exact h
    · exact ⟨Memory.wf_write _ _ h.1, Memory.write_below h.2 (by have := d.ptr.isLt; omega)⟩

theorem responder_wf_onFall {d : Responder} (h : Safety.Responder.wf d = true) :
    Safety.Responder.wf d.onFall = true := by
  unfold Responder.onFall
  split
  · split
    · exact responder_wf_nextGroup h
    · exact h
  · exact h

theorem responder_wf_onRise {d : Responder} (l : Bool) (h : Safety.Responder.wf d = true) :
    Safety.Responder.wf (d.onRise l) = true := by
  unfold Responder.onRise
  split <;> exact h

theorem responder_wf_sdaEdge {d : Responder} (c x y : Bool) (h : Safety.Responder.wf d = true) :
    Safety.Responder.wf (d.sdaEdge c x y) = true := by
  unfold Responder.sdaEdge
  split <;> exact h

theorem responder_wf_sclEdge {d : Responder} (x y l : Bool) (h : Safety.Responder.wf d = true) :
    Safety.Responder.wf (d.sclEdge x y l) = true := by
  unfold Responder.sclEdge
  split
  · exact responder_wf_onRise l h
  · exact responder_wf_onFall h
  · exact h

/-- What the edges of a step do to a responder keeps its form. -/
theorem responder_wf_edges {d : Responder} (c x y c' l : Bool) (h : Safety.Responder.wf d = true) :
    Safety.Responder.wf ((d.sdaEdge c x y).sclEdge c c' l) = true :=
  responder_wf_sclEdge _ _ _ (responder_wf_sdaEdge _ _ _ h)

theorem busWf_become {b c : Bus} (o : Bool) (hp : pinsWf c.held = true) (h : busWf b = true) :
    busWf (b.become o c) = true := by
  unfold busWf at h ⊢
  rw [Bool.and_eq_true] at h ⊢
  refine ⟨hp, ?_⟩
  have hd := h.2
  unfold Bus.become
  cases hr : b.rest with
  | free => rfl
  | empty => rfl
  | stuck => rfl
  | responders ds =>
    rw [hr] at hd
    simp only [Rest.map, List.all_map, List.all_eq_true, Function.comp_apply] at hd ⊢
    exact fun d h => responder_wf_edges _ _ _ _ _ (hd d h)

theorem busWf_pins {b : Bus} (h : busWf b = true) : pinsWf b.held = true := by
  unfold busWf at h
  exact (Bool.and_eq_true_iff.mp h).1

theorem busWf_movePin (r : Bool) (p : Byte) (o : Bool) (b : Bus) (h : busWf b = true) :
    busWf (b.movePin r p o) = true :=
  busWf_become o (pinsWf_movePin r p (busWf_pins h)) h

theorem busWf_confuse (b : Bus) (h : busWf b = true) : busWf b.confuse = true := by
  have hp := busWf_pins h
  unfold busWf Bus.confuse
  rw [Bool.and_eq_true]
  exact ⟨hp, by cases b.rest <;> rfl⟩

theorem busWf_tick (o : Bool) (b : Bus) (h : busWf b = true) : busWf (b.tick o) = true := by
  unfold Bus.tick
  split
  · exact h
  · exact busWf_become o (busWf_pins h) h

theorem busWf_answer (o : Bool) (b : Bus) (h : busWf b = true) : busWf (b.answer o).2.1 = true := by
  unfold Bus.answer
  split <;> exact h

/-- The canonical forms outlive every run of the engine. -/
theorem Runs.busWf {s t : State} (h : Runs s t) (hs : Safety.busWf s.bus = true) : Safety.busWf t.bus = true :=
  h.bus_keeps (fun b => Safety.busWf b = true) busWf_movePin busWf_confuse busWf_tick busWf_answer hs

/-! ### What the pins and SCL leave of the bus -/

@[simp] theorem movePin_script (r : Bool) (p : Byte) (o : Bool) (b : Bus) : (b.movePin r p o).script = b.script := rfl
@[simp] theorem movePin_held (r : Bool) (p : Byte) (o : Bool) (b : Bus) :
    (b.movePin r p o).held = movePin r p b.held := rfl
@[simp] theorem movePin_sdaAt (r : Bool) (p : Byte) (o : Bool) (b : Bus) : (b.movePin r p o).sdaAt = b.sdaAt := rfl
@[simp] theorem movePin_sclAt (r : Bool) (p : Byte) (o : Bool) (b : Bus) : (b.movePin r p o).sclAt = b.sclAt := rfl
@[simp] theorem confuse_script (b : Bus) : b.confuse.script = b.script := rfl
@[simp] theorem confuse_held (b : Bus) : b.confuse.held = b.held := rfl
@[simp] theorem confuse_sdaAt (b : Bus) : b.confuse.sdaAt = b.sdaAt := rfl
@[simp] theorem confuse_sclAt (b : Bus) : b.confuse.sclAt = b.sclAt := rfl

@[simp] theorem tick_script (o : Bool) (b : Bus) : (b.tick o).script = b.script := by
  unfold Bus.tick
  split <;> rfl

/-- What the bus does on its own leaves the pins. -/
@[simp] theorem tick_held (o : Bool) (b : Bus) : (b.tick o).held = b.held := by
  unfold Bus.tick
  split <;> rfl

@[simp] theorem tick_sdaAt (o : Bool) (b : Bus) : (b.tick o).sdaAt = b.sdaAt := by
  unfold Bus.tick
  split <;> rfl

@[simp] theorem tick_sclAt (o : Bool) (b : Bus) : (b.tick o).sclAt = b.sclAt := by
  unfold Bus.tick
  split <;> rfl

@[simp] theorem answer_sdaAt (o : Bool) (b : Bus) : (b.answer o).2.1.sdaAt = b.sdaAt := by
  unfold Bus.answer
  split <;> rfl

@[simp] theorem answer_sclAt (o : Bool) (b : Bus) : (b.answer o).2.1.sclAt = b.sclAt := by
  unfold Bus.answer
  split <;> rfl

@[simp] theorem answer_held (o : Bool) (b : Bus) : (b.answer o).2.1.held = b.held := by
  unfold Bus.answer
  split <;> rfl

/-- Without a script for SCL nothing happens between the block's own operations. -/
theorem tick_still {o : Bool} {b : Bus} (h : b.sclScript = []) : b.tick o = b := by
  unfold Bus.tick
  rw [h]

/-- Only the wire that hangs on the pin moves. -/
theorem movePin_masterSda (r : Bool) (p : Byte) (o : Bool) (b : Bus) :
    (b.movePin r p o).masterSda = if b.sdaAt = p then r else b.masterSda := by
  unfold Bus.masterSda
  rw [Bool.eq_iff_iff]
  simp only [movePin_held, movePin_sdaAt, Bool.not_eq_true', List.contains_eq_mem, decide_eq_false_iff_not, mem_movePin]
  by_cases h : b.sdaAt = p <;> simp [h]

theorem movePin_masterScl (r : Bool) (p : Byte) (o : Bool) (b : Bus) :
    (b.movePin r p o).masterScl = if b.sclAt = p then r else b.masterScl := by
  unfold Bus.masterScl
  rw [Bool.eq_iff_iff]
  simp only [movePin_held, movePin_sclAt, Bool.not_eq_true', List.contains_eq_mem, decide_eq_false_iff_not, mem_movePin]
  by_cases h : b.sclAt = p <;> simp [h]

/-- What the responders see of it: the edges of SDA and SCL from the levels before to those after. -/
theorem movePin_rest (r : Bool) (p : Byte) (o : Bool) (b : Bus) :
    (b.movePin r p o).rest = b.rest.map fun d =>
      (d.sdaEdge b.scl (b.sda o) ((b.movePin r p o).masterSda && b.rest.envSda o)).sclEdge b.scl
        ((b.movePin r p o).masterScl && b.envScl) (b.sda o) := rfl

/-- What no wire hangs on, no responder sees. -/
theorem movePin_beside {r : Bool} {p : Byte} {o : Bool} {b : Bus} (hs : b.sdaAt ≠ p) (hc : b.sclAt ≠ p) :
    (b.movePin r p o).rest = b.rest := by
  have same : ∀ (c x y l : Bool) (d : Responder), (d.sdaEdge c x x).sclEdge y y l = d := by
    intro c x y l d
    cases c <;> cases x <;> cases y <;> rfl
  rw [movePin_rest, movePin_masterSda, movePin_masterScl, if_neg hs, if_neg hc]
  cases h : b.rest with
  | responders ds => simp only [Rest.map, Bus.sda, Bus.scl, h, same, List.map_id']
  | free => rfl
  | empty => rfl
  | stuck => rfl

/-- An environment without responders. -/
def NoResponders (r : Rest) : Prop := ∀ ds, r ≠ .responders ds

/-- It does not react to an edge. -/
theorem NoResponders.map {r : Rest} (h : NoResponders r) (f : Responder → Responder) : r.map f = r := by
  cases r with
  | responders ds => exact absurd rfl (h ds)
  | free => rfl
  | empty => rfl
  | stuck => rfl

theorem NoResponders.confused {r : Rest} (h : NoResponders r) : r.confused = r := by
  cases r with
  | responders ds => exact absurd rfl (h ds)
  | free => rfl
  | empty => rfl
  | stuck => rfl

theorem tick_rest {o : Bool} {b : Bus} (h : NoResponders b.rest) : (b.tick o).rest = b.rest := by
  unfold Bus.tick
  split
  · rfl
  · exact h.map _

/-- It stays what it is through every run of the engine. -/
theorem Runs.rest_const {s t : State} (h : Runs s t) (r : Rest) (hr : NoResponders r) (hs : s.bus.rest = r) :
    t.bus.rest = r := by
  refine h.bus_keeps (fun b => b.rest = r) ?_ ?_ ?_ ?_ hs
  · rintro x p o b rfl
    exact hr.map _
  · rintro b rfl
    exact hr.confused
  · rintro o b rfl
    exact tick_rest hr
  · rintro o b rfl
    unfold Bus.answer
    split <;> rfl

end Sys2Proof.Machine
end

