-- ==== Sys2Proof/Laws/Engine.lean ====
section
/-! SUPPORT. What each procedure of the engine does to the engine's registers and to the trace, said once: the events
are those of Sys2Proof/Safety.lean, the registers those of 41_engine_primitives.md and 42_engine_transfers.md. -/

namespace Sys2Proof.Safety

open Machine

/-! ### Answers -/

/-- Where nothing is read and the script stands, there are no answers. -/
theorem Answers.nil {s t : State} (hr : Runs s t) (hs : t.bus.script = s.bus.script) : Answers s t [] where
  scripted xs rest hl hsc := by
    have : xs = [] := List.length_eq_zero_iff.mp hl
    subst this
    exact ⟨rfl, by simpa [hs] using hsc.2⟩
  constant v hv := by
    refine ⟨by simp, hr.readable ▸ hv.1, hs ▸ hv.2.1, hr.rest_const _ ?_ hv.2.2⟩
    intro ds
    cases v <;> simp

theorem Answers.append {s t u : State} {ks ks' : List Bool} (h : Answers s t ks) (h' : Answers t u ks')
    (hr : readable t = readable s) : Answers s u (ks ++ ks') where
  scripted xs rest hl hsc := by
    rw [List.length_append] at hl
    have ht : (xs.take ks.length).length = ks.length := by rw [List.length_take]; omega
    obtain ⟨h1, h2⟩ := h.scripted (xs.take ks.length) (xs.drop ks.length ++ rest) ht
      ⟨hsc.1, by rw [hsc.2, ← List.append_assoc, List.take_append_drop]⟩
    obtain ⟨h3, h4⟩ := h'.scripted (xs.drop ks.length) rest (by rw [List.length_drop]; omega)
      ⟨hr ▸ hsc.1, h2⟩
    refine ⟨?_, h4⟩
    rw [h3]
    conv_lhs => rw [h1]
    rw [ht]
    exact List.take_append_drop _ _
  constant v hv := by
    obtain ⟨h1, h2⟩ := h.constant v hv
    obtain ⟨h3, h4⟩ := h'.constant v h2
    exact ⟨by simp only [List.mem_append]; rintro k (hk | hk) <;> [exact h1 k hk; exact h3 k hk], h4⟩

theorem Answers.after {s t u : State} {ks : List Bool} (h : Answers t u ks) (hr : Runs s t)
    (hs : t.bus.script = s.bus.script) : Answers s u ks :=
  (Answers.nil hr hs).append h hr.readable

theorem Answers.before {s t u : State} {ks : List Bool} (h : Answers s t ks) (hr : Runs s t) (hr' : Runs t u)
    (hs : u.bus.script = t.bus.script) : Answers s u ks := by
  simpa using h.append (Answers.nil hr' hs) hr.readable

theorem Did.follow {s t u : State} {x y : Traffic} (h : Did s t x) (h' : Did t u y)
    (hr : readable t = readable s) : Did s u (x.andThen y) where
  trace := by rw [h'.trace, h.trace, List.append_assoc]; rfl
  answers := h.answers.append h'.answers hr
  sr := by rw [h'.sr, h.sr]; cases hy : y.sr <;> simp [Traffic.andThen, hy]
  ack := by rw [h'.ack, h.ack]; cases hy : y.ack <;> simp [Traffic.andThen, hy]

theorem Did.trans {s t u : State} {x y : Traffic} (h : Did s t x) (h' : Did t u y) (hr : Runs s t) :
    Did s u (x.andThen y) :=
  h.follow h' hr.readable

/-- Writes outside the engine and its environment change nothing of what was done. -/
theorem Did.of_engine {s s' t t' : State} {x : Traffic} (h : Did s t x) (hs : SameEngine s s') (ht : SameEngine t t')
    (hr : readable s' = readable s) (hr' : readable t' = readable t) : Did s' t' x where
  trace := by rw [ht.trace, h.trace, hs.trace]
  sr := by rw [ht.sr, h.sr, hs.sr]
  ack := by rw [ht.ack, h.ack, hs.ack]
  answers :=
    { scripted := fun xs rest hl hsc => by
        obtain ⟨h1, h2⟩ := h.answers.scripted xs rest hl ⟨hr ▸ hsc.1, hs.bus ▸ hsc.2⟩
        exact ⟨h1, by rw [ht.bus]; exact h2⟩
      constant := fun v hv => by
        obtain ⟨h1, h2⟩ := h.answers.constant v ⟨hr ▸ hv.1, hs.bus ▸ hv.2⟩
        exact ⟨h1, hr'.trans h2.1, by rw [ht.bus]; exact h2.2⟩ }

theorem Did.nothing (s : State) : Did s s .nothing := ⟨by simp [Traffic.nothing], .nil (.refl s) rfl, rfl, rfl⟩

end Sys2Proof.Safety

namespace Sys2Proof.Machine

open Safety

/-! ### The script -/

theorem onPin_script (pin : Byte) (r : Bool) (s : State) : (onPin pin r s).script = s.bus.script := by
  unfold onPin
  dsimp only
  split
  · split <;> simp
  · simp

@[simp] theorem sda0_script (s : State) : (sda0 s).bus.script = s.bus.script := onPin_script _ _ _
@[simp] theorem sda1_script (s : State) : (sda1 s).bus.script = s.bus.script := onPin_script _ _ _
@[simp] theorem scl0_script (s : State) : (scl0 s).bus.script = s.bus.script := onPin_script _ _ _
@[simp] theorem scl1_script (s : State) : (scl1 s).bus.script = s.bus.script := onPin_script _ _ _
@[simp] theorem dly_script (s : State) : (dly s).bus.script = s.bus.script := tick_script _ _

@[simp] theorem putSda_script (b : Bool) (s : State) : (putSda b s).bus.script = s.bus.script := by
  cases b <;> simp [putSda]

@[simp] theorem pulse_script (s : State) : (pulse s).bus.script = s.bus.script := by simp [pulse]

@[simp] theorem sendBits_script (bs : List Bool) (s : State) : (sendBits bs s).bus.script = s.bus.script := by
  induction bs generalizing s with
  | nil => rfl
  | cons b bs ih => simp [sendBits, ih]

/-- An RD() with the data line released returns the environment's answer (40_microops.md R136). -/
theorem rd_answers (s : State) (hd : s.sdaDrv = .rel) : Answers s (rd s).2 [(rd s).1] := by
  refine ⟨fun xs rest hl hsc => ?_, fun v hv => ?_⟩
  · obtain ⟨x, rfl⟩ := List.length_eq_one_iff.mp hl
    obtain ⟨hr, hsc⟩ := hsc
    simp [rd, sampleSda, hr, Bus.answer, hsc, hd]
  · obtain ⟨hr, hs, hc⟩ := hv
    have hm : NoResponders s.bus.rest := by intro ds; rw [hc]; cases v <;> simp
    have ht := tick_rest (o := oracleNow s) hm
    have hrd : readable (rd s).2 = true := by rw [(Runs.refl s).rd.readable]; exact hr
    rw [hc] at ht
    cases v <;> simp_all [Always, rd, sampleSda, Bus.answer, Rest.envSda]

theorem samplePulse_answers (s : State) (hd : s.sdaDrv = .rel) :
    Answers s (samplePulse s).2 [(samplePulse s).1] :=
  ((rd_answers (dly (scl1 s)) hd).after ((Runs.refl s).scl1.dly) (by simp)).before
    ((Runs.refl s).scl1.dly.rd) ((Runs.refl _).scl0.dly) ((dly_script _).trans (scl0_script _))

/-! ### Bits -/

@[simp] theorem putSda_trace (b : Bool) (s : State) :
    (putSda b s).trace = s.trace ++ [if b then .sda1 else .sda0] := by cases b <;> rfl

@[simp] theorem putSda_sclDrv (b : Bool) (s : State) : (putSda b s).sclDrv = s.sclDrv := by cases b <;> rfl

@[simp] theorem pulse_trace (s : State) : (pulse s).trace = s.trace ++ [.scl1, .dly, .scl0, .dly] := by
  simp [pulse]

@[simp] theorem pulse_sdaDrv (s : State) : (pulse s).sdaDrv = s.sdaDrv := rfl
@[simp] theorem pulse_sclDrv (s : State) : (pulse s).sclDrv = .low := rfl
@[simp] theorem pulse_sr (s : State) : (pulse s).sr = s.sr := rfl
@[simp] theorem pulse_ack (s : State) : (pulse s).ack = s.ack := rfl
@[simp] theorem pulse_busOpen (s : State) : (pulse s).busOpen = s.busOpen := rfl

@[simp] theorem samplePulse_trace (s : State) :
    (samplePulse s).2.trace = s.trace ++ bitIn (samplePulse s).1 := by
  simp [samplePulse, bitIn]

@[simp] theorem samplePulse_sdaDrv (s : State) : (samplePulse s).2.sdaDrv = s.sdaDrv := rfl
@[simp] theorem samplePulse_sclDrv (s : State) : (samplePulse s).2.sclDrv = .low := rfl
@[simp] theorem samplePulse_sr (s : State) : (samplePulse s).2.sr = s.sr := rfl
@[simp] theorem samplePulse_ack (s : State) : (samplePulse s).2.ack = s.ack := rfl
@[simp] theorem samplePulse_busOpen (s : State) : (samplePulse s).2.busOpen = s.busOpen := rfl

@[simp] theorem putSda_sr (b : Bool) (s : State) : (putSda b s).sr = s.sr := by cases b <;> rfl
@[simp] theorem putSda_ack (b : Bool) (s : State) : (putSda b s).ack = s.ack := by cases b <;> rfl
@[simp] theorem putSda_busOpen (b : Bool) (s : State) : (putSda b s).busOpen = s.busOpen := by cases b <;> rfl

/-- `sr`, `ack` and `bus_open` are not touched by the bits sent. -/
theorem sendBits_flags (bs : List Bool) (s : State) :
    (sendBits bs s).sr = s.sr ∧ (sendBits bs s).ack = s.ack ∧ (sendBits bs s).busOpen = s.busOpen := by
  induction bs generalizing s with
  | nil => exact ⟨rfl, rfl, rfl⟩
  | cons b bs ih => simpa [sendBits] using ih (pulse (putSda b s))

@[simp] theorem sendBits_trace (bs : List Bool) (s : State) :
    (sendBits bs s).trace = s.trace ++ bs.flatMap bitOut := by
  induction bs generalizing s with
  | nil => simp [sendBits]
  | cons b bs ih => simp [sendBits, ih, bitOut]

/-- The samples shift into `sr`, the first one highest (R158); `ack` and `bus_open` are not touched. -/
theorem recvBits_spec (n : Nat) (s : State) :
    ∃ ks : List Bool, ks.length = n ∧ (recvBits n s).trace = s.trace ++ ks.flatMap bitIn ∧
      (recvBits n s).sr = ks.foldl shiftIn s.sr ∧ (recvBits n s).ack = s.ack ∧
      (recvBits n s).busOpen = s.busOpen ∧ (s.sdaDrv = .rel → Answers s (recvBits n s) ks) := by
  induction n generalizing s with
  | zero => exact ⟨[], rfl, by simp [recvBits], rfl, rfl, rfl, fun _ => .nil (.refl s) rfl⟩
  | succ n ih =>
    obtain ⟨ks, hl, ht, hs, ha, ho, hk⟩ := ih (writeSr (shiftIn (samplePulse s).2.sr (samplePulse s).1) (samplePulse s).2)
    refine ⟨(samplePulse s).1 :: ks, by simp [hl], ?_, ?_, ?_, ?_, fun hd => ?_⟩
    · simpa [recvBits] using ht
    · simpa [recvBits] using hs
    · simpa [recvBits] using ha
    · simpa [recvBits] using ho
    · exact (samplePulse_answers s hd).append ((hk hd).after ((Runs.refl _).setSr _) rfl) (runs_samplePulse s).readable

/-! ### Bytes -/

theorem addrByte_eq (a7 : Addr) (rw : Dir) : addrByte a7 rw = (a7 ++ rw.bit : BitVec 8) := by
  revert a7
  cases rw <;> decide

/-- `do_writebyte` (R156). -/
theorem doWriteByte_trace (b : Byte) (s : State) :
    (doWriteByte b s).2.trace = s.trace ++ byteOut b (!(doWriteByte b s).1) := by
  simp [doWriteByte, byteOut, bitsMsbFirst, ackOf, bitIn]

theorem doWriteByte_answers (b : Byte) (s : State) :
    Answers s (doWriteByte b s).2 [!(doWriteByte b s).1] := by
  have h := samplePulse_answers (sda1 (sendBits (bitsMsbFirst b) (writeSr b s))) rfl
  have hr := (((Runs.refl s).setSr b).trans (runs_sendBits (bitsMsbFirst b) _)).sda1
  simpa [doWriteByte, ackOf] using
    (h.after hr (by simp)).before (hr.trans (runs_samplePulse _)) ((Runs.refl _).sda0.setAck _) (by simp)

@[simp] theorem doWriteByte_ack (b : Byte) (s : State) : (doWriteByte b s).2.ack = (doWriteByte b s).1 := rfl
@[simp] theorem doWriteByte_sdaDrv (b : Byte) (s : State) : (doWriteByte b s).2.sdaDrv = .low := rfl
@[simp] theorem doWriteByte_sclDrv (b : Byte) (s : State) : (doWriteByte b s).2.sclDrv = .low := rfl

@[simp] theorem doWriteByte_sr (b : Byte) (s : State) : (doWriteByte b s).2.sr = b := by
  simpa [doWriteByte] using (sendBits_flags (bitsMsbFirst b) (writeSr b s)).1

@[simp] theorem doWriteByte_busOpen (b : Byte) (s : State) : (doWriteByte b s).2.busOpen = s.busOpen := by
  simpa [doWriteByte] using (sendBits_flags (bitsMsbFirst b) (writeSr b s)).2.2

/-- `do_writebyte`, said once. -/
theorem did_doWriteByte (b : Byte) (s : State) : Did s (doWriteByte b s).2 (sent b (!(doWriteByte b s).1)) :=
  ⟨doWriteByte_trace b s, doWriteByte_answers b s, doWriteByte_sr b s, by simp [sent]⟩

/-- `do_readbyte` (R158). -/
theorem doReadByte_spec (last : Bool) (s : State) :
    ∃ ks : List Bool, ks.length = 8 ∧ (doReadByte last s).2.trace = s.trace ++ byteIn ks last ∧
      (doReadByte last s).1 = byteOf ks ∧ Answers s (doReadByte last s).2 ks := by
  obtain ⟨ks, hl, ht, hs, -, -, hk⟩ := recvBits_spec 8 (writeSr 0x00#8 (sda1 s))
  have hr := (Runs.refl s).sda1.setSr 0x00#8
  refine ⟨ks, hl, ?_, ?_, ((hk rfl).after hr (by simp)).before (hr.trans (runs_recvBits 8 _))
    (((runs_putSda last _).trans (runs_pulse _)).sda0) ?_⟩
  · simp [doReadByte, ht, byteIn]
  · have e : byteOf ks = ks.foldl shiftIn 0#8 := rfl
    simpa [doReadByte, e] using hs
  · simp [doReadByte]

@[simp] theorem doReadByte_sr (last : Bool) (s : State) : (doReadByte last s).2.sr = (doReadByte last s).1 := rfl
@[simp] theorem doReadByte_sdaDrv (last : Bool) (s : State) : (doReadByte last s).2.sdaDrv = .low := rfl
@[simp] theorem doReadByte_sclDrv (last : Bool) (s : State) : (doReadByte last s).2.sclDrv = .low := rfl

@[simp] theorem doReadByte_ack (last : Bool) (s : State) : (doReadByte last s).2.ack = s.ack := by
  obtain ⟨-, -, -, -, h, -, -⟩ := recvBits_spec 8 (writeSr 0x00#8 (sda1 s))
  simpa [doReadByte] using h

@[simp] theorem doReadByte_busOpen (last : Bool) (s : State) : (doReadByte last s).2.busOpen = s.busOpen := by
  obtain ⟨-, -, -, -, -, h, -⟩ := recvBits_spec 8 (writeSr 0x00#8 (sda1 s))
  simpa [doReadByte] using h

/-- `do_readbyte`, said once. -/
theorem did_doReadByte (last : Bool) (s : State) :
    ∃ ks : List Bool, ks.length = 8 ∧ (doReadByte last s).1 = byteOf ks ∧
      Did s (doReadByte last s).2 (received ks last) := by
  obtain ⟨ks, hl, ht, hv, hk⟩ := doReadByte_spec last s
  exact ⟨ks, hl, hv, ht, hk, by simp [received, hv], by simp [received]⟩

/-! ### START and STOP -/

/-- `do_start` (R152). -/
theorem doStart_trace (a7 : Addr) (rw : Dir) (s : State) :
    (doStart a7 rw s).2.trace = s.trace ++ startOut a7 rw (!(doStart a7 rw s).1) := by
  simp [doStart, startOut, doWriteByte_trace, addrByte_eq]

theorem doStart_answers (a7 : Addr) (rw : Dir) (s : State) :
    Answers s (doStart a7 rw s).2 [!(doStart a7 rw s).1] :=
  (doWriteByte_answers (addrByte a7 rw) _).after ((Runs.refl s).setOpen true).sda0.dly.scl0.dly (by simp)

@[simp] theorem doStart_ack (a7 : Addr) (rw : Dir) (s : State) : (doStart a7 rw s).2.ack = (doStart a7 rw s).1 := rfl
@[simp] theorem doStart_sdaDrv (a7 : Addr) (rw : Dir) (s : State) : (doStart a7 rw s).2.sdaDrv = .low := rfl
@[simp] theorem doStart_sclDrv (a7 : Addr) (rw : Dir) (s : State) : (doStart a7 rw s).2.sclDrv = .low := rfl

@[simp] theorem doStart_sr (a7 : Addr) (rw : Dir) (s : State) : (doStart a7 rw s).2.sr = addrByte a7 rw := by
  simp [doStart]

@[simp] theorem doStart_busOpen (a7 : Addr) (rw : Dir) (s : State) : (doStart a7 rw s).2.busOpen = true := by
  simp [doStart]

/-- `do_start`, said once. -/
theorem did_doStart (a7 : Addr) (rw : Dir) (s : State) :
    Did s (doStart a7 rw s).2 (started a7 rw (!(doStart a7 rw s).1)) :=
  ⟨doStart_trace a7 rw s, doStart_answers a7 rw s, by simp [started, addrByte_eq], by simp [started]⟩

/-- `do_stop` (R154). -/
@[simp] theorem doStop_trace (s : State) : (doStop s).trace = s.trace ++ stopOut := by simp [doStop, stopOut]

@[simp] theorem doStop_sdaDrv (s : State) : (doStop s).sdaDrv = .rel := rfl
@[simp] theorem doStop_sclDrv (s : State) : (doStop s).sclDrv = .rel := rfl
@[simp] theorem doStop_busOpen (s : State) : (doStop s).busOpen = false := rfl
@[simp] theorem doStop_sr (s : State) : (doStop s).sr = s.sr := rfl
@[simp] theorem doStop_ack (s : State) : (doStop s).ack = s.ack := rfl

@[simp] theorem doStop_script (s : State) : (doStop s).bus.script = s.bus.script := by simp [doStop]

/-- `do_stop`, said once. -/
theorem did_doStop (s : State) : Did s (doStop s) stopped :=
  ⟨doStop_trace s, .nil (runs_doStop s) (doStop_script s), rfl, rfl⟩

theorem doStop_idle (s : State) : BusIdle (doStop s) := ⟨rfl, rfl, rfl⟩

end Sys2Proof.Machine
end

