-- ==== Sys2Proof/Laws/Transfers.lean ====
section
/-! SUPPORT. What each transfer procedure and the identification can do, said once: they do the traffic that the rules
give, and answer as it says (42_engine_transfers.md, 43_identify.md). -/

namespace Sys2Proof.Machine

open Safety

/-! ### RXBUF -/

/-- The bytes stored come first, the other entries stand (20_memory.md R68). -/
theorem storeBytes_eq (bytes buf : List Byte) (h : bytes.length ≤ buf.length) :
    storeBytes bytes buf = bytes ++ buf.drop bytes.length := by
  induction bytes generalizing buf with
  | nil => simp [storeBytes]
  | cons b bytes ih =>
    cases buf with
    | nil => simp at h
    | cons c buf => simp [storeBytes, ih buf (by simpa using h)]

theorem storeBytes_length (bytes buf : List Byte) : (storeBytes bytes buf).length = buf.length := by
  induction bytes generalizing buf with
  | nil => rfl
  | cons b bytes ih => cases buf <;> simp [storeBytes, ih]

/-! ### The loops -/

/-- The loop of `do_writen` (R170). -/
theorem did_sendWhileAcked (bytes : List Byte) (s : State) :
    ∃ x, SentBytes bytes x (sendWhileAcked true bytes s).1 ∧ Did s (sendWhileAcked true bytes s).2 x := by
  induction bytes generalizing s with
  | nil => exact ⟨_, .done, .nothing s⟩
  | cons b bytes ih =>
    have hw := did_doWriteByte b s
    cases hk : (doWriteByte b s).1 with
    | false =>
      have e : sendWhileAcked true (b :: bytes) s = (false, (doWriteByte b s).2) := by
        cases bytes <;> simp [sendWhileAcked, hk]
      rw [hk] at hw
      rw [e]
      exact ⟨_, .nack b bytes, hw⟩
    | true =>
      rw [hk] at hw
      obtain ⟨x, hx, hd⟩ := ih (doWriteByte b s).2
      simp only [sendWhileAcked, hk]
      exact ⟨_, .ack b hx, hw.trans hd (runs_doWriteByte b s)⟩

/-- The loop of `do_readn` (R172). -/
theorem did_readBytes (n : Nat) (s : State) :
    ∃ x, ReadBytes n x (readBytes n s).1 ∧ Did s (readBytes n s).2 x := by
  induction n generalizing s with
  | zero => exact ⟨_, .done, .nothing s⟩
  | succ n ih =>
    obtain ⟨ks, hl, hv, hk⟩ := did_doReadByte (n == 0) s
    obtain ⟨x, hx, hd⟩ := ih (doReadByte (n == 0) s).2
    have e : (n == 0) = decide (n = 0) := by cases n <;> rfl
    refine ⟨_, ?_, hk.trans hd (runs_doReadByte _ s)⟩
    rw [e] at hv hx
    simp only [readBytes, e, hv]
    exact .more ks hl hx

/-! ### The transactions -/

/-- `do_writen` (R170, R171). -/
theorem did_doWriteN (a7 : Addr) (bytes : List Byte) (s : State) :
    ∃ x, WriteTx a7 bytes x (doWriteN a7 bytes s).1 ∧ Did s (doWriteN a7 bytes s).2 x := by
  have hw := did_doStart a7 .write s
  cases hk : (doStart a7 .write s).1 with
  | false =>
    rw [hk] at hw
    have e : doWriteN a7 bytes s = (false, doStop (doStart a7 .write s).2) := by
      cases bytes <;> simp [doWriteN, hk, sendWhileAcked]
    rw [e]
    exact ⟨_, .absent, hw.trans (did_doStop _) (runs_doStart _ _ _)⟩
  | true =>
    rw [hk] at hw
    obtain ⟨x, hx, hd⟩ := did_sendWhileAcked bytes (doStart a7 .write s).2
    simp only [doWriteN, hk]
    exact ⟨_, .answered hx, hw.trans (hd.trans (did_doStop _) (runs_sendWhileAcked _ _ _)) (runs_doStart _ _ _)⟩

theorem doWriteN_idle (a7 : Addr) (bytes : List Byte) (s : State) : BusIdle (doWriteN a7 bytes s).2 := doStop_idle _

/-- `do_readn` (R172, R173). -/
theorem did_doReadN (a7 : Addr) (n : Nat) (s : State) :
    ∃ x, ReadTx a7 n x (doReadN a7 n s).1 ∧ Did s (doReadN a7 n s).2 x := by
  have hw := did_doStart a7 .read s
  cases hk : (doStart a7 .read s).1 with
  | false =>
    rw [hk] at hw
    have e : doReadN a7 n s = (none, doStop (doStart a7 .read s).2) := by simp [doReadN, hk]
    rw [e]
    exact ⟨_, .absent, hw.trans (did_doStop _) (runs_doStart _ _ _)⟩
  | true =>
    rw [hk] at hw
    obtain ⟨x, hx, hd⟩ := did_readBytes n (doStart a7 .read s).2
    simp only [doReadN, hk, if_true]
    exact ⟨_, .answered hx, hw.trans (hd.trans (did_doStop _) (runs_readBytes _ _)) (runs_doStart _ _ _)⟩

theorem doReadN_idle (a7 : Addr) (n : Nat) (s : State) : BusIdle (doReadN a7 n s).2 := by
  unfold doReadN
  dsimp only
  split <;> exact doStop_idle _

/-- `do_probe` (R174, R175). -/
theorem did_doProbe (a7 : Addr) (s : State) : Did s (doProbe a7 s).2 (probed a7 (!(doProbe a7 s).1)) :=
  (did_doStart a7 .write s).trans (did_doStop _) (runs_doStart _ _ _)

theorem doProbe_idle (a7 : Addr) (s : State) : BusIdle (doProbe a7 s).2 := doStop_idle _

/-- `do_readreg` (R176). -/
theorem did_doReadReg (a7 : Addr) (reg : Byte) (n : Nat) (s : State) :
    ∃ x, RegRead a7 reg n x (doReadReg a7 reg n s).1 ∧ Did s (doReadReg a7 reg n s).2 x := by
  obtain ⟨x, hx, hd⟩ := did_doWriteN a7 [reg] s
  cases hw : (doWriteN a7 [reg] s).1 with
  | false =>
    rw [hw] at hx
    have e : doReadReg a7 reg n s = (none, (doWriteN a7 [reg] s).2) := by simp [doReadReg, hw]
    rw [e]
    exact ⟨_, .refused hx, hd⟩
  | true =>
    rw [hw] at hx
    obtain ⟨y, hy, hd'⟩ := did_doReadN a7 n (doWriteN a7 [reg] s).2
    simp only [doReadReg, hw, if_true]
    exact ⟨_, .granted hx hy, hd.trans hd' (runs_doWriteN _ _ _)⟩

theorem doReadReg_idle (a7 : Addr) (reg : Byte) (n : Nat) (s : State) : BusIdle (doReadReg a7 reg n s).2 := by
  unfold doReadReg
  dsimp only
  split
  · exact doReadN_idle _ _ _
  · exact doWriteN_idle _ _ _

/-! ### Identification -/

/-- A rule of one register read (R192, R194, R196, R198). -/
theorem readAndTest_kind (a7 : Addr) (reg : Byte) (test : Byte → Bool) (hit : Kind) (s : State) :
    (readAndTest a7 reg test hit s).1 = kindIf hit test (doReadReg a7 reg 1 s).1 := by
  unfold readAndTest kindIf
  dsimp only
  split <;> rename_i h <;> simp only [h]

theorem did_readAndTest (a7 : Addr) (reg : Byte) (test : Byte → Bool) (hit : Kind) (s : State) :
    ∃ x r, RegRead a7 reg 1 x r ∧ (readAndTest a7 reg test hit s).1 = kindIf hit test r ∧
      Did s (readAndTest a7 reg test hit s).2 x := by
  obtain ⟨x, hx, hd⟩ := did_doReadReg a7 reg 1 s
  exact ⟨x, _, hx, readAndTest_kind a7 reg test hit s, by rw [readAndTest_state]; exact hd⟩

/-- `do_identify` (R190 to R198). -/
theorem did_doIdentify (a7 : Addr) (s : State) :
    ∃ x, Identified s.params a7 x (doIdentify a7 s).1 ∧ Did s (doIdentify a7 s).2 x := by
  unfold doIdentify
  split
  · rename_i h
    obtain ⟨x, r, hx, hk, hd⟩ := did_readAndTest a7 Config.regUvPartid (fun v => v == Config.valUvPartid) .uv s
    exact ⟨x, hk ▸ .uv h hx, hd⟩
  · rename_i h1
    split
    · rename_i h2
      exact ⟨_, .co2 h1 h2, .nothing s⟩
    · rename_i h2
      split
      · rename_i h3
        obtain ⟨x, r, hx, hk, hd⟩ := did_readAndTest a7 s.params.regRtcAStatus
          (fun v => v &&& s.params.maskRtcATop == 0x00#8) .rtcA s
        exact ⟨x, hk ▸ .rtcA h1 h2 h3 hx, hd⟩
      · rename_i h3
        split
        · rename_i h4
          obtain ⟨x, hx, hd⟩ := did_doWriteN a7 [s.params.regRtcBThresh, s.params.valRtcBTest] s
          unfold writeAndEcho
          dsimp only
          cases hw : (doWriteN a7 [s.params.regRtcBThresh, s.params.valRtcBTest] s).1 with
          | false =>
            rw [hw] at hx
            simp only [Bool.false_eq_true, if_false]
            exact ⟨x, .rtcBUnwritten h1 h2 h3 h4 hx, hd⟩
          | true =>
            rw [hw] at hx
            obtain ⟨y, r, hy, hk, hd'⟩ := did_readAndTest a7 s.params.regRtcBThresh
              (fun v => v == s.params.valRtcBTest) .rtcB
              (doWriteN a7 [s.params.regRtcBThresh, s.params.valRtcBTest] s).2
            simp only [if_true]
            exact ⟨_, hk ▸ .rtcB h1 h2 h3 h4 hx hy, hd.trans hd' (runs_doWriteN _ _ _)⟩
        · rename_i h4
          obtain ⟨x, r, hx, hk, hd⟩ := did_readAndTest a7 s.params.regImuWhoami
            (fun v => v == s.params.valImuWhoami) .imu s
          exact ⟨x, hk ▸ .imu h1 h2 h3 h4 hx, hd⟩

/-- Identification leaves the bus idle if it was (42_engine_transfers.md R178; rule 2 makes no transaction). -/
theorem doIdentify_idle (a7 : Addr) (s : State) (h : BusIdle s) : BusIdle (doIdentify a7 s).2 := by
  unfold doIdentify
  split
  · rw [readAndTest_state]; exact doReadReg_idle _ _ _ _
  · split
    · exact h
    · split
      · rw [readAndTest_state]; exact doReadReg_idle _ _ _ _
      · split
        · unfold writeAndEcho
          dsimp only
          split
          · rw [readAndTest_state]; exact doReadReg_idle _ _ _ _
          · exact doWriteN_idle _ _ _
        · rw [readAndTest_state]; exact doReadReg_idle _ _ _ _

end Sys2Proof.Machine
end

