-- ==== Sys2Proof/Laws/Scanner.lean ====
section
/-! SUPPORT. What the scan loop can do, said once: it scans as 44_scanner.md R213 says and ends as R216 and R217 say. -/

namespace Sys2Proof.Safety

open Machine

theorem SameEngine.self (s : State) : SameEngine s s := ⟨rfl, rfl, rfl, rfl, rfl, rfl, rfl, rfl, rfl⟩

/-- Traffic, then writes outside the engine, then traffic. -/
theorem Did.into {s t u v : State} {x y : Traffic} (h : Did s t x) (hr : Runs s t) (hu : SameEngine t u)
    (hu' : readable u = readable t) (h' : Did u v y) : Did s v (x.andThen y) :=
  h.trans (h'.of_engine ⟨hu.1.symm, hu.2.symm, hu.3.symm, hu.4.symm, hu.5.symm, hu.6.symm, hu.7.symm, hu.8.symm,
    hu.9.symm⟩ (SameEngine.self v) hu'.symm rfl) hr

end Sys2Proof.Safety

namespace Sys2Proof.Machine

open Safety

/-- A change of scanner registers leaves the engine alone. -/
theorem scanRegs_sameEngine (s : State) (st : ScanState) (ad : BitVec 8) (bc : BitVec 4) (re : ScanResult) (fa : Addr)
    (fk : Kind) :
    SameEngine s { s with scanState := st, scanAddr := ad, badCnt := bc, scanResult := re, foundAddr := fa, foundKind := fk } :=
  ⟨rfl, rfl, rfl, rfl, rfl, rfl, rfl, rfl, rfl⟩

/-- The scanner registers while the scanner is in Scanning. -/
structure InScan (s : State) : Prop where
  scanState : s.scanState = .scanning
  scanResult : s.scanResult = .none
  foundAddr : s.foundAddr = 0#7
  foundKind : s.foundKind = .unknown

theorem InScan.of_runs {s t : State} (h : InScan s) (hr : Runs s t) : InScan t := by
  have e := hr.engineOnly.scanner
  exact ⟨e.scanState.trans h.1, e.scanResult.trans h.2, e.foundAddr.trans h.3, e.foundKind.trans h.4⟩

/-- The probe of one address of the scan. -/
theorem scanProbe (s : State) :
    Did s (doProbe (s.scanAddr.setWidth 7) s).2
      (probed (BitVec.ofNat 7 s.scanAddr.toNat) (!(doProbe (s.scanAddr.setWidth 7) s).1)) :=
  did_doProbe _ s

/-- The loop of R213 from `scan_addr` on, and the end states and responses (R216, R217). -/
theorem did_scanFrom (n : Nat) (s : State) (hn : s.scanAddr.toNat + n = s.params.scanLast.toNat + 1)
    (hbad : s.badCnt.toNat ≤ 9) (hs : InScan s) (hi : n = 0 → BusIdle s) :
    ∃ x e m, Scanned s.params s.scanAddr.toNat s.badCnt.toNat x e m ∧ Did s (scanFrom n s) x ∧
      ScanLeft e m (scanFrom n s) ∧ BusIdle (scanFrom n s) := by
  induction n generalizing s with
  | zero =>
    obtain ⟨i1, i2, i3⟩ := hi rfl
    refine ⟨_, _, _, .exhausted hn, ?_, ?_, ⟨i1, i2, i3⟩⟩
    · exact (Did.nothing s).of_engine (SameEngine.self s) ⟨rfl, rfl, rfl, rfl, rfl, rfl, rfl, rfl, rfl⟩ rfl rfl
    · exact ⟨rfl, rfl, hn, hs.foundAddr, hs.foundKind, rfl, rfl, rfl, rfl⟩
  | succ n ih =>
    have hle : s.scanAddr.toNat ≤ s.params.scanLast.toNat := by omega
    have hlt := s.params.scanLast.isLt
    have hp := scanProbe s
    have hr := runs_doProbe (s.scanAddr.setWidth 7) s
    have hpi := doProbe_idle (s.scanAddr.setWidth 7) s
    unfold scanFrom scanVisit
    dsimp only
    generalize hq : doProbe (s.scanAddr.setWidth 7) s = q at hp hr hpi ⊢
    have he := hr.engineOnly
    have hq' := hs.of_runs hr
    cases hk : q.1 with
    | false =>
      rw [hk] at hp
      simp only [Bool.false_eq_true, if_false]
      obtain ⟨x, e, m, h1, h2, h3, h4⟩ := ih { q.2 with scanAddr := q.2.scanAddr + 1 }
        (by simp only [he.scanner.scanAddr, he.world.params, BitVec.toNat_add]; simp; omega)
        (by simpa only [he.scanner.badCnt] using hbad) ⟨hq'.1, hq'.2, hq'.3, hq'.4⟩ fun _ => ⟨hpi.1, hpi.2, hpi.3⟩
      have ha : (q.2.scanAddr + 1).toNat = s.scanAddr.toNat + 1 := by
        simp only [he.scanner.scanAddr, BitVec.toNat_add]; simp; omega
      simp only [ha, he.scanner.badCnt, he.world.params] at h1
      exact ⟨_, e, m, .silent hle h1, hp.into hr (by exact ⟨rfl, rfl, rfl, rfl, rfl, rfl, rfl, rfl, rfl⟩) (by rfl) h2, h3, h4⟩
    | true =>
      rw [hk] at hp
      simp only [if_true]
      by_cases hlow : q.2.scanAddr < Config.validMin.setWidth 8
      · have hlow' : s.scanAddr.toNat < 16 := by rw [← he.scanner.scanAddr]; exact hlow
        have hb : (q.2.badCnt + 1).toNat = s.badCnt.toNat + 1 := by
          simp only [he.scanner.badCnt, BitVec.toNat_add]; simp; omega
        rw [if_pos hlow]
        by_cases hlim : q.2.badCnt + 1 = Config.badLimit
        · have hb10 : s.badCnt.toNat + 1 = 10 := by rw [← hb, hlim]; rfl
          rw [if_pos hlim]
          refine ⟨_, _, _, .aborted hle hlow' hb10, ?_, ?_, ⟨hpi.1, hpi.2, hpi.3⟩⟩
          · exact hp.of_engine (SameEngine.self s) ⟨rfl, rfl, rfl, rfl, rfl, rfl, rfl, rfl, rfl⟩ rfl rfl
          · exact ⟨rfl, rfl, congrArg BitVec.toNat he.scanner.scanAddr, hq'.foundAddr, hq'.foundKind,
              hb.trans hb10, rfl, rfl, rfl⟩
        · rw [if_neg hlim]
          have hb10 : s.badCnt.toNat + 1 ≠ 10 := by
            intro h
            exact hlim (BitVec.eq_of_toNat_eq (by rw [hb, h]; rfl))
          have ha : (q.2.scanAddr + 1).toNat = s.scanAddr.toNat + 1 := by
            simp only [he.scanner.scanAddr, BitVec.toNat_add]; simp; omega
          obtain ⟨x, e, m, h1, h2, h3, h4⟩ :=
            ih { q.2 with badCnt := q.2.badCnt + 1, scanAddr := q.2.scanAddr + 1 }
              (by simp only [ha, he.world.params]; omega) (by simp only [hb]; omega)
              ⟨hq'.1, hq'.2, hq'.3, hq'.4⟩ fun _ => ⟨hpi.1, hpi.2, hpi.3⟩
          simp only [ha, hb, he.world.params] at h1
          exact ⟨_, e, m, .flagged hle hlow' hb10 h1, hp.into hr (by exact ⟨rfl, rfl, rfl, rfl, rfl, rfl, rfl, rfl, rfl⟩) (by rfl) h2,
            h3, h4⟩
      · have hhigh : 16 ≤ s.scanAddr.toNat := by
          rw [← he.scanner.scanAddr]; exact Nat.le_of_not_lt hlow
        rw [if_neg hlow]
        obtain ⟨y, hy, hdy⟩ := did_doIdentify (q.2.scanAddr.setWidth 7) q.2
        have hrd := runs_doIdentify (q.2.scanAddr.setWidth 7) q.2
        have hid := doIdentify_idle (q.2.scanAddr.setWidth 7) q.2 hpi
        have hw : (q.2.scanAddr.setWidth 7 : Addr) = BitVec.ofNat 7 s.scanAddr.toNat := by
          rw [he.scanner.scanAddr]; rfl
        generalize doIdentify (q.2.scanAddr.setWidth 7) q.2 = r at hy hdy hrd hid ⊢
        have he2 := hrd.engineOnly
        have hr' := hq'.of_runs hrd
        rw [hw, he.world.params] at hy
        by_cases hu : r.1 = .unknown
        · rw [if_pos hu]
          rw [hu] at hy
          have ha : (r.2.scanAddr + 1).toNat = s.scanAddr.toNat + 1 := by
            simp only [he2.scanner.scanAddr, he.scanner.scanAddr, BitVec.toNat_add]; simp; omega
          obtain ⟨x, e, m, h1, h2, h3, h4⟩ := ih { r.2 with scanAddr := r.2.scanAddr + 1 }
            (by simp only [ha, he2.world.params, he.world.params]; omega)
            (by simpa only [he2.scanner.badCnt, he.scanner.badCnt] using hbad)
            ⟨hr'.1, hr'.2, hr'.3, hr'.4⟩ fun _ => ⟨hid.1, hid.2, hid.3⟩
          simp only [ha, he2.scanner.badCnt, he.scanner.badCnt, he2.world.params, he.world.params] at h1
          exact ⟨_, e, m, .unknown hle hhigh hy h1,
            hp.trans (hdy.into hrd (by exact ⟨rfl, rfl, rfl, rfl, rfl, rfl, rfl, rfl, rfl⟩) (by rfl) h2) hr, h3, h4⟩
        · rw [if_neg hu]
          refine ⟨_, _, _, .found hle hhigh hu hy, ?_, ?_, ⟨hid.1, hid.2, hid.3⟩⟩
          · exact (hp.trans hdy hr).of_engine (SameEngine.self s) ⟨rfl, rfl, rfl, rfl, rfl, rfl, rfl, rfl, rfl⟩ rfl rfl
          · have ha : r.2.scanAddr = s.scanAddr := he2.scanner.scanAddr.trans he.scanner.scanAddr
            refine ⟨rfl, rfl, congrArg BitVec.toNat ha, ?_, rfl, ?_, rfl, rfl, ?_⟩
            · simp only [scanFound, respond_foundAddr, ha, BitVec.toNat_setWidth]
              omega
            · exact congrArg BitVec.toNat (he2.scanner.badCnt.trans he.scanner.badCnt)
            · simp only [scanFound, respond_rspWord, respond_foundAddr, responseWord, recordData, codeBits]
              cases r.1 <;> rfl

/-- The entry actions, then the loop over a window that is not empty (R212, R213). -/
theorem did_scan (s : State) (hl : 4 ≤ s.params.scanLast.toNat) :
    ∃ x e m, Scanned s.params 4 0 x e m ∧ Did s (scanFrom (scanWindow s.params) (scanEntry s)) x ∧
      ScanLeft e m (scanFrom (scanWindow s.params) (scanEntry s)) ∧
      BusIdle (scanFrom (scanWindow s.params) (scanEntry s)) := by
  have h4 : Config.scanFirst.toNat = 4 := rfl
  have hw : scanWindow s.params = s.params.scanLast.toNat + 1 - 4 := by rw [scanWindow, h4]
  obtain ⟨x, e, m, h1, h2, h3, h⟩ := did_scanFrom (scanWindow s.params) (scanEntry s)
    (by show 4 + scanWindow s.params = s.params.scanLast.toNat + 1; omega) (Nat.zero_le 9) ⟨rfl, rfl, rfl, rfl⟩
    (fun hz => by omega)
  exact ⟨x, e, m, h1, h2.of_engine ⟨rfl, rfl, rfl, rfl, rfl, rfl, rfl, rfl, rfl⟩ (.self _) rfl rfl, h3, h⟩

/-- An empty window (no legal parameter gives one): nothing is probed. -/
theorem scan_empty (s : State) (hl : s.params.scanLast.toNat < 4) :
    scanFrom (scanWindow s.params) (scanEntry s) = scanNothing (scanEntry s) := by
  have h4 : Config.scanFirst.toNat = 4 := rfl
  have hw : scanWindow s.params = 0 := by rw [scanWindow, h4]; omega
  rw [hw]
  rfl

end Sys2Proof.Machine
end

