-- ==== Sys2Proof/Laws/Exec.lean ====
section
/-! SUPPORT. What a command can do, said once: runs of the engine, and writes outside the engine that leave the handle and
the world alone; CONFIGURE apart. -/

namespace Sys2Proof.Safety

open Machine

theorem SameWorld.self (s : State) : SameWorld s s := ⟨rfl, rfl, rfl⟩
theorem SameHandle.self (s : State) : SameHandle s s := ⟨rfl, rfl, rfl, rfl⟩
theorem SameBuffers.self (s : State) : SameBuffers s s := ⟨rfl, rfl⟩
theorem SameScanner.self (s : State) : SameScanner s s := ⟨rfl, rfl, rfl, rfl, rfl, rfl⟩

theorem SameWorld.trans {s t u : State} (h : SameWorld s t) (h' : SameWorld t u) : SameWorld s u :=
  ⟨h'.1.trans h.1, h'.2.trans h.2, h'.3.trans h.3⟩

theorem SameHandle.trans {s t u : State} (h : SameHandle s t) (h' : SameHandle t u) : SameHandle s u :=
  ⟨h'.1.trans h.1, h'.2.trans h.2, h'.3.trans h.3, h'.4.trans h.4⟩

theorem SameBuffers.trans {s t u : State} (h : SameBuffers s t) (h' : SameBuffers t u) : SameBuffers s u :=
  ⟨h'.1.trans h.1, h'.2.trans h.2⟩

theorem EngineOnly.respond {s t : State} (h : EngineOnly s t) (c : Code) (d : Data) :
    EngineOnly s (Machine.respond c d t) :=
  ⟨⟨h.1.1, h.1.2, h.1.3⟩, ⟨h.2.1, h.2.2, h.2.3, h.2.4⟩, ⟨h.3.1, h.3.2⟩,
    ⟨h.4.1, h.4.2, h.4.3, h.4.4, h.4.5, h.4.6⟩⟩

end Sys2Proof.Safety

namespace Sys2Proof.Machine

open Safety

/-- Runs of the engine, and writes outside the engine that leave the handle and the world alone. -/
inductive Effects : State → State → Prop where
  | refl (s : State) : Effects s s
  | run {s t u : State} : Effects s t → Runs t u → Effects s u
  | write {s t u : State} : Effects s t → SameEngine t u → SameWorld t u → SameHandle t u → Effects s u

theorem Effects.trans {s t u : State} (h : Effects s t) (h' : Effects t u) : Effects s u := by
  induction h' with
  | refl => exact h
  | run _ r ih => exact ih.run r
  | write _ e w d ih => exact ih.write e w d

theorem Effects.world {s t : State} (h : Effects s t) : SameWorld s t := by
  induction h with
  | refl => exact .self s
  | run _ r ih => exact ih.trans r.engineOnly.world
  | write _ _ w _ ih => exact ih.trans w

theorem Effects.handle {s t : State} (h : Effects s t) : SameHandle s t := by
  induction h with
  | refl => exact .self s
  | run _ r ih => exact ih.trans r.engineOnly.handle
  | write _ _ _ d ih => exact ih.trans d

/-- A response touches only the response port. -/
theorem respond_sameEngine (c : Code) (d : Data) (s : State) : SameEngine s (respond c d s) :=
  ⟨rfl, rfl, rfl, rfl, rfl, rfl, rfl, rfl, rfl⟩

theorem respond_engineOnly (c : Code) (d : Data) (s : State) : EngineOnly s (respond c d s) :=
  ⟨⟨rfl, rfl, rfl⟩, ⟨rfl, rfl, rfl, rfl⟩, ⟨rfl, rfl⟩, ⟨rfl, rfl, rfl, rfl, rfl, rfl⟩⟩

theorem respond_responded (c : Code) (d : Data) (s : State) : Responded (codeBits c) d (respond c d s) :=
  ⟨rfl, rfl, rfl⟩

theorem refuse_onlyResponse (c : Code) (s : State) : OnlyResponse (codeBits c) 0#24 s (refuse c s) :=
  ⟨⟨rfl, rfl, rfl⟩, ⟨rfl, rfl, rfl, rfl⟩, ⟨rfl, rfl⟩, ⟨rfl, rfl, rfl, rfl, rfl, rfl⟩,
    ⟨rfl, rfl, rfl, rfl, rfl, rfl, rfl, rfl, rfl⟩, ⟨rfl, rfl, rfl⟩⟩

theorem Effects.respond {s t : State} (h : Effects s t) (c : Code) (d : Data) : Effects s (respond c d t) :=
  h.write (respond_sameEngine c d t) (respond_engineOnly c d t).world (respond_engineOnly c d t).handle

theorem checkHandle_of {f : State → State} {s : State} (h : s.configured = true) : checkHandle f s = f s := if_pos h

theorem checkHandle_not {f : State → State} {s : State} (h : s.configured = false) :
    checkHandle f s = refuse .notConfigured s := by
  rw [checkHandle, h]
  exact if_neg Bool.false_ne_true

theorem checkArgs_of {fits : Bool} {f : State → State} {s : State} (h : fits = true) : checkArgs fits f s = f s :=
  if_pos h

theorem checkArgs_not {fits : Bool} {f : State → State} {s : State} (h : fits = false) :
    checkArgs fits f s = refuse .badArg s := by
  rw [checkArgs, h]
  exact if_neg Bool.false_ne_true

theorem effects_checkHandle {f : State → State} {s : State} (h : Effects s (f s)) : Effects s (checkHandle f s) := by
  unfold checkHandle
  split
  · exact h
  · exact (Effects.refl s).respond _ _

theorem effects_checkArgs {fits : Bool} {f : State → State} {s : State} (h : Effects s (f s)) :
    Effects s (checkArgs fits f s) := by
  unfold checkArgs
  split
  · exact h
  · exact (Effects.refl s).respond _ _

theorem effects_of_runs {s t : State} (h : Runs s t) : Effects s t := (Effects.refl s).run h

theorem effects_respondRead {s : State} {r : Option (List Byte) × State} (h : Runs s r.2) :
    Effects s (respondRead r) := by
  unfold respondRead
  split
  · refine ((effects_of_runs h).write ?_ ?_ ?_).respond _ _
    · exact ⟨rfl, rfl, rfl, rfl, rfl, rfl, rfl, rfl, rfl⟩
    · exact ⟨rfl, rfl, rfl⟩
    · exact ⟨rfl, rfl, rfl, rfl⟩
  · exact (effects_of_runs h).respond _ _

/-! ### The scan -/

/-- One visit: either the scan goes on from a run of the engine and a change of `bad_cnt`, or it is over. -/
theorem scanVisit_effects (s : State) :
    (∃ t, scanVisit s = .goOn t ∧ Effects s t ∧ SameBuffers s t) ∨
      ∃ t, scanVisit s = .over t ∧ Effects s t ∧ SameBuffers s t := by
  have hr := runs_doProbe (s.scanAddr.setWidth 7) s
  unfold scanVisit
  dsimp only
  generalize doProbe (s.scanAddr.setWidth 7) s = q at hr ⊢
  have hb := hr.engineOnly.buffers
  split
  · split
    · split
      · right
        exact ⟨_, rfl, (effects_of_runs hr).write ⟨rfl, rfl, rfl, rfl, rfl, rfl, rfl, rfl, rfl⟩ ⟨rfl, rfl, rfl⟩
          ⟨rfl, rfl, rfl, rfl⟩, ⟨hb.1, hb.2⟩⟩
      · left
        exact ⟨_, rfl, (effects_of_runs hr).write ⟨rfl, rfl, rfl, rfl, rfl, rfl, rfl, rfl, rfl⟩ ⟨rfl, rfl, rfl⟩
          ⟨rfl, rfl, rfl, rfl⟩, ⟨hb.1, hb.2⟩⟩
    · have hr2 := runs_doIdentify (q.2.scanAddr.setWidth 7) q.2
      generalize doIdentify (q.2.scanAddr.setWidth 7) q.2 = r at hr2 ⊢
      have hb2 := hb.trans hr2.engineOnly.buffers
      split
      · left
        exact ⟨_, rfl, effects_of_runs (hr.trans hr2), hb2⟩
      · right
        exact ⟨_, rfl, (effects_of_runs (hr.trans hr2)).write ⟨rfl, rfl, rfl, rfl, rfl, rfl, rfl, rfl, rfl⟩
          ⟨rfl, rfl, rfl⟩ ⟨rfl, rfl, rfl, rfl⟩, ⟨hb2.1, hb2.2⟩⟩
  · left
    exact ⟨_, rfl, effects_of_runs hr, hb⟩

theorem scanFrom_effects (n : Nat) (s : State) : Effects s (scanFrom n s) ∧ SameBuffers s (scanFrom n s) := by
  induction n generalizing s with
  | zero =>
    exact ⟨(Effects.refl s).write ⟨rfl, rfl, rfl, rfl, rfl, rfl, rfl, rfl, rfl⟩ ⟨rfl, rfl, rfl⟩ ⟨rfl, rfl, rfl, rfl⟩,
      ⟨rfl, rfl⟩⟩
  | succ n ih =>
    unfold scanFrom
    obtain ⟨t, e, h, hb⟩ | ⟨t, e, h, hb⟩ := scanVisit_effects s
    · rw [e]
      have := ih { t with scanAddr := t.scanAddr + 1 }
      exact ⟨(h.write (u := { t with scanAddr := t.scanAddr + 1 }) ⟨rfl, rfl, rfl, rfl, rfl, rfl, rfl, rfl, rfl⟩
        ⟨rfl, rfl, rfl⟩ ⟨rfl, rfl, rfl, rfl⟩).trans this.1, ⟨this.2.1.trans hb.1, this.2.2.trans hb.2⟩⟩
    · rw [e]
      exact ⟨h, hb⟩

/-- The entry actions, then the loop (R212, R213). -/
theorem execScan_effects (s : State) :
    Effects s (scanFrom (scanWindow s.params) (scanEntry s)) ∧
      SameBuffers s (scanFrom (scanWindow s.params) (scanEntry s)) := by
  have h := scanFrom_effects (scanWindow s.params) (scanEntry s)
  exact ⟨((Effects.refl s).write (u := scanEntry s) ⟨rfl, rfl, rfl, rfl, rfl, rfl, rfl, rfl, rfl⟩ ⟨rfl, rfl, rfl⟩
    ⟨rfl, rfl, rfl, rfl⟩).trans h.1, ⟨h.2.1, h.2.2⟩⟩

/-! ### Every command -/

/-- Every command but CONFIGURE has a next state, reached by such effects. -/
theorem exec_effects (i : Instr) (s : State) (hi : ∀ sda scl speed, i ≠ .configure sda scl speed) :
    ∃ t, exec i s = .next t ∧ Effects s t := by
  cases i with
  | configure sda scl speed => exact absurd rfl (hi sda scl speed)
  | start a7 rw => exact ⟨_, rfl, effects_checkHandle ((effects_of_runs (runs_doStart a7 rw s)).respond _ _)⟩
  | stop => exact ⟨_, rfl, effects_checkHandle ((effects_of_runs (runs_doStop s)).respond _ _)⟩
  | writeByte b => exact ⟨_, rfl, effects_checkHandle ((effects_of_runs (runs_doWriteByte b s)).respond _ _)⟩
  | readByte last => exact ⟨_, rfl, effects_checkHandle ((effects_of_runs (runs_doReadByte last s)).respond _ _)⟩
  | writeN a7 len =>
    exact ⟨_, rfl, effects_checkArgs (effects_checkHandle ((effects_of_runs (runs_doWriteN a7 _ s)).respond _ _))⟩
  | readN a7 len =>
    exact ⟨_, rfl, effects_checkArgs (effects_checkHandle (effects_respondRead (runs_doReadN a7 _ s)))⟩
  | probe a7 => exact ⟨_, rfl, effects_checkHandle ((effects_of_runs (runs_doProbe a7 s)).respond _ _)⟩
  | readReg a7 reg len =>
    exact ⟨_, rfl, effects_checkArgs (effects_checkHandle (effects_respondRead (runs_doReadReg a7 reg _ s)))⟩
  | scan => exact ⟨_, rfl, effects_checkHandle (execScan_effects s).1⟩
  | identify a7 => exact ⟨_, rfl, effects_checkHandle ((effects_of_runs (runs_doIdentify a7 s)).respond _ _)⟩
  | wrTx idx val =>
    exact ⟨_, rfl, effects_checkArgs ((Effects.refl s).write ⟨rfl, rfl, rfl, rfl, rfl, rfl, rfl, rfl, rfl⟩
      ⟨rfl, rfl, rfl⟩ ⟨rfl, rfl, rfl, rfl⟩)⟩
  | rdRx idx => exact ⟨_, rfl, effects_checkArgs ((Effects.refl s).respond _ _)⟩
  | rdStat sel => exact ⟨_, rfl, (Effects.refl s).respond _ _⟩

end Sys2Proof.Machine
end

