-- ==== Sys2Proof/Laws/Clock.lean ====
section
/-! SUPPORT. BBI2CM never reads SCL (20_memory.md R74): without reference responders on the bus, every procedure commutes
with forgetting what everyone else gives SCL. -/

namespace Sys2Proof.Machine

open Safety

/-- The bus with nobody else on SCL. -/
def blindBus (b : Bus) : Bus := { b with envScl := true, sclScript := [] }

/-- The state with nobody else on SCL. -/
def blind (s : State) : State := { s with bus := blindBus s.bus }

/-- Nobody on the bus reacts to an edge. -/
def Quiet (s : State) : Prop := NoResponders s.bus.rest

theorem Runs.quiet {s t : State} (r : Runs s t) (h : Quiet s) : Quiet t := by
  unfold Quiet
  rw [r.rest_const s.bus.rest h rfl]
  exact h

/-- Two states differ only in SCL exactly when they are one state without it. -/
theorem butForScl_iff {s t : State} : ButForScl s t ↔ blind s = blind t := by
  constructor
  · intro h
    rw [h]
    rfl
  · intro h
    have e : t = { blind t with bus := { (blind t).bus with envScl := t.bus.envScl, sclScript := t.bus.sclScript } } := rfl
    rw [← h] at e
    exact e

/-! ### The micro-operations -/

theorem blindBus_tick {s : State} (o : Bool) (h : Quiet s) : blindBus (s.bus.tick o) = blindBus s.bus := by
  unfold Bus.tick
  split
  · rfl
  · simp only [blindBus, Bus.become, NoResponders.map h]

theorem blindBus_movePin {b : Bus} (h : NoResponders b.rest) (r : Bool) (p : Byte) (o : Bool) :
    (blindBus b).movePin r p o = blindBus (b.movePin r p o) := by
  simp only [blindBus, Bus.movePin, Bus.become, h.map]

theorem onPin_blind {s : State} (pin : Byte) (r : Bool) (h : Quiet s) :
    onPin pin r (blind s) = blindBus (onPin pin r s) := by
  have ht : NoResponders (s.bus.tick (oracleNow s)).rest := by
    rw [tick_rest h]
    exact h
  have e := blindBus_movePin ht r pin (oracleNow s)
  rw [blindBus_tick _ h] at e
  unfold onPin
  dsimp only
  show (if supported s.params pin then
    (if onePin s then ((blindBus s.bus).movePin r pin (oracleNow s)).confuse
      else (blindBus s.bus).movePin r pin (oracleNow s)) else blindBus s.bus) = _
  rw [e]
  split
  · split <;> rfl
  · exact (blindBus_tick _ h).symm

theorem sda0_blind {s : State} (h : Quiet s) : sda0 (blind s) = blind (sda0 s) :=
  congrArg (fun b => { sda0 s with bus := b }) (onPin_blind s.sdaPin false h)

theorem sda1_blind {s : State} (h : Quiet s) : sda1 (blind s) = blind (sda1 s) :=
  congrArg (fun b => { sda1 s with bus := b }) (onPin_blind s.sdaPin true h)

theorem scl0_blind {s : State} (h : Quiet s) : scl0 (blind s) = blind (scl0 s) :=
  congrArg (fun b => { scl0 s with bus := b }) (onPin_blind s.sclPin false h)

theorem scl1_blind {s : State} (h : Quiet s) : scl1 (blind s) = blind (scl1 s) :=
  congrArg (fun b => { scl1 s with bus := b }) (onPin_blind s.sclPin true h)

theorem dly_blind {s : State} (h : Quiet s) : dly (blind s) = blind (dly s) :=
  congrArg (fun b => { dly s with bus := b }) (blindBus_tick (oracleNow s) h).symm

theorem sampleSda_blind {s : State} (h : Quiet s) :
    sampleSda (blind s) = ((sampleSda s).1, blindBus (sampleSda s).2.1, (sampleSda s).2.2) := by
  have e := blindBus_tick (oracleNow s) h
  have a : ∀ o b, (blindBus b).answer o = ((b.answer o).1, blindBus (b.answer o).2.1, (b.answer o).2.2) := by
    intro o b
    unfold Bus.answer
    cases hs : b.script <;> simp [blindBus, hs]
  unfold sampleSda
  dsimp only
  show (if readable s then _ else _) = _
  split
  · show (decide (s.sdaDrv = .rel) && ((blindBus s.bus).answer (oracleNow s)).1,
      ((blindBus s.bus).answer (oracleNow s)).2.1, ((blindBus s.bus).answer (oracleNow s)).2.2) = _
    rw [← e, a]
  · show (Config.unreadablePin s.epoch s.drawCtr s.trace s.calls, blindBus s.bus, 1) = _
    rw [← e]

theorem rd_blind {s : State} (h : Quiet s) : rd (blind s) = ((rd s).1, blind (rd s).2) :=
  congrArg (fun a : Bool × Bus × Nat => (a.1, { s with
    trace := s.trace ++ [Event.rd a.1]
    calls := s.calls ++ [Call.read s.sdaPin a.1]
    bus := a.2.1
    drawCtr := s.drawCtr + a.2.2 })) (sampleSda_blind h)

/-! ### The procedures -/

theorem putSda_blind {s : State} (b : Bool) (h : Quiet s) : putSda b (blind s) = blind (putSda b s) := by
  cases b
  · exact sda0_blind h
  · exact sda1_blind h

theorem pulse_blind {s : State} (h : Quiet s) : pulse (blind s) = blind (pulse s) := by
  have r := Runs.refl s
  unfold pulse
  rw [scl1_blind h, dly_blind (r.scl1.quiet h), scl0_blind (r.scl1.dly.quiet h), dly_blind (r.scl1.dly.scl0.quiet h)]

theorem samplePulse_blind {s : State} (h : Quiet s) :
    samplePulse (blind s) = ((samplePulse s).1, blind (samplePulse s).2) := by
  have r := Runs.refl s
  unfold samplePulse
  rw [scl1_blind h, dly_blind (r.scl1.quiet h), rd_blind (r.scl1.dly.quiet h)]
  dsimp only
  rw [scl0_blind (r.scl1.dly.rd.quiet h), dly_blind (r.scl1.dly.rd.scl0.quiet h)]

theorem sendBits_blind {s : State} (bs : List Bool) (h : Quiet s) : sendBits bs (blind s) = blind (sendBits bs s) := by
  induction bs generalizing s with
  | nil => rfl
  | cons b bs ih =>
    have r := runs_putSda b s
    unfold sendBits
    rw [putSda_blind b h, pulse_blind (r.quiet h), ih ((r.trans (runs_pulse _)).quiet h)]

theorem doWriteByte_blind {s : State} (b : Byte) (h : Quiet s) :
    doWriteByte b (blind s) = ((doWriteByte b s).1, blind (doWriteByte b s).2) := by
  have r := ((Runs.refl s).setSr b).trans (runs_sendBits (bitsMsbFirst b) _)
  have e : sendBits (bitsMsbFirst b) (writeSr b (blind s)) = blind (sendBits (bitsMsbFirst b) (writeSr b s)) :=
    sendBits_blind _ (s := writeSr b s) h
  unfold doWriteByte
  rw [e, sda1_blind (r.quiet h), samplePulse_blind (r.sda1.quiet h)]
  dsimp only
  rw [sda0_blind ((r.sda1.trans (runs_samplePulse _)).quiet h)]
  rfl

theorem recvBits_blind {s : State} (n : Nat) (h : Quiet s) : recvBits n (blind s) = blind (recvBits n s) := by
  induction n generalizing s with
  | zero => rfl
  | succ n ih =>
    unfold recvBits
    rw [samplePulse_blind h]
    exact ih (s := writeSr (shiftIn (samplePulse s).2.sr (samplePulse s).1) (samplePulse s).2)
      ((runs_samplePulse s).quiet h)

theorem doReadByte_blind {s : State} (last : Bool) (h : Quiet s) :
    doReadByte last (blind s) = ((doReadByte last s).1, blind (doReadByte last s).2) := by
  have r := ((Runs.refl s).sda1.setSr 0x00#8).trans (runs_recvBits 8 _)
  have e : recvBits 8 (writeSr 0x00#8 (sda1 (blind s))) = blind (recvBits 8 (writeSr 0x00#8 (sda1 s))) := by
    rw [sda1_blind h]
    exact recvBits_blind 8 (s := writeSr 0x00#8 (sda1 s)) ((Runs.refl s).sda1.quiet h)
  have r' := r.trans (runs_putSda last _)
  unfold doReadByte
  rw [e, putSda_blind last (r.quiet h), pulse_blind (r'.quiet h), sda0_blind ((r'.trans (runs_pulse _)).quiet h)]
  rfl

theorem doStart_blind {s : State} (a7 : Addr) (rw : Dir) (h : Quiet s) :
    doStart a7 rw (blind s) = ((doStart a7 rw s).1, blind (doStart a7 rw s).2) := by
  have r := ((Runs.refl s).setOpen true)
  have e : sda0 (writeOpen true (blind s)) = blind (sda0 (writeOpen true s)) := sda0_blind (s := writeOpen true s) h
  unfold doStart
  rw [e, dly_blind (r.sda0.quiet h), scl0_blind (r.sda0.dly.quiet h), dly_blind (r.sda0.dly.scl0.quiet h),
    doWriteByte_blind _ (r.sda0.dly.scl0.dly.quiet h)]

theorem doStop_blind {s : State} (h : Quiet s) : doStop (blind s) = blind (doStop s) := by
  have r := Runs.refl s
  unfold doStop
  rw [sda0_blind h, dly_blind (r.sda0.quiet h), scl1_blind (r.sda0.dly.quiet h), dly_blind (r.sda0.dly.scl1.quiet h),
    sda1_blind (r.sda0.dly.scl1.dly.quiet h)]
  rfl

theorem sendWhileAcked_blind {s : State} (ok : Bool) (bytes : List Byte) (h : Quiet s) :
    sendWhileAcked ok bytes (blind s) = ((sendWhileAcked ok bytes s).1, blind (sendWhileAcked ok bytes s).2) := by
  induction bytes generalizing s ok with
  | nil => cases ok <;> rfl
  | cons b bytes ih =>
    cases ok
    · rfl
    · unfold sendWhileAcked
      rw [doWriteByte_blind b h]
      exact ih _ ((runs_doWriteByte b s).quiet h)

theorem doWriteN_blind {s : State} (a7 : Addr) (bytes : List Byte) (h : Quiet s) :
    doWriteN a7 bytes (blind s) = ((doWriteN a7 bytes s).1, blind (doWriteN a7 bytes s).2) := by
  have h1 := (runs_doStart a7 .write s).quiet h
  unfold doWriteN
  simp only [doStart_blind a7 .write h, sendWhileAcked_blind _ _ h1, doStop_blind ((runs_sendWhileAcked _ _ _).quiet h1)]

theorem readBytes_blind {s : State} (n : Nat) (h : Quiet s) :
    readBytes n (blind s) = ((readBytes n s).1, blind (readBytes n s).2) := by
  induction n generalizing s with
  | zero => rfl
  | succ n ih => simp only [readBytes, doReadByte_blind _ h, ih ((runs_doReadByte _ s).quiet h)]

theorem doReadN_blind {s : State} (a7 : Addr) (n : Nat) (h : Quiet s) :
    doReadN a7 n (blind s) = ((doReadN a7 n s).1, blind (doReadN a7 n s).2) := by
  have h1 := (runs_doStart a7 .read s).quiet h
  unfold doReadN
  simp only [doStart_blind a7 .read h, readBytes_blind _ h1, doStop_blind ((runs_readBytes _ _).quiet h1), doStop_blind h1]
  split <;> rfl

theorem doProbe_blind {s : State} (a7 : Addr) (h : Quiet s) :
    doProbe a7 (blind s) = ((doProbe a7 s).1, blind (doProbe a7 s).2) := by
  unfold doProbe
  simp only [doStart_blind a7 .write h, doStop_blind ((runs_doStart a7 .write s).quiet h)]

theorem doReadReg_blind {s : State} (a7 : Addr) (reg : Byte) (n : Nat) (h : Quiet s) :
    doReadReg a7 reg n (blind s) = ((doReadReg a7 reg n s).1, blind (doReadReg a7 reg n s).2) := by
  unfold doReadReg
  simp only [doWriteN_blind a7 [reg] h, doReadN_blind a7 n ((runs_doWriteN a7 [reg] s).quiet h)]
  split <;> rfl

theorem readAndTest_blind {s : State} (a7 : Addr) (reg : Byte) (test : Byte → Bool) (hit : Kind) (h : Quiet s) :
    readAndTest a7 reg test hit (blind s) =
      ((readAndTest a7 reg test hit s).1, blind (readAndTest a7 reg test hit s).2) := by
  unfold readAndTest
  simp only [doReadReg_blind a7 reg 1 h]
  split <;> rfl

theorem writeAndEcho_blind {s : State} (a7 : Addr) (reg val : Byte) (h : Quiet s) :
    writeAndEcho a7 reg val (blind s) = ((writeAndEcho a7 reg val s).1, blind (writeAndEcho a7 reg val s).2) := by
  unfold writeAndEcho
  simp only [doWriteN_blind a7 [reg, val] h, readAndTest_blind _ _ _ _ ((runs_doWriteN a7 [reg, val] s).quiet h)]
  split <;> rfl

theorem doIdentify_blind {s : State} (a7 : Addr) (h : Quiet s) :
    doIdentify a7 (blind s) = ((doIdentify a7 s).1, blind (doIdentify a7 s).2) := by
  unfold doIdentify
  simp only [readAndTest_blind _ _ _ _ h, writeAndEcho_blind _ _ _ h, show (blind s).params = s.params from rfl]
  split
  · rfl
  · split
    · rfl
    · split
      · rfl
      · split <;> rfl

/-! ### The scan -/

/-- The same visit with SCL forgotten. -/
def Visit.blind : Visit → Visit
  | .over s => .over (Machine.blind s)
  | .goOn s => .goOn (Machine.blind s)

theorem scanVisit_blind {s : State} (h : Quiet s) : scanVisit (blind s) = (scanVisit s).blind := by
  have h1 := (runs_doProbe (s.scanAddr.setWidth 7) s).quiet h
  unfold scanVisit
  simp only [show (blind s).scanAddr = s.scanAddr from rfl, doProbe_blind _ h]
  generalize doProbe (s.scanAddr.setWidth 7) s = p at h1 ⊢
  simp only [show (blind p.2).scanAddr = p.2.scanAddr from rfl, doIdentify_blind _ h1,
    show (blind p.2).badCnt = p.2.badCnt from rfl]
  split
  · split
    · split <;> rfl
    · split <;> rfl
  · rfl

theorem scanVisit_quiet {s t : State} (h : Quiet s) (hv : scanVisit s = .goOn t) : Quiet t := by
  have h1 := (runs_doProbe (s.scanAddr.setWidth 7) s).quiet h
  unfold scanVisit at hv
  dsimp only at hv
  generalize doProbe (s.scanAddr.setWidth 7) s = p at h1 hv
  split at hv
  · split at hv
    · split at hv
      · cases hv
      · cases hv
        exact h1
    · split at hv
      · cases hv
        exact (runs_doIdentify _ p.2).quiet h1
      · cases hv
  · cases hv
    exact h1

theorem scanFrom_blind {s : State} (n : Nat) (h : Quiet s) : scanFrom n (blind s) = blind (scanFrom n s) := by
  induction n generalizing s with
  | zero => rfl
  | succ n ih =>
    unfold scanFrom
    rw [scanVisit_blind h]
    rcases hv : scanVisit s with t | t
    · rfl
    · have hq : Quiet t := scanVisit_quiet h hv
      exact ih (s := { t with scanAddr := t.scanAddr + 1 }) hq

end Sys2Proof.Machine
end

