-- ==== Sys2Proof/Laws/PerInstr.lean ====
section
/-! SUPPORT. What holds of every command as syntax: its word, under the mask of its row of the opcode map, is the match of
that row (30_encoding.md R103). -/

namespace Sys2Proof.Laws.Selects

open Sys2Proof.Safety

/-- The word of the command selects the command's row. -/
def Statement (i : Instr) : Prop := encode i &&& maskOf i = matchOf i

theorem configure (sda scl : Byte) (speed : BitVec 32) : Statement (.configure sda scl speed) := by
  apply BitVec.eq_of_getLsbD_eq
  intro k hk
  simp only [encode, maskOf, matchOf, BitVec.getLsbD_and, BitVec.getLsbD_append]
  interval_cases k <;> simp

theorem start (a7 : Addr) (rw : Dir) : Statement (.start a7 rw) := by
  apply BitVec.eq_of_getLsbD_eq
  intro k hk
  simp only [encode, maskOf, matchOf, BitVec.getLsbD_and, BitVec.getLsbD_append]
  interval_cases k <;> simp

theorem stop : Statement .stop := by
  unfold Statement
  decide

theorem writeByte (b : Byte) : Statement (.writeByte b) := by
  apply BitVec.eq_of_getLsbD_eq
  intro k hk
  simp only [encode, maskOf, matchOf, BitVec.getLsbD_and, BitVec.getLsbD_append]
  interval_cases k <;> simp

theorem readByte (last : Bool) : Statement (.readByte last) := by
  unfold Statement
  cases last <;> decide

theorem writeN (a7 : Addr) (len : Byte) : Statement (.writeN a7 len) := by
  apply BitVec.eq_of_getLsbD_eq
  intro k hk
  simp only [encode, maskOf, matchOf, BitVec.getLsbD_and, BitVec.getLsbD_append]
  interval_cases k <;> simp

theorem readN (a7 : Addr) (len : Byte) : Statement (.readN a7 len) := by
  apply BitVec.eq_of_getLsbD_eq
  intro k hk
  simp only [encode, maskOf, matchOf, BitVec.getLsbD_and, BitVec.getLsbD_append]
  interval_cases k <;> simp

theorem probe (a7 : Addr) : Statement (.probe a7) := by
  apply BitVec.eq_of_getLsbD_eq
  intro k hk
  simp only [encode, maskOf, matchOf, BitVec.getLsbD_and, BitVec.getLsbD_append]
  interval_cases k <;> simp

theorem readReg (a7 : Addr) (reg len : Byte) : Statement (.readReg a7 reg len) := by
  apply BitVec.eq_of_getLsbD_eq
  intro k hk
  simp only [encode, maskOf, matchOf, BitVec.getLsbD_and, BitVec.getLsbD_append]
  interval_cases k <;> simp

theorem scan : Statement .scan := by
  unfold Statement
  decide

theorem identify (a7 : Addr) : Statement (.identify a7) := by
  apply BitVec.eq_of_getLsbD_eq
  intro k hk
  simp only [encode, maskOf, matchOf, BitVec.getLsbD_and, BitVec.getLsbD_append]
  interval_cases k <;> simp

theorem wrTx (idx val : Byte) : Statement (.wrTx idx val) := by
  apply BitVec.eq_of_getLsbD_eq
  intro k hk
  simp only [encode, maskOf, matchOf, BitVec.getLsbD_and, BitVec.getLsbD_append]
  interval_cases k <;> simp

theorem rdRx (idx : Byte) : Statement (.rdRx idx) := by
  apply BitVec.eq_of_getLsbD_eq
  intro k hk
  simp only [encode, maskOf, matchOf, BitVec.getLsbD_and, BitVec.getLsbD_append]
  interval_cases k <;> simp

theorem rdStat (sel : View) : Statement (.rdStat sel) := by
  unfold Statement
  cases sel <;> decide

end Sys2Proof.Laws.Selects
end

