-- ==== Sys2Proof/Laws/Step.lean ====
section
/-! SUPPORT. What a step finds on the command port, and the meanings behind their checks, said once. -/

namespace Sys2Proof.Machine

open Safety

theorem port_nothing {s : State} (h : s.inputs = []) : port s = .quiet := by
  simp only [port, h]

theorem port_reset {s : State} {rest : List Input} (h : s.inputs = .reset :: rest) : port s = .reset rest := by
  simp only [port, h]

theorem port_abort {s : State} {w : Word} {n : Nat} {rest : List Input} (h : s.inputs = .resetDuring w n :: rest) :
    port s = .abort w n rest := by
  simp only [port, h]

theorem port_takes {s : State} {w : Word} {rest : List Input} (h : Takes s w rest) : port s = .take w rest := by
  simp only [port, h.2, h.1, if_true]

/-- Every state that a reset leaves has the values of the table of 10_state.md R48. -/
theorem afterReset_values (p : Params) (i : List Input) (b : Bus) (d e : Nat) :
    ResetValues (State.afterReset p i b d e) :=
  ⟨rfl, rfl, rfl, rfl, rfl, rfl, rfl, rfl, rfl, rfl, rfl, rfl, rfl, rfl, rfl, rfl, rfl, rfl,
    by simp [State.afterReset], by simp [State.afterReset]⟩

/-- A command whose lengths do not fit is refused before anything else (30_encoding.md R110, R113). -/
theorem exec_badArg (i : Instr) (s : State) (h : i.fits s.params.bufLen = false) :
    exec i s = .next (refuse .badArg s) := by
  cases i <;> first
    | exact Bool.noConfusion h
    | exact congrArg Host.Outcome.next (checkArgs_not h)

/-- A command that fits and needs the handle is refused before CONFIGURE (R110, R112). -/
theorem exec_notConfigured (i : Instr) (s : State) (hf : i.fits s.params.bufLen = true) (hn : i.needsHandle = true)
    (hc : s.configured = false) : exec i s = .next (refuse .notConfigured s) := by
  cases i <;> first
    | exact Bool.noConfusion hn
    | exact congrArg Host.Outcome.next (checkHandle_not hc)
    | exact congrArg Host.Outcome.next ((checkArgs_of hf).trans (checkHandle_not hc))

end Sys2Proof.Machine
end

