-- ==== Sys2Proof/Laws/Traffic.lean ====
section
/-! SUPPORT. What holds of the traffic of every command, said once: how traces compose, how long the pieces are, what they do
to the lines and put on the wire. -/

namespace Sys2Proof.Safety

open Machine

/-! ### Composition -/

theorem sdaAfter_append (d : Drive) (es es' : List Event) : sdaAfter d (es ++ es') = sdaAfter (sdaAfter d es) es' := by
  induction es generalizing d with
  | nil => rfl
  | cons e es ih => cases e <;> exact ih _

theorem sclAfter_append (d : Drive) (es es' : List Event) : sclAfter d (es ++ es') = sclAfter (sclAfter d es) es' := by
  induction es generalizing d with
  | nil => rfl
  | cons e es ih => cases e <;> exact ih _

theorem conditions_append (a b : Drive) (es es' : List Event) :
    conditions a b (es ++ es') = conditions a b es ++ conditions (sdaAfter a es) (sclAfter b es) es' := by
  induction es generalizing a b with
  | nil => rfl
  | cons e es ih =>
    cases e <;> cases a <;> cases b <;> simp only [List.cons_append, conditions, sdaAfter, sclAfter, ih]

theorem readsReleased_nil (a b : Drive) : readsReleased a b [] := by
  intro before k after h
  cases before <;> cases h

theorem readsReleased_append {a b : Drive} {es es' : List Event} (h : readsReleased a b es)
    (h' : readsReleased (sdaAfter a es) (sclAfter b es) es') : readsReleased a b (es ++ es') := by
  intro before k after e
  obtain ⟨xs, h1, h2⟩ | ⟨xs, h1, h2⟩ := List.append_eq_append_iff.mp e
  · have := h' xs k after h2
    rwa [h1, sdaAfter_append, sclAfter_append]
  · cases xs with
    | nil =>
      have := h' [] k after (by simpa using h2.symm)
      rw [List.append_nil] at h1
      rw [← h1]
      exact this
    | cons y ys =>
      simp only [List.cons_append, List.cons.injEq] at h2
      exact h before k ys (by rw [h1, h2.1])

theorem readsReleased_cons {a b : Drive} {e : Event} {es : List Event} (he : ∀ k, e ≠ .rd k)
    (h : readsReleased (sdaAfter a [e]) (sclAfter b [e]) es) : readsReleased a b (e :: es) := by
  refine readsReleased_append (es := [e]) (fun before k after h1 => ?_) h
  cases before with
  | nil => simp only [List.nil_append, List.cons.injEq] at h1; exact absurd h1.1 (he k)
  | cons y ys => simp at h1

theorem readsReleased_rd {k : Bool} {es : List Event} (h : readsReleased .rel .rel es) :
    readsReleased .rel .rel (.rd k :: es) := by
  refine readsReleased_append (es := [.rd k]) (fun before k' after h1 => ?_) h
  cases before with
  | nil => exact ⟨rfl, rfl⟩
  | cons y ys => simp at h1

/-! ### A property of every traffic -/

/-- A property of event lists that the pieces have and composition keeps. -/
structure Composes (Q : List Event → Prop) : Prop where
  nil : Q []
  append : ∀ es es', Q es → Q es' → Q (es ++ es')
  started : ∀ a7 rw k, Q (started a7 rw k).events
  stopped : Q stopped.events
  sent : ∀ b k, Q (sent b k).events
  received : ∀ ks last, Q (received ks last).events

variable {Q : List Event → Prop}

theorem Composes.andThen (c : Composes Q) {x y : Traffic} (hx : Q x.events) (hy : Q y.events) :
    Q (x.andThen y).events :=
  c.append _ _ hx hy

theorem Composes.sentBytes (c : Composes Q) {bytes : List Byte} {x : Traffic} {ok : Bool} (h : SentBytes bytes x ok) :
    Q x.events := by
  induction h with
  | done => exact c.nil
  | nack b _ => exact c.sent b true
  | ack b _ ih => exact c.andThen (c.sent b false) ih

theorem Composes.readBytes (c : Composes Q) {n : Nat} {x : Traffic} {bytes : List Byte} (h : ReadBytes n x bytes) :
    Q x.events := by
  induction h with
  | done => exact c.nil
  | more ks _ _ ih => exact c.andThen (c.received ks _) ih

theorem Composes.writeTx (c : Composes Q) {a7 : Addr} {bytes : List Byte} {x : Traffic} {ok : Bool}
    (h : WriteTx a7 bytes x ok) : Q x.events := by
  cases h with
  | absent => exact c.andThen (c.started _ _ _) c.stopped
  | answered h => exact c.andThen (c.started _ _ _) (c.andThen (c.sentBytes h) c.stopped)

theorem Composes.readTx (c : Composes Q) {a7 : Addr} {n : Nat} {x : Traffic} {r : Option (List Byte)}
    (h : ReadTx a7 n x r) : Q x.events := by
  cases h with
  | absent => exact c.andThen (c.started _ _ _) c.stopped
  | answered h => exact c.andThen (c.started _ _ _) (c.andThen (c.readBytes h) c.stopped)

theorem Composes.regRead (c : Composes Q) {a7 : Addr} {reg : Byte} {n : Nat} {x : Traffic} {r : Option (List Byte)}
    (h : RegRead a7 reg n x r) : Q x.events := by
  cases h with
  | refused h => exact c.writeTx h
  | granted h h' => exact c.andThen (c.writeTx h) (c.readTx h')

theorem Composes.probed (c : Composes Q) (a7 : Addr) (k : Bool) : Q (probed a7 k).events :=
  c.andThen (c.started _ _ _) c.stopped

theorem Composes.identified (c : Composes Q) {p : Params} {a7 : Addr} {x : Traffic} {k : Kind}
    (h : Identified p a7 x k) : Q x.events := by
  cases h with
  | uv _ h => exact c.regRead h
  | co2 => exact c.nil
  | rtcA _ _ _ h => exact c.regRead h
  | rtcBUnwritten _ _ _ _ h => exact c.writeTx h
  | rtcB _ _ _ _ h h' => exact c.andThen (c.writeTx h) (c.regRead h')
  | imu _ _ _ _ h => exact c.regRead h

theorem Composes.scanned (c : Composes Q) {p : Params} {a bad n : Nat} {x : Traffic} {e : ScanEnd}
    (h : Scanned p a bad x e n) : Q x.events := by
  induction h with
  | exhausted => exact c.nil
  | silent _ _ ih => exact c.andThen (c.probed _ _) ih
  | flagged _ _ _ _ ih => exact c.andThen (c.probed _ _) ih
  | aborted => exact c.probed _ _
  | unknown _ _ hi _ ih => exact c.andThen (c.probed _ _) (c.andThen (c.identified hi) ih)
  | found _ _ _ hi => exact c.andThen (c.probed _ _) (c.identified hi)

/-- Every command appends to the trace events of that property. -/
theorem Composes.exec (c : Composes Q) (i : Instr) (s : State) :
    ∃ es t, Machine.exec i s = .next t ∧ t.trace = s.trace ++ es ∧ Q es := by
  by_cases hf : i.fits s.params.bufLen = true
  · by_cases hc : i.needsHandle = true → s.configured = true
    · cases i with
      | configure sda scl speed => exact ⟨[], _, rfl, (List.append_nil _).symm, c.nil⟩
      | start a7 rw =>
        exact ⟨_, _, congrArg Host.Outcome.next (checkHandle_of (hc rfl)), (did_doStart a7 rw s).trace, c.started _ _ _⟩
      | stop => exact ⟨_, _, congrArg Host.Outcome.next (checkHandle_of (hc rfl)), (did_doStop s).trace, c.stopped⟩
      | writeByte b =>
        exact ⟨_, _, congrArg Host.Outcome.next (checkHandle_of (hc rfl)), (did_doWriteByte b s).trace, c.sent _ _⟩
      | readByte last =>
        obtain ⟨ks, -, -, hd⟩ := did_doReadByte last s
        exact ⟨_, _, congrArg Host.Outcome.next (checkHandle_of (hc rfl)), hd.trace, c.received _ _⟩
      | writeN a7 len =>
        obtain ⟨x, hx, hd⟩ := did_doWriteN a7 (payload s.txbuf len) s
        exact ⟨_, _, congrArg Host.Outcome.next ((checkArgs_of hf).trans (checkHandle_of (hc rfl))), hd.trace,
          c.writeTx hx⟩
      | readN a7 len =>
        obtain ⟨x, hx, hd⟩ := did_doReadN a7 len.toNat s
        refine ⟨_, _, congrArg Host.Outcome.next ((checkArgs_of hf).trans (checkHandle_of (hc rfl))), ?_, c.readTx hx⟩
        simp only [respondRead]
        split <;> exact hd.trace
      | probe a7 =>
        exact ⟨_, _, congrArg Host.Outcome.next (checkHandle_of (hc rfl)), (did_doProbe a7 s).trace, c.probed _ _⟩
      | readReg a7 reg len =>
        obtain ⟨x, hx, hd⟩ := did_doReadReg a7 reg len.toNat s
        refine ⟨_, _, congrArg Host.Outcome.next ((checkArgs_of hf).trans (checkHandle_of (hc rfl))), ?_, c.regRead hx⟩
        simp only [respondRead]
        split <;> exact hd.trace
      | scan =>
        by_cases hl : 4 ≤ s.params.scanLast.toNat
        · obtain ⟨x, e, m, hx, hd, -⟩ := did_scan s hl
          exact ⟨_, _, congrArg Host.Outcome.next (checkHandle_of (hc rfl)), hd.trace, c.scanned hx⟩
        · exact ⟨[], _, congrArg Host.Outcome.next ((checkHandle_of (hc rfl)).trans (scan_empty s (by omega))),
            (List.append_nil _).symm, c.nil⟩
      | identify a7 =>
        obtain ⟨x, hx, hd⟩ := did_doIdentify a7 s
        exact ⟨_, _, congrArg Host.Outcome.next (checkHandle_of (hc rfl)), hd.trace, c.identified hx⟩
      | wrTx idx val => exact ⟨[], _, congrArg Host.Outcome.next (checkArgs_of hf), (List.append_nil _).symm, c.nil⟩
      | rdRx idx => exact ⟨[], _, congrArg Host.Outcome.next (checkArgs_of hf), (List.append_nil _).symm, c.nil⟩
      | rdStat sel => exact ⟨[], _, rfl, (List.append_nil _).symm, c.nil⟩
    · have hh : i.needsHandle = true ∧ s.configured = false := by
        cases hn : i.needsHandle <;> cases hcc : s.configured <;> simp_all
      exact ⟨[], _, exec_notConfigured i s hf hh.1 hh.2, (List.append_nil _).symm, c.nil⟩
  · exact ⟨[], _, exec_badArg i s (by simpa using hf), (List.append_nil _).symm, c.nil⟩

end Sys2Proof.Safety
end

