-- ==== Sys2Proof/Laws/Pins.lean ====
section
/-! SUPPORT. What a stretch of a command makes of the pins (40_microops.md R131 to R134, R138, R139), and what `rst` inside
one leaves (70_reset_and_hazards.md R271). -/

namespace Sys2Proof.Safety

open Machine

/-- A pin's membership in the held pins as a drive state, and back. -/
theorem low_iff (b : Prop) [Decidable b] : (if b then Drive.low else .rel) = .low ↔ b := by
  by_cases h : b <;> simp [h]

theorem drive_low (d : Drive) : (if d = .low then Drive.low else .rel) = d := by cases d <;> rfl

theorem pinAfter_append (s : State) (p : Byte) (d : Drive) (es es' : List Event) :
    pinAfter s p d (es ++ es') = pinAfter s p (pinAfter s p d es) es' := by
  induction es generalizing d with
  | nil => rfl
  | cons e es ih => cases e <;> exact ih _

/-- Only the handle and the port codes count. -/
theorem pinAfter_congr {s t : State} (hp : t.params = s.params) (ha : t.sdaPin = s.sdaPin) (hk : t.sclPin = s.sclPin)
    (p : Byte) (d : Drive) (es : List Event) : pinAfter t p d es = pinAfter s p d es := by
  induction es generalizing d with
  | nil => rfl
  | cons e es ih => cases e <;> simp only [pinAfter, ih, hp, ha, hk]

/-- No event, and the pins as they were. -/
theorem PinsAfter.still {s t : State} (h : t.bus = s.bus) : PinsAfter s [] t :=
  ⟨fun p => by rw [h, pinAfter, low_iff], by rw [h], by rw [h]⟩

theorem PinsAfter.trans {s t u : State} {es es' : List Event} (h : PinsAfter s es t) (h' : PinsAfter t es' u)
    (hp : t.params = s.params) (ha : t.sdaPin = s.sdaPin) (hk : t.sclPin = s.sclPin) : PinsAfter s (es ++ es') u where
  pins p := by
    rw [h'.pins, pinAfter_congr hp ha hk, pinAfter_append]
    simp only [h.pins, drive_low]
  sdaAt := h'.sdaAt.trans h.sdaAt
  sclAt := h'.sclAt.trans h.sclAt

/-- A pin that is not configured stands (70_reset_and_hazards.md R282). -/
theorem pinAfter_other {s : State} {p : Byte} (ha : p ≠ s.sdaPin) (hk : p ≠ s.sclPin) (d : Drive) (es : List Event) :
    pinAfter s p d es = d := by
  induction es generalizing d with
  | nil => rfl
  | cons e es ih => cases e <;> simp only [pinAfter, ha, hk, false_and, if_false, ih]

end Sys2Proof.Safety

namespace Sys2Proof.Machine

open Safety

/-! ### One event -/

/-- An operation on a pin, seen from the pins: that pin is held or not, if it is supported, and no other moves. -/
theorem onPin_pins (pin : Byte) (r : Bool) (s : State) :
    (onPin pin r s).held = (if supported s.params pin then movePin r pin s.bus.held else s.bus.held) ∧
      (onPin pin r s).sdaAt = s.bus.sdaAt ∧ (onPin pin r s).sclAt = s.bus.sclAt := by
  unfold onPin
  dsimp only
  split
  · split <;> simp
  · simp

/-- The event `e` makes of the pins what `pinsAfter` says, and leaves where the bus hangs. -/
structure Moves (s : State) (e : Event) (b : Bus) : Prop where
  held : b.held = pinsAfter s s.bus.held e
  sdaAt : b.sdaAt = s.bus.sdaAt
  sclAt : b.sclAt = s.bus.sclAt

theorem moves_sda0 (s : State) : Moves s .sda0 (sda0 s).bus :=
  ⟨(onPin_pins _ _ s).1, (onPin_pins _ _ s).2.1, (onPin_pins _ _ s).2.2⟩

theorem moves_sda1 (s : State) : Moves s .sda1 (sda1 s).bus :=
  ⟨(onPin_pins _ _ s).1, (onPin_pins _ _ s).2.1, (onPin_pins _ _ s).2.2⟩

theorem moves_scl0 (s : State) : Moves s .scl0 (scl0 s).bus :=
  ⟨(onPin_pins _ _ s).1, (onPin_pins _ _ s).2.1, (onPin_pins _ _ s).2.2⟩

theorem moves_scl1 (s : State) : Moves s .scl1 (scl1 s).bus :=
  ⟨(onPin_pins _ _ s).1, (onPin_pins _ _ s).2.1, (onPin_pins _ _ s).2.2⟩

theorem moves_dly (s : State) : Moves s .dly (dly s).bus := by
  rw [dly_bus]
  exact ⟨tick_held _ _, tick_sdaAt _ _, tick_sclAt _ _⟩

theorem moves_rd (s : State) : Moves s (.rd (rd s).1) (rd s).2.bus := by
  rw [rd_bus]
  unfold sampleSda
  dsimp only
  split <;> exact ⟨by simp [pinsAfter, pinMove], by simp, by simp⟩

/-- The list of the held pins after an event, seen from one pin. -/
theorem mem_pinsAfter (s : State) (held : List Byte) (e : Event) (p : Byte) :
    p ∈ pinsAfter s held e ↔ pinAfter s p (if p ∈ held then .low else .rel) [e] = .low := by
  have key : ∀ (pin : Byte) (r : Bool),
      (p ∈ if supported s.params pin then movePin r pin held else held) ↔
        (if p = pin ∧ supported s.params p = true then (if r then Drive.rel else .low)
          else if p ∈ held then .low else .rel) = .low := by
    intro pin r
    by_cases hs : supported s.params pin = true
    · rw [if_pos hs, mem_movePin]
      by_cases h : p = pin
      · subst h
        cases r <;> simp [hs]
      · simp [h]
    · rw [if_neg hs]
      by_cases h : p = pin
      · subst h
        simp [hs]
      · simp [h]
  cases e with
  | sda0 => exact key s.sdaPin false
  | sda1 => exact key s.sdaPin true
  | scl0 => exact key s.sclPin false
  | scl1 => exact key s.sclPin true
  | dly => exact (low_iff _).symm
  | rd => exact (low_iff _).symm

theorem Moves.pins {s t : State} {e : Event} (h : Moves s e t.bus) : PinsAfter s [e] t :=
  ⟨fun p => by rw [h.held, mem_pinsAfter], h.sdaAt, h.sclAt⟩

/-! ### Many events -/

/-- A run of the engine leaves the pins as its events make them. -/
theorem Runs.pins {s t : State} (h : Runs s t) : ∃ es, t.trace = s.trace ++ es ∧ PinsAfter s es t := by
  have step : ∀ {t u : State} {e : Event}, Runs s t → u.trace = t.trace ++ [e] → Moves t e u.bus →
      (∃ es, t.trace = s.trace ++ es ∧ PinsAfter s es t) → ∃ es, u.trace = s.trace ++ es ∧ PinsAfter s es u := by
    rintro t u e r ht hp ⟨es, h1, h2⟩
    have q := r.engineOnly
    exact ⟨es ++ [e], by rw [ht, h1, List.append_assoc],
      h2.trans hp.pins q.world.params q.handle.sdaPin q.handle.sclPin⟩
  induction h with
  | refl => exact ⟨[], by simp, .still rfl⟩
  | sda0 r ih => exact step r rfl (moves_sda0 _) ih
  | sda1 r ih => exact step r rfl (moves_sda1 _) ih
  | scl0 r ih => exact step r rfl (moves_scl0 _) ih
  | scl1 r ih => exact step r rfl (moves_scl1 _) ih
  | dly r ih => exact step r rfl (moves_dly _) ih
  | rd r ih => exact step r rfl (moves_rd _) ih
  | setSr _ _ ih | setAck _ _ ih | setOpen _ _ ih =>
    obtain ⟨es, h1, h2⟩ := ih
    exact ⟨es, h1, h2.pins, h2.sdaAt, h2.sclAt⟩

/-- So do the effects of a command. -/
theorem Effects.pins {s t : State} (h : Effects s t) : ∃ es, t.trace = s.trace ++ es ∧ PinsAfter s es t := by
  induction h with
  | refl => exact ⟨[], by simp, .still rfl⟩
  | run h r ih =>
    obtain ⟨es, h1, h2⟩ := ih
    obtain ⟨es', h3, h4⟩ := r.pins
    exact ⟨es ++ es', by rw [h3, h1, List.append_assoc],
      h2.trans h4 h.world.params h.handle.sdaPin h.handle.sclPin⟩
  | write _ e _ _ ih =>
    obtain ⟨es, h1, h2⟩ := ih
    exact ⟨es, by rw [e.trace, h1], by rw [e.bus]; exact h2.pins, by rw [e.bus]; exact h2.sdaAt,
      by rw [e.bus]; exact h2.sclAt⟩

/-! ### Pins that the bus does not hang on -/

/-- Two pins are configured, neither wire hangs on one of them, and nobody else moves SCL. -/
structure Beside (s : State) : Prop where
  twoPins : s.sdaPin ≠ s.sclPin
  sdaAt : s.bus.sdaAt ∉ [s.sdaPin, s.sclPin]
  sclAt : s.bus.sclAt ∉ [s.sdaPin, s.sclPin]
  clockScript : s.bus.sclScript = []

theorem Beside.onPin {s : State} {pin : Byte} (h : Beside s) (hp : pin = s.sdaPin ∨ pin = s.sclPin) (r : Bool) :
    (onPin pin r s).rest = s.bus.rest ∧ (onPin pin r s).sclScript = [] := by
  have ho : onePin s = false := by simpa [onePin] using h.twoPins
  have ha := h.sdaAt
  have hk := h.sclAt
  simp only [List.mem_cons, List.not_mem_nil, or_false, not_or] at ha hk
  unfold Machine.onPin
  simp only [ho, tick_still h.clockScript, Bool.false_eq_true, if_false]
  split
  · refine ⟨movePin_beside ?_ ?_, h.clockScript⟩
    · rcases hp with rfl | rfl
      · exact ha.1
      · exact ha.2
    · rcases hp with rfl | rfl
      · exact hk.1
      · exact hk.2
  · exact ⟨rfl, h.clockScript⟩

theorem Beside.dly {s : State} (h : Beside s) : (dly s).bus = s.bus := by
  rw [dly_bus, tick_still h.clockScript]

theorem Beside.rd {s : State} (h : Beside s) : (rd s).2.bus = s.bus := by
  have hr : readable s = false := by
    have ha := h.sdaAt
    simp only [List.mem_cons, not_or] at ha
    simp [readable, Ne.symm ha.1]
  simp only [rd_bus, sampleSda, hr, tick_still h.clockScript, Bool.false_eq_true, if_false]

/-- A run of the engine on such pins is seen by nobody. -/
theorem Runs.beside {s t : State} (h : Runs s t) (hs : Beside s) : t.bus.rest = s.bus.rest ∧ Beside t := by
  have keep : ∀ {u : State}, Runs s u → u.bus.sclScript = [] → Beside u := by
    intro u r hk
    have e := r.engineOnly
    refine ⟨?_, ?_, ?_, hk⟩
    · rw [e.handle.sdaPin, e.handle.sclPin]; exact hs.twoPins
    · rw [e.handle.sdaPin, e.handle.sclPin, r.wiring.1]; exact hs.sdaAt
    · rw [e.handle.sdaPin, e.handle.sclPin, r.wiring.2]; exact hs.sclAt
  induction h with
  | refl => exact ⟨rfl, hs⟩
  | sda0 r ih =>
    obtain ⟨h1, h2⟩ := ih.2.onPin (.inl rfl) false
    exact ⟨h1.trans ih.1, keep r.sda0 h2⟩
  | sda1 r ih =>
    obtain ⟨h1, h2⟩ := ih.2.onPin (.inl rfl) true
    exact ⟨h1.trans ih.1, keep r.sda1 h2⟩
  | scl0 r ih =>
    obtain ⟨h1, h2⟩ := ih.2.onPin (.inr rfl) false
    exact ⟨h1.trans ih.1, keep r.scl0 h2⟩
  | scl1 r ih =>
    obtain ⟨h1, h2⟩ := ih.2.onPin (.inr rfl) true
    exact ⟨h1.trans ih.1, keep r.scl1 h2⟩
  | dly r ih =>
    rw [ih.2.dly]
    exact ⟨ih.1, keep r.dly (by rw [ih.2.dly]; exact ih.2.clockScript)⟩
  | rd r ih =>
    rw [ih.2.rd]
    exact ⟨ih.1, keep r.rd (by rw [ih.2.rd]; exact ih.2.clockScript)⟩
  | setSr b r ih => exact ⟨ih.1, keep (r.setSr b) ih.2.clockScript⟩
  | setAck b r ih => exact ⟨ih.1, keep (r.setAck b) ih.2.clockScript⟩
  | setOpen b r ih => exact ⟨ih.1, keep (r.setOpen b) ih.2.clockScript⟩

/-! ### `rst` inside a command -/

/-- What the reset inside a command makes of the pins is what the events make of each. -/
theorem mem_foldl_pinsAfter (s : State) (es : List Event) (held : List Byte) (p : Byte) :
    p ∈ es.foldl (pinsAfter s) held ↔ pinAfter s p (if p ∈ held then .low else .rel) es = .low := by
  induction es generalizing held with
  | nil => exact (low_iff _).symm
  | cons e es ih =>
    rw [List.foldl_cons, ih, show e :: es = [e] ++ es from rfl, pinAfter_append]
    simp only [mem_pinsAfter, drive_low]

/-- It keeps their canonical form. -/
theorem pinsWf_foldl_pinsAfter (s : State) (es : List Event) {held : List Byte} (h : pinsWf held = true) :
    pinsWf (es.foldl (pinsAfter s) held) = true := by
  induction es generalizing held with
  | nil => exact h
  | cons e es ih =>
    refine ih ?_
    unfold pinsAfter
    split
    · split
      · exact pinsWf_movePin _ _ h
      · exact h
    · exact h

/-- `rst` after so many micro-operations leaves the pins as those left them. -/
theorem resetMidCommand_pins (ran : List Event) (rest : List Input) (s : State) :
    PinsAfter s ran (resetMidCommand ran rest s) :=
  ⟨fun p => mem_foldl_pinsAfter s ran s.bus.held p, rfl, rfl⟩

/-- It keeps the canonical form of the bus. -/
theorem resetMidCommand_busWf (ran : List Event) (rest : List Input) (s : State) (h : busWf s.bus = true) :
    busWf (resetMidCommand ran rest s).bus = true := by
  unfold busWf
  rw [Bool.and_eq_true]
  exact ⟨pinsWf_foldl_pinsAfter s ran (busWf_pins h), rfl⟩

/-- The part of a command that has run is a beginning of its events. -/
theorem ranBefore_eq {w : Word} {n : Nat} {s t : State} {i : Instr} {es : List Event} (hd : decode w = .ok i)
    (he : exec i s = .next t) (ht : t.trace = s.trace ++ es) : ranBefore w n s = es.take n := by
  simp only [ranBefore, hd, he, ht, List.drop_left]

theorem ranBefore_none {w : Word} {n : Nat} {s : State} (hd : ∀ i, decode w ≠ .ok i) : ranBefore w n s = [] := by
  unfold ranBefore
  cases h : decode w with
  | ok i => exact absurd h (hd i)
  | error => rfl

end Sys2Proof.Machine
end

