-- ==== Sys2Proof/Laws/Ports.lean ====
section
/-! SUPPORT. The engine reads neither the response port nor TXBUF: another value of them stands through every procedure and
changes nothing else. What the code of a response is, and what `ack` is after a transfer that failed. -/

namespace Sys2Proof.Machine

open Safety

/-! ### Codes and acknowledges -/

theorem codeOf_word (c : BitVec 4) (d : Data) : codeOf (c ++ 0#4 ++ d : BitVec 32) = c := by
  simp only [codeOf]
  apply BitVec.eq_of_getLsbD_eq
  intro k hk
  simp only [BitVec.getLsbD_extractLsb', BitVec.getLsbD_append]
  interval_cases k <;> simp

theorem codeOf_respond (c : Code) (d : Data) (s : State) : codeOf (respond c d s).rspWord = codeBits c :=
  codeOf_word (codeBits c) d

theorem sendWhileAcked_ack (bytes : List Byte) {ok : Bool} {s : State} (h : s.ack = ok) :
    (sendWhileAcked ok bytes s).2.ack = (sendWhileAcked ok bytes s).1 := by
  induction bytes generalizing s ok with
  | nil => cases ok <;> exact h
  | cons b bytes ih =>
    cases ok with
    | false => exact h
    | true => exact ih rfl

theorem doWriteN_ack (a7 : Addr) (bytes : List Byte) (s : State) :
    (doWriteN a7 bytes s).2.ack = (doWriteN a7 bytes s).1 := by
  have := sendWhileAcked_ack bytes (doStart_ack a7 .write s)
  unfold doWriteN
  simp only [doStop_ack, this]

theorem doReadN_ack {a7 : Addr} {n : Nat} {s : State} (h : (doReadN a7 n s).1 = none) :
    (doReadN a7 n s).2.ack = false := by
  unfold doReadN at h ⊢
  dsimp only at h ⊢
  split at h
  · cases h
  · rename_i h1
    rw [if_neg h1]
    rw [Bool.not_eq_true] at h1
    exact h1

theorem doReadReg_ack {a7 : Addr} {reg : Byte} {n : Nat} {s : State} (h : (doReadReg a7 reg n s).1 = none) :
    (doReadReg a7 reg n s).2.ack = false := by
  unfold doReadReg at h ⊢
  dsimp only at h ⊢
  split at h
  · rename_i h1
    rw [if_pos h1]
    exact doReadN_ack h
  · rename_i h1
    rw [if_neg h1]
    rw [Bool.not_eq_true] at h1
    exact (doWriteN_ack _ _ _).trans h1

/-! ### The response port and TXBUF stand -/

/-- The same state with another response port and another TXBUF. -/
def withPorts (r : Response) (ready valid : Bool) (tx : List Byte) (s : State) : State :=
  { s with rspWord := r, cmdReady := ready, rspValid := valid, txbuf := tx }

variable (r : Response) (ready valid : Bool) (tx : List Byte)

theorem respond_withPorts (c : Code) (d : Data) (s : State) :
    respond c d s = withPorts (responseWord c d) true true s.txbuf s := rfl

theorem samplePulse_withPorts (s : State) :
    samplePulse (withPorts r ready valid tx s) = ((samplePulse s).1, withPorts r ready valid tx (samplePulse s).2) := rfl

theorem pulse_withPorts (s : State) : pulse (withPorts r ready valid tx s) = withPorts r ready valid tx (pulse s) := rfl

theorem putSda_withPorts (b : Bool) (s : State) :
    putSda b (withPorts r ready valid tx s) = withPorts r ready valid tx (putSda b s) := by
  cases b <;> rfl

theorem sendBits_withPorts (bs : List Bool) (s : State) :
    sendBits bs (withPorts r ready valid tx s) = withPorts r ready valid tx (sendBits bs s) := by
  induction bs generalizing s with
  | nil => rfl
  | cons b bs ih => simp only [sendBits, putSda_withPorts, pulse_withPorts, ih]

theorem doWriteByte_withPorts (b : Byte) (s : State) :
    doWriteByte b (withPorts r ready valid tx s) =
      ((doWriteByte b s).1, withPorts r ready valid tx (doWriteByte b s).2) := by
  have h : sendBits (bitsMsbFirst b) (writeSr b (withPorts r ready valid tx s)) =
      withPorts r ready valid tx (sendBits (bitsMsbFirst b) (writeSr b s)) := sendBits_withPorts _ _ _ _ _ (writeSr b s)
  unfold doWriteByte
  rw [h]
  rfl

theorem recvBits_withPorts (n : Nat) (s : State) :
    recvBits n (withPorts r ready valid tx s) = withPorts r ready valid tx (recvBits n s) := by
  induction n generalizing s with
  | zero => rfl
  | succ n ih => exact ih (writeSr (shiftIn (samplePulse s).2.sr (samplePulse s).1) (samplePulse s).2)

theorem doReadByte_withPorts (last : Bool) (s : State) :
    doReadByte last (withPorts r ready valid tx s) =
      ((doReadByte last s).1, withPorts r ready valid tx (doReadByte last s).2) := by
  have e : writeSr 0x00#8 (sda1 (withPorts r ready valid tx s)) =
      withPorts r ready valid tx (writeSr 0x00#8 (sda1 s)) := rfl
  unfold doReadByte
  rw [e, recvBits_withPorts, putSda_withPorts, pulse_withPorts]
  generalize pulse (putSda last (recvBits 8 (writeSr 0x00#8 (sda1 s)))) = q
  rfl

theorem doStart_withPorts (a7 : Addr) (rw : Dir) (s : State) :
    doStart a7 rw (withPorts r ready valid tx s) =
      ((doStart a7 rw s).1, withPorts r ready valid tx (doStart a7 rw s).2) := by
  have h : dly (scl0 (dly (sda0 (writeOpen true (withPorts r ready valid tx s))))) =
      withPorts r ready valid tx (dly (scl0 (dly (sda0 (writeOpen true s))))) := rfl
  unfold doStart
  rw [h, doWriteByte_withPorts]

theorem doStop_withPorts (s : State) : doStop (withPorts r ready valid tx s) = withPorts r ready valid tx (doStop s) :=
  rfl

theorem sendWhileAcked_withPorts (ok : Bool) (bytes : List Byte) (s : State) :
    sendWhileAcked ok bytes (withPorts r ready valid tx s) =
      ((sendWhileAcked ok bytes s).1, withPorts r ready valid tx (sendWhileAcked ok bytes s).2) := by
  induction bytes generalizing s ok with
  | nil => cases ok <;> rfl
  | cons b bytes ih => cases ok <;> simp only [sendWhileAcked, doWriteByte_withPorts, ih]

theorem doWriteN_withPorts (a7 : Addr) (bytes : List Byte) (s : State) :
    doWriteN a7 bytes (withPorts r ready valid tx s) =
      ((doWriteN a7 bytes s).1, withPorts r ready valid tx (doWriteN a7 bytes s).2) := by
  unfold doWriteN
  simp only [doStart_withPorts, sendWhileAcked_withPorts, doStop_withPorts]

theorem readBytes_withPorts (n : Nat) (s : State) :
    readBytes n (withPorts r ready valid tx s) =
      ((readBytes n s).1, withPorts r ready valid tx (readBytes n s).2) := by
  induction n generalizing s with
  | zero => rfl
  | succ n ih => simp only [readBytes, doReadByte_withPorts, ih]

theorem doReadN_withPorts (a7 : Addr) (n : Nat) (s : State) :
    doReadN a7 n (withPorts r ready valid tx s) =
      ((doReadN a7 n s).1, withPorts r ready valid tx (doReadN a7 n s).2) := by
  unfold doReadN
  simp only [doStart_withPorts]
  cases (doStart a7 .read s).1 <;> simp [readBytes_withPorts, doStop_withPorts]

end Sys2Proof.Machine
end

