-- ==== Sys2Proof/Laws/Responder.lean ====
section
/-! SUPPORT. What a byte does between the block and one reference responder, said once (20_memory.md R83). -/

namespace Sys2Proof.Machine

open Safety

/-- A bus with the one responder `d`, on which nobody but the block pulls SCL; the block gives SDA `x` and SCL `y`. -/
structure Alone (b : Bus) (d : Responder) (x y : Bool) : Prop where
  script : b.script = []
  rest : b.rest = .responders [d]
  sda : b.masterSda = x
  scl : b.masterScl = y
  clockFree : b.envScl = true
  clockScript : b.sclScript = []

/-- The bus hangs on the configured pins, which can be driven and read. -/
structure Wired (s : State) : Prop where
  readable : readable s = true
  clock : supported s.params s.sclPin = true
  hangs : s.sclPin = s.bus.sclAt

/-- The clock is held low, the block gives SDA `x`, and `d` is alone on the bus. -/
structure At (s : State) (d : Responder) (x : Bool) : Prop where
  wired : Wired s
  bus : Alone s.bus d x false

theorem Wired.data {s : State} (h : Wired s) : supported s.params s.sdaPin = true := by
  have := h.readable
  simp only [Machine.readable, Bool.and_eq_true] at this
  exact this.1.1

theorem Wired.twoPins {s : State} (h : Wired s) : onePin s = false := by
  have := h.readable
  simp only [Machine.readable, Bool.and_eq_true] at this
  simpa using this.1.2

theorem Wired.sdaAt {s : State} (h : Wired s) : s.sdaPin = s.bus.sdaAt := by
  have := h.readable
  simp only [Machine.readable, Bool.and_eq_true, beq_iff_eq] at this
  exact this.2

theorem Wired.twoWires {s : State} (h : Wired s) : s.bus.sdaAt ≠ s.bus.sclAt := by
  have := h.twoPins
  rw [← h.sdaAt, ← h.hangs]
  simpa [onePin] using this

/-- Within a command the bus goes on hanging where it does. -/
theorem Wired.runs {s t : State} (h : Wired s) (r : Runs s t) : Wired t := by
  have e := r.engineOnly
  refine ⟨r.readable.trans h.readable, ?_, ?_⟩
  · rw [e.world.params, e.handle.sclPin]; exact h.clock
  · rw [e.handle.sclPin, r.wiring.2]; exact h.hangs

theorem At.move {s t : State} {d e : Responder} {x y : Bool} (h : At s d x) (r : Runs s t)
    (hb : Alone t.bus e y false) : At t e y := ⟨h.wired.runs r, hb⟩

/-! ### A pin moves -/

/-- The levels of a bus with one responder. -/
theorem Alone.levels {b : Bus} {d : Responder} {x y : Bool} (h : Alone b d x y) (o : Bool) :
    b.scl = y ∧ b.sda o = (x && d.drives) ∧ b.rest.envSda o = d.drives := by
  simp [Bus.scl, Bus.sda, Rest.envSda, h.rest, h.sda, h.scl, h.clockFree]

/-- What the one responder sees of an operation of the data line. -/
theorem Alone.moveSda {b : Bus} {d : Responder} {x y : Bool} (h : Alone b d x y) (hw : b.sdaAt ≠ b.sclAt) (r o : Bool) :
    Alone (b.movePin r b.sdaAt o) (d.sdaEdge y (x && d.drives) (r && d.drives)) r y := by
  have hs := movePin_masterSda r b.sdaAt o b
  have hc := movePin_masterScl r b.sdaAt o b
  rw [if_pos rfl] at hs
  rw [if_neg hw.symm, h.scl] at hc
  refine ⟨h.script, ?_, hs, hc, h.clockFree, h.clockScript⟩
  obtain ⟨h1, h2, h3⟩ := h.levels o
  rw [movePin_rest, hs, hc, h1, h2, h3, h.clockFree, Bool.and_true, h.rest]
  cases y <;> rfl

/-- What it sees of an operation of the clock line. -/
theorem Alone.moveScl {b : Bus} {d : Responder} {x y : Bool} (h : Alone b d x y) (hw : b.sdaAt ≠ b.sclAt) (r o : Bool) :
    Alone (b.movePin r b.sclAt o) (d.sclEdge y r (x && d.drives)) x r := by
  have hs := movePin_masterSda r b.sclAt o b
  have hc := movePin_masterScl r b.sclAt o b
  rw [if_pos rfl] at hc
  rw [if_neg hw, h.sda] at hs
  refine ⟨h.script, ?_, hs, hc, h.clockFree, h.clockScript⟩
  obtain ⟨h1, h2, h3⟩ := h.levels o
  rw [movePin_rest, hs, hc, h1, h2, h3, h.clockFree, Bool.and_true, h.rest]
  have q : d.sdaEdge y (x && d.drives) (x && d.drives) = d := by
    cases y <;> cases (x && d.drives) <;> rfl
  simp only [Rest.map, List.map_cons, List.map_nil, q]

/-- The responder answers an RD(). -/
theorem Alone.answer {b : Bus} {d : Responder} {x y : Bool} (h : Alone b d x y) (o : Bool) :
    b.answer o = (d.drives, b, 0) := by
  simp [Bus.answer, h.script, h.rest, Rest.envSda, Rest.draws]

/-- An operation on one of two supported pins of a bus whose clock nobody else pulls is its movement and nothing else. -/
theorem onPin_move {s : State} {pin : Byte} {r : Bool} (ho : onePin s = false) (hp : supported s.params pin = true)
    (hc : s.bus.sclScript = []) : onPin pin r s = s.bus.movePin r pin (oracleNow s) := by
  simp [onPin, hp, ho, tick_still hc]

theorem dly_alone {s : State} {d : Responder} {x y : Bool} (h : Alone s.bus d x y) : Alone (dly s).bus d x y := by
  rw [dly_bus, tick_still h.clockScript]
  exact h

/-- An operation of the data line. -/
theorem alone_onSda {s : State} {d : Responder} {x y : Bool} (hw : Wired s) (h : Alone s.bus d x y) (r : Bool) :
    Alone (onPin s.sdaPin r s) (d.sdaEdge y (x && d.drives) (r && d.drives)) r y := by
  rw [onPin_move hw.twoPins hw.data h.clockScript, hw.sdaAt]
  exact h.moveSda hw.twoWires r _

/-- An operation of the clock line. -/
theorem alone_onScl {s : State} {d : Responder} {x y : Bool} (hw : Wired s) (h : Alone s.bus d x y) (r : Bool) :
    Alone (onPin s.sclPin r s) (d.sclEdge y r (x && d.drives)) x r := by
  rw [onPin_move hw.twoPins hw.clock h.clockScript, hw.hangs]
  exact h.moveScl hw.twoWires r _

/-- With SCL low a change of SDA is no condition. -/
theorem At.putSda {s : State} {d : Responder} {x : Bool} (h : At s d x) (b : Bool) : At (putSda b s) d b := by
  refine h.move (runs_putSda b s) ?_
  cases b
  · exact alone_onSda h.wired h.bus false
  · exact alone_onSda h.wired h.bus true

theorem At.sda0 {s : State} {d : Responder} {x : Bool} (h : At s d x) : At (sda0 s) d false := h.putSda false
theorem At.sda1 {s : State} {d : Responder} {x : Bool} (h : At s d x) : At (sda1 s) d true := h.putSda true

/-- The bus after SCL has risen: the responder has seen the AND of both. -/
theorem At.rise {s : State} {d : Responder} {x : Bool} (h : At s d x) :
    Alone (dly (scl1 s)).bus (d.onRise (x && d.drives)) x true := dly_alone (alone_onScl h.wired h.bus true)

/-- The bus after SCL has fallen. -/
theorem fall_alone {s : State} {d : Responder} {x : Bool} (hw : Wired s) (h : Alone s.bus d x true) :
    Alone (dly (scl0 s)).bus d.onFall x false := dly_alone (alone_onScl hw h false)

/-- One pulse in which the block sends: the responder sees the AND of both. -/
theorem At.pulse {s : State} {d : Responder} {x : Bool} (h : At s d x) :
    At (pulse s) (d.onRise (x && d.drives)).onFall x :=
  h.move (runs_pulse s) (fall_alone (h.wired.runs (Runs.refl s).scl1.dly) h.rise)

/-- One pulse in which the block samples: it reads what the responder gives after the rise. -/
theorem At.samplePulse {s : State} {d : Responder} {x : Bool} (h : At s d x) (hd : s.sdaDrv = .rel) :
    (samplePulse s).1 = (d.onRise (x && d.drives)).drives ∧
      At (samplePulse s).2 (d.onRise (x && d.drives)).onFall x := by
  have hw : Wired (dly (scl1 s)) := h.wired.runs (Runs.refl s).scl1.dly
  have hb := h.rise
  have hd' : (dly (scl1 s)).sdaDrv = .rel := hd
  have e : sampleSda (dly (scl1 s)) = ((d.onRise (x && d.drives)).drives, (dly (scl1 s)).bus, 0) := by
    unfold sampleSda
    simp only [if_pos hw.readable, hd', tick_still hb.clockScript]
    rw [hb.answer]
    rfl
  refine ⟨by simp only [Machine.samplePulse, rd, e],
    h.move (runs_samplePulse s) (fall_alone (h.wired.runs (Runs.refl s).scl1.dly.rd) ?_)⟩
  rw [rd_bus, e]
  exact hb

/-! ### Bytes -/

/-- The responder is collecting the bits of a byte. -/
def Collects (d : Responder) : Prop := d.phase = .address ∨ d.phase = .pointer ∨ d.phase = .store

theorem Collects.drives {d : Responder} (h : Collects d) (hp : d.pulse ≠ 9) : d.drives = true := by
  have : (d.pulse == 9) = false := by simpa using hp
  rcases h with h | h | h <;> simp [Responder.drives, h, this]

/-- One collected bit. -/
theorem collect_bit {d : Responder} (b : Bool) (h : Collects d) (hp : d.pulse ≠ 9) :
    (d.onRise (b && d.drives)).onFall =
      { d with pulse := d.pulse + 1, clocked := false, acc := shiftIn d.acc b } := by
  have hp' : (d.pulse == 9) = false := by simpa using hp
  rw [h.drives hp, Bool.and_true]
  simp [Responder.onRise, Responder.onFall, hp', shiftIn]

/-- The bits sent, most significant first, are collected in order. -/
theorem At.sendBits {s : State} {d : Responder} {x : Bool} (bs : List Bool) (h : At s d x) (hc : Collects d)
    (hp : d.pulse + bs.length ≤ 9) :
    ∃ y, At (sendBits bs s)
      { d with
        pulse := d.pulse + bs.length
        clocked := if bs.isEmpty then d.clocked else false
        acc := bs.foldl shiftIn d.acc } y := by
  induction bs generalizing s d x with
  | nil => exact ⟨x, by simpa [Machine.sendBits] using h⟩
  | cons b bs ih =>
    simp only [List.length_cons] at hp
    have h1 := (h.putSda b).pulse
    rw [collect_bit b hc (by omega)] at h1
    obtain ⟨y, hy⟩ := ih h1 hc (by simp only; omega)
    refine ⟨y, ?_⟩
    simp only [Machine.sendBits, List.length_cons, List.foldl_cons, List.isEmpty_cons]
    have e : d.pulse + (bs.length + 1) = d.pulse + 1 + bs.length := by omega
    rw [e]
    simpa using hy

theorem foldl_bitsMsbFirst (v : Byte) : (bitsMsbFirst v).foldl shiftIn 0#8 = v := by
  revert v
  decide

/-- A responder at the beginning of a group that it collects. -/
structure Begins (d : Responder) : Prop where
  collects : Collects d
  pulse : d.pulse = 1
  acc : d.acc = 0#8

/-- The responder in the ninth pulse of a collected byte. -/
def ninth (d : Responder) (v : Byte) : Responder := { d with pulse := 9, clocked := false, acc := v }

/-- A byte sent to a responder that collects: acknowledged exactly when the responder pulls SDA in the ninth pulse. -/
theorem At.doWriteByte {s : State} {d : Responder} {x : Bool} (v : Byte) (h : At s d x) (hb : Begins d) :
    (doWriteByte v s).1 = !(ninth d v).drives ∧
      At (doWriteByte v s).2 ({ ninth d v with clocked := true, nack := (ninth d v).drives }).nextGroup false := by
  have h0 : At (writeSr v s) d x := h.move ((Runs.refl s).setSr v) h.bus
  obtain ⟨y, hy⟩ := h0.sendBits (bitsMsbFirst v) hb.collects (by rw [hb.pulse]; exact Nat.le_refl 9)
  have e : ({ d with
      pulse := d.pulse + (bitsMsbFirst v).length
      clocked := if (bitsMsbFirst v).isEmpty then d.clocked else false
      acc := (bitsMsbFirst v).foldl shiftIn d.acc } : Responder) = ninth d v := by
    rw [hb.pulse, hb.acc, foldl_bitsMsbFirst]
    rfl
  rw [e] at hy
  obtain ⟨h1, h2⟩ := hy.sda1.samplePulse rfl
  have hr : (ninth d v).onRise (true && (ninth d v).drives) =
      { ninth d v with clocked := true, nack := (ninth d v).drives } := by
    simp [Responder.onRise, ninth]
  have hf : ({ ninth d v with clocked := true, nack := (ninth d v).drives } : Responder).onFall =
      ({ ninth d v with clocked := true, nack := (ninth d v).drives } : Responder).nextGroup := by
    simp [Responder.onFall, ninth]
  have hd : ({ ninth d v with clocked := true, nack := (ninth d v).drives } : Responder).drives = (ninth d v).drives := by
    simp [Responder.drives]
  rw [hr] at h1 h2
  rw [hd] at h1
  rw [hf] at h2
  refine ⟨by simp only [Machine.doWriteByte, ackOf, h1], ?_⟩
  have h3 := h2.sda0
  exact h3.move ((Runs.refl _).setAck _) h3.bus

/-! ### Reading -/

/-- The `n` low bits of a byte, the highest first. -/
def lowBits (v : Byte) : Nat → List Bool
  | 0 => []
  | n + 1 => v.getLsbD n :: lowBits v n

theorem foldl_lowBits (v : Byte) : (lowBits v 8).foldl shiftIn 0#8 = v := foldl_bitsMsbFirst v

/-- The register the responder gives next. -/
def Responder.current (d : Responder) : Byte := Memory.read d.mem d.ptr.toNat

/-- The responder has come to pulse `p` of a read group of `d`, with whatever bits collected. -/
structure Giving (d e : Responder) (p : Nat) : Prop where
  addr : e.addr = d.addr
  mem : e.mem = d.mem
  stores : e.stores = d.stores
  ptr : e.ptr = d.ptr
  phase : e.phase = .read
  pulse : e.pulse = p

/-- A rise in the first eight pulses. -/
theorem onRise_bit {d : Responder} {l : Bool} (h : (d.pulse == 9) = false) :
    d.onRise l = { d with clocked := true, acc := (d.acc <<< 1) ||| (BitVec.ofBool l).setWidth 8 } := by
  unfold Responder.onRise
  rw [h]
  rfl

/-- The samples of a read group are the bits of the register, the highest first. -/
theorem At.recvBits {s : State} {d e : Responder} {x : Bool} (n : Nat) (h : At s e x) (hd : s.sdaDrv = .rel)
    (hx : x = true) (hn : n ≤ 8) (hg : Giving d e (9 - n)) :
    (recvBits n s).sr = (lowBits d.current n).foldl shiftIn s.sr ∧
      ∃ e', At (recvBits n s) e' true ∧ Giving d e' 9 := by
  subst hx
  induction n generalizing s e with
  | zero => exact ⟨rfl, e, h, hg⟩
  | succ n ih =>
    obtain ⟨h1, h2⟩ := h.samplePulse hd
    have hp : (e.pulse == 9) = false := by
      have : e.pulse ≠ 9 := by rw [hg.pulse]; omega
      simpa using this
    have hk : (e.onRise (true && e.drives)).drives = d.current.getLsbD n := by
      rw [onRise_bit hp, ← show 8 - e.pulse = n by rw [hg.pulse]; omega]
      simp only [Responder.drives, hg.phase, hp, Bool.false_or, Responder.current, hg.mem, hg.ptr]
    have hg' : Giving d (e.onRise (true && e.drives)).onFall (9 - n) := by
      rw [onRise_bit hp]
      simp only [Responder.onFall, if_true, hp, Bool.false_eq_true, if_false]
      exact ⟨hg.addr, hg.mem, hg.stores, hg.ptr, hg.phase, by show e.pulse + 1 = _; rw [hg.pulse]; omega⟩
    rw [hk] at h1
    have h3 : At (writeSr (shiftIn (Machine.samplePulse s).2.sr (Machine.samplePulse s).1) (Machine.samplePulse s).2)
        (e.onRise (true && e.drives)).onFall true := h2.move ((Runs.refl _).setSr _) h2.bus
    have hd3 : (writeSr (shiftIn (Machine.samplePulse s).2.sr (Machine.samplePulse s).1)
      (Machine.samplePulse s).2).sdaDrv = .rel := by rw [writeSr_sdaDrv, samplePulse_sdaDrv, hd]
    obtain ⟨h4, h5⟩ := ih hd3 (by omega) hg' h3
    refine ⟨?_, h5⟩
    rw [show Machine.recvBits (n + 1) s = Machine.recvBits n
      (writeSr (shiftIn (Machine.samplePulse s).2.sr (Machine.samplePulse s).1) (Machine.samplePulse s).2) from rfl,
      h4, writeSr_sr, h1]
    rfl

/-- A responder at the beginning of a read group. -/
structure Offers (d : Responder) : Prop where
  phase : d.phase = .read
  pulse : d.pulse = 1

/-- A byte received from a responder in a read group: its register; then the next one, or silence after a NACK. -/
theorem At.doReadByte {s : State} {d : Responder} {x : Bool} (last : Bool) (h : At s d x) (ho : Offers d) :
    (doReadByte last s).1 = d.current ∧
      ∃ e, At (doReadByte last s).2 e false ∧ e.addr = d.addr ∧ e.mem = d.mem ∧ e.stores = d.stores ∧
        e.ptr = d.ptr + 1 ∧ e.pulse = 1 ∧ e.phase = if last then .silent else .read := by
  have h0 : At (writeSr 0x00#8 (Machine.sda1 s)) d true := h.move ((Runs.refl s).sda1.setSr _) h.sda1.bus
  obtain ⟨h1, e, h2, h3⟩ := h0.recvBits 8 rfl rfl (Nat.le_refl 8) (d := d) ⟨rfl, rfl, rfl, rfl, ho.phase, ho.pulse⟩
  have h4 := ((h2.putSda last).pulse).sda0
  refine ⟨?_, _, h4, ?_⟩
  · show (Machine.sda0 (Machine.pulse (Machine.putSda last (Machine.recvBits 8 _)))).sr = _
    have : (Machine.sda0 (Machine.pulse (Machine.putSda last
      (Machine.recvBits 8 (writeSr 0x00#8 (Machine.sda1 s)))))).sr =
      (Machine.recvBits 8 (writeSr 0x00#8 (Machine.sda1 s))).sr := by cases last <;> rfl
    rw [this, h1, writeSr_sr, foldl_lowBits]
  · simp only [Responder.onRise, Responder.onFall, Responder.nextGroup, h3.pulse, h3.phase, h3.addr, h3.mem,
      h3.stores, h3.ptr, Responder.drives, beq_self_eq_true, if_true, Bool.true_or, Bool.and_true, and_self]

/-! ### START and STOP -/

/-- What a transaction leaves of a responder, apart from where it is in it. -/
structure Same (d e : Responder) : Prop where
  addr : e.addr = d.addr
  mem : e.mem = d.mem
  stores : e.stores = d.stores
  ptr : e.ptr = d.ptr

theorem Same.self (d : Responder) : Same d d := ⟨rfl, rfl, rfl, rfl⟩

theorem Same.trans {d e f : Responder} (h : Same d e) (h' : Same e f) : Same d f :=
  ⟨h'.addr.trans h.addr, h'.mem.trans h.mem, h'.stores.trans h.stores, h'.ptr.trans h.ptr⟩

theorem addrByte_addr (a7 : Addr) (rw : Dir) : (addrByte a7 rw).extractLsb' 1 7 = a7 := by
  cases rw <;> · revert a7; decide

theorem addrByte_dir (a7 : Addr) (rw : Dir) : (addrByte a7 rw).getLsbD 0 = decide (rw = .read) := by
  cases rw <;> · revert a7; decide

/-- START to one silent responder: acknowledged exactly at its address. -/
theorem oneDevice_doStart {s : State} {d : Responder} (a7 : Addr) (rw : Dir) (h : OneDevice s d) :
    (doStart a7 rw s).1 = decide (a7 = d.addr) ∧
      ∃ e, At (doStart a7 rw s).2 e false ∧ Same d e ∧ e.pulse = 1 ∧ e.acc = 0#8 ∧
        e.phase = if a7 = d.addr then (if rw = .read then .read else .pointer) else .silent := by
  have hw : Wired (writeOpen true s) := ⟨h.readable, h.clock, h.hangs⟩
  have hb : Alone (writeOpen true s).bus d true true := ⟨h.script, h.rest, h.sda, h.scl, h.clockFree, h.clockScript⟩
  have hdr : d.drives = true := by simp [Responder.drives, h.silent]
  have hst := alone_onSda hw hb false
  rw [hdr] at hst
  have hd0 : Wired (dly (Machine.sda0 (writeOpen true s))) := hw.runs (Runs.refl _).sda0.dly
  have hat : At (dly (scl0 (dly (Machine.sda0 (writeOpen true s))))) d.onStart false :=
    ⟨hw.runs (Runs.refl _).sda0.dly.scl0.dly, fall_alone hd0 (dly_alone hst)⟩
  have hbeg : Begins d.onStart := ⟨.inl rfl, rfl, rfl⟩
  obtain ⟨h1, h2⟩ := hat.doWriteByte (addrByte a7 rw) hbeg
  have ea := addrByte_addr a7 rw
  have er := addrByte_dir a7 rw
  have hd : (ninth d.onStart (addrByte a7 rw)).drives = !decide (a7 = d.addr) := by
    simp only [Responder.drives, ninth, Responder.onStart, ea, beq_self_eq_true, Bool.true_and]
    rfl
  refine ⟨?_, _, h2, ?_⟩
  · show (Machine.doWriteByte _ _).1 = _
    rw [h1, hd, Bool.not_not]
  · by_cases hm : a7 = d.addr
    · have hm' : (a7 == d.addr) = true := by simpa using hm
      cases rw <;> simp only [Responder.nextGroup, ninth, Responder.onStart, ea, er, hm', if_pos hm]
      all_goals exact ⟨⟨rfl, rfl, rfl, rfl⟩, rfl, rfl, rfl⟩
    · have hm' : (a7 == d.addr) = false := by simpa using hm
      simp only [Responder.nextGroup, ninth, Responder.onStart, ea, hm', if_neg hm]
      exact ⟨⟨rfl, rfl, rfl, rfl⟩, rfl, rfl, rfl⟩

/-- STOP to a responder that gives SDA its level: it waits for the next START condition. -/
theorem At.doStop {s : State} {d : Responder} {x : Bool} (h : At s d x) (hp : d.pulse = 1) (hr : d.phase ≠ .read) :
    ∃ e, OneDevice (doStop s) e ∧ Same d e := by
  have h0 : At (dly (Machine.sda0 s)) d false := h.sda0.move (Runs.refl _).dly (dly_alone h.sda0.bus)
  have h1 := h0.rise
  have hd : d.phase = .silent ∨ Collects d := by
    unfold Collects
    cases hph : d.phase <;> simp_all
  obtain ⟨e, he⟩ : ∃ e, e = d.onRise (false && d.drives) := ⟨_, rfl⟩
  rw [onRise_bit (by rw [hp]; rfl)] at he
  have hdr : e.drives = true := by
    rw [he]
    rcases hd with hph | hph | hph | hph <;> simp [Responder.drives, hp, hph]
  rw [onRise_bit (by rw [hp]; rfl), ← he] at h1
  have hb := alone_onSda (h0.wired.runs (Runs.refl _).scl1.dly) h1 true
  rw [hdr] at hb
  have hw : Wired (Machine.doStop s) := h.wired.runs (runs_doStop s)
  refine ⟨e.onStop, ⟨hw.readable, hw.clock, hw.hangs, hb.script, hb.rest, hb.sda, hb.scl, hb.clockFree, hb.clockScript,
    rfl⟩, ?_⟩
  rw [he]
  exact ⟨rfl, rfl, rfl, rfl⟩

/-! ### Transactions -/

/-- A data byte of a write is acknowledged: the first one is the register pointer, a later one goes to the register file. -/
theorem At.doWriteByte_data {s : State} {d : Responder} {x : Bool} (v : Byte) (h : At s d x) (hb : Begins d)
    (hp : d.phase = .pointer ∨ d.phase = .store) :
    (Machine.doWriteByte v s).1 = true ∧
      ∃ e, At (Machine.doWriteByte v s).2 e false ∧ Begins e ∧ e.phase = .store ∧ e.addr = d.addr ∧
        e.stores = d.stores ∧
        e.ptr = (if d.phase = .pointer then v else d.ptr + 1) ∧
        e.mem = (if d.phase = .store ∧ d.stores = true then Memory.write d.mem d.ptr.toNat v else d.mem) := by
  obtain ⟨h1, h2⟩ := h.doWriteByte v hb
  have hd : (ninth d v).drives = false := by
    rcases hp with hp | hp <;> simp [Responder.drives, ninth, hp]
  rw [hd] at h1 h2
  refine ⟨h1, _, h2, ?_⟩
  rcases hp with hp | hp <;>
    simp only [Responder.nextGroup, ninth, hp, if_true, reduceCtorEq, if_false, true_and, false_and]
  · exact ⟨⟨.inr (.inr rfl), rfl, rfl⟩, trivial⟩
  · refine ⟨⟨.inr (.inr rfl), rfl, rfl⟩, ?_⟩
    cases d.stores <;> simp

/-- Every later byte of a write goes to the register file. -/
def storeAll (m : Memory) (ptr : Byte) : List Byte → Memory
  | [] => m
  | b :: bytes => storeAll (Memory.write m ptr.toNat b) (ptr + 1) bytes

theorem At.sendWhileAcked {s : State} {d : Responder} {x : Bool} (bytes : List Byte) (h : At s d x) (hb : Begins d)
    (hp : d.phase = .store) (hs : d.stores = true) :
    (sendWhileAcked true bytes s).1 = true ∧
      ∃ e y, At (sendWhileAcked true bytes s).2 e y ∧ Begins e ∧ e.phase = .store ∧ e.addr = d.addr ∧
        e.stores = true ∧ e.mem = storeAll d.mem d.ptr bytes := by
  induction bytes generalizing s d x with
  | nil => exact ⟨rfl, d, x, h, hb, hp, rfl, hs, rfl⟩
  | cons b bytes ih =>
    obtain ⟨h1, e, h2, h3, h4, h5, h6, h7, h8⟩ := h.doWriteByte_data b hb (.inr hp)
    obtain ⟨i1, f, y, i2, i3, i4, i5, i6, i7⟩ := ih h2 h3 h4 (h6.trans hs)
    rw [show Machine.sendWhileAcked true (b :: bytes) s =
      Machine.sendWhileAcked (Machine.doWriteByte b s).1 bytes (Machine.doWriteByte b s).2 from rfl, h1]
    refine ⟨i1, f, y, i2, i3, i4, i5.trans h5, i6, ?_⟩
    rw [i7, h8, h7]
    simp [hp, hs, storeAll]

/-- The registers from `ptr` on, wrapping past register 255. -/
def readAll (m : Memory) (ptr : Byte) : Nat → List Byte
  | 0 => []
  | n + 1 => Memory.read m ptr.toNat :: readAll m (ptr + 1) n

theorem readAll_eq (m : Memory) (ptr : Byte) (n : Nat) :
    readAll m ptr n = (List.range n).map (fun k => Memory.read m ((ptr.toNat + k) % 256)) := by
  induction n generalizing ptr with
  | zero => rfl
  | succ n ih =>
    rw [readAll, ih, List.range_succ_eq_map, List.map_cons, List.map_map]
    have e : (ptr.toNat + 0) % 256 = ptr.toNat := by have := ptr.isLt; omega
    rw [e]
    refine congrArg _ (List.map_congr_left fun k _ => ?_)
    simp only [Function.comp_apply, BitVec.toNat_add]
    congr 1
    simp
    omega

theorem readAll_length (m : Memory) (ptr : Byte) (n : Nat) : (readAll m ptr n).length = n := by
  simp [readAll_eq]

theorem At.readBytes {s : State} {d : Responder} {x : Bool} (n : Nat) (h : At s d x) (ho : Offers d) :
    (readBytes (n + 1) s).1 = readAll d.mem d.ptr (n + 1) ∧
      ∃ e, At (readBytes (n + 1) s).2 e false ∧ e.addr = d.addr ∧ e.mem = d.mem ∧ e.stores = d.stores ∧
        e.pulse = 1 ∧ e.phase = .silent := by
  induction n generalizing s d x with
  | zero =>
    obtain ⟨h1, e, h2, h3, h4, h5, h6, h7, h8⟩ := h.doReadByte true ho
    refine ⟨?_, e, h2, h3, h4, h5, h7, h8⟩
    show [(Machine.doReadByte true s).1] = _
    rw [h1]
    rfl
  | succ n ih =>
    obtain ⟨h1, e, h2, h3, h4, h5, h6, h7, h8⟩ := h.doReadByte false ho
    obtain ⟨i1, f, i2, i3, i4, i5, i6, i7⟩ := ih h2 ⟨h8, h7⟩
    refine ⟨?_, f, i2, i3.trans h3, i4.trans h4, i5.trans h5, i6, i7⟩
    show (Machine.doReadByte false s).1 :: (Machine.readBytes (n + 1) (Machine.doReadByte false s).2).1 = _
    rw [h1, i1, h4, h6]
    rfl

theorem oneDevice_doProbe {s : State} {d : Responder} (a7 : Addr) (h : OneDevice s d) :
    (doProbe a7 s).1 = decide (a7 = d.addr) ∧ ∃ e, OneDevice (doProbe a7 s).2 e ∧ Same d e := by
  obtain ⟨h1, e, h2, h3, h4, h5, h6⟩ := oneDevice_doStart a7 .write h
  obtain ⟨f, h7, h8⟩ := h2.doStop h4 (by rw [h6]; split <;> simp)
  exact ⟨h1, f, h7, h3.trans h8⟩

/-- A write to the device of a register number and data bytes behind it. -/
theorem oneDevice_doWriteN {s : State} {d : Responder} (a7 : Addr) (reg : Byte) (bytes : List Byte) (h : OneDevice s d)
    (hs : d.stores = true ∨ bytes = []) :
    (doWriteN a7 (reg :: bytes) s).1 = decide (a7 = d.addr) ∧
      ∃ e, OneDevice (doWriteN a7 (reg :: bytes) s).2 e ∧ e.addr = d.addr ∧ e.stores = d.stores ∧
        if a7 = d.addr then e.mem = storeAll d.mem reg bytes ∧ (bytes = [] → e.ptr = reg) else Same d e := by
  obtain ⟨h1, e, h2, h3, h4, h5, h6⟩ := oneDevice_doStart a7 .write h
  rw [show Machine.doWriteN a7 (reg :: bytes) s =
    ((Machine.sendWhileAcked (Machine.doStart a7 .write s).1 (reg :: bytes) (Machine.doStart a7 .write s).2).1,
      Machine.doStop (Machine.sendWhileAcked (Machine.doStart a7 .write s).1 (reg :: bytes)
        (Machine.doStart a7 .write s).2).2) from rfl, h1]
  by_cases hm : a7 = d.addr
  · simp only [hm, if_true, reduceCtorEq, if_false] at h6 ⊢
    subst hm
    rw [decide_eq_true trivial]
    obtain ⟨i1, f, i2, i3, i4, i5, i6, i7, i8⟩ := h2.doWriteByte_data reg ⟨.inr (.inl h6), h4, h5⟩ (.inl h6)
    rw [show Machine.sendWhileAcked true (reg :: bytes) (Machine.doStart d.addr .write s).2 =
      Machine.sendWhileAcked (Machine.doWriteByte reg (Machine.doStart d.addr .write s).2).1 bytes
        (Machine.doWriteByte reg (Machine.doStart d.addr .write s).2).2 from rfl, i1]
    have i7' : f.ptr = reg := by rw [i7, if_pos h6]
    have i8' : f.mem = d.mem := by rw [i8, if_neg (by rw [h6]; simp), h3.mem]
    rcases hs with hs | rfl
    · obtain ⟨j1, g, y, j2, j3, j4, j5, j6, j7⟩ := i2.sendWhileAcked bytes i3 i4 (i6.trans (h3.stores.trans hs))
      obtain ⟨k, k1, k2⟩ := j2.doStop j3.pulse (by rw [j4]; simp)
      refine ⟨j1, k, k1, (k2.addr.trans j5).trans (i5.trans h3.addr), (k2.stores.trans j6).trans hs.symm, ?_, ?_⟩
      · rw [k2.mem, j7, i8', i7']
      · rintro rfl
        obtain ⟨k', k1', k2'⟩ := i2.doStop i3.pulse (by rw [i4]; simp)
        have : k = k' := by
          have a := k1.rest
          rw [show Machine.sendWhileAcked true [] (Machine.doWriteByte reg (Machine.doStart d.addr .write s).2).2 =
            (true, (Machine.doWriteByte reg (Machine.doStart d.addr .write s).2).2) from rfl, k1'.rest] at a
          simpa using a.symm
        rw [this, k2'.ptr, i7']
    · obtain ⟨k, k1, k2⟩ := i2.doStop i3.pulse (by rw [i4]; simp)
      exact ⟨rfl, k, k1, k2.addr.trans (i5.trans h3.addr), k2.stores.trans (i6.trans h3.stores),
        by rw [k2.mem, i8']; rfl, fun _ => by rw [k2.ptr, i7']⟩
  · simp only [if_neg hm] at h6 ⊢
    rw [decide_eq_false hm]
    obtain ⟨k, k1, k2⟩ := h2.doStop h4 (by rw [h6]; simp)
    exact ⟨rfl, k, k1, k2.addr.trans h3.addr, k2.stores.trans h3.stores, h3.trans k2⟩

/-- A read of at least one byte from the device: its registers from `ptr` on. -/
theorem oneDevice_doReadN {s : State} {d : Responder} (n : Nat) (h : OneDevice s d) :
    (doReadN d.addr (n + 1) s).1 = some (readAll d.mem d.ptr (n + 1)) ∧
      ∃ e, OneDevice (doReadN d.addr (n + 1) s).2 e ∧ e.addr = d.addr ∧ e.mem = d.mem ∧ e.stores = d.stores := by
  obtain ⟨h1, e, h2, h3, h4, h5, h6⟩ := oneDevice_doStart d.addr .read h
  simp only [if_true] at h6
  rw [decide_eq_true rfl] at h1
  have ed : Machine.doReadN d.addr (n + 1) s =
      (some (Machine.readBytes (n + 1) (Machine.doStart d.addr .read s).2).1,
        Machine.doStop (Machine.readBytes (n + 1) (Machine.doStart d.addr .read s).2).2) := by
    unfold Machine.doReadN
    simp only [h1, if_true]
  obtain ⟨i1, f, i2, i3, i4, i5, i6, i7⟩ := h2.readBytes n ⟨h6, h4⟩
  obtain ⟨k, k1, k2⟩ := i2.doStop i6 (by rw [i7]; simp)
  rw [ed]
  refine ⟨?_, k, k1, k2.addr.trans (i3.trans h3.addr), k2.mem.trans (i4.trans h3.mem),
    k2.stores.trans (i5.trans h3.stores)⟩
  show some _ = _
  rw [i1, h3.mem, h3.ptr]

/-- A register read of the device. -/
theorem oneDevice_doReadReg {s : State} {d : Responder} (a7 : Addr) (reg : Byte) (n : Nat) (h : OneDevice s d) :
    (doReadReg a7 reg (n + 1) s).1 = (if a7 = d.addr then some (readAll d.mem reg (n + 1)) else none) ∧
      ∃ e, OneDevice (doReadReg a7 reg (n + 1) s).2 e ∧ e.addr = d.addr ∧ e.mem = d.mem ∧ e.stores = d.stores := by
  obtain ⟨h1, e, h2, h3, h4, h5⟩ := oneDevice_doWriteN a7 reg [] h (.inr rfl)
  unfold Machine.doReadReg
  simp only [h1]
  by_cases hm : a7 = d.addr
  · subst hm
    simp only [if_true, decide_true] at h5 ⊢
    obtain ⟨i1, f, i2, i3, i4, i5⟩ := oneDevice_doReadN n h2
    rw [h3] at i1 i2
    refine ⟨?_, f, i2, i3.trans h3, i4.trans h5.1, i5.trans h4⟩
    rw [i1, h5.1, h5.2 trivial]
    rfl
  · simp only [if_neg hm, decide_eq_false hm, Bool.false_eq_true, if_false] at h5 ⊢
    exact ⟨trivial, e, h2, h5.addr, h5.mem, h5.stores⟩

end Sys2Proof.Machine
end

