-- ==== Sys2Proof/Laws/Wire.lean ====
section
/-! SUPPORT. The START and STOP conditions of the traffic of the rules, as the drive states tell (20_memory.md R75,
R76; 42_engine_transfers.md R178): nothing while the clock is held low, one START with its STOP for every transaction. -/

namespace Sys2Proof.Safety

/-! ### Inside a transaction -/

/-- With the clock held low the events make no condition, and leave the clock low. -/
structure Inside (es : List Event) : Prop where
  conds : ∀ a, conditions a .low es = []
  clock : sclAfter .low es = .low

theorem Inside.nil : Inside [] := ⟨fun _ => by simp [conditions], rfl⟩

theorem Inside.append {es es' : List Event} (h : Inside es) (h' : Inside es') : Inside (es ++ es') :=
  ⟨fun a => by rw [conditions_append, h.conds, h.clock, h'.conds]; rfl, by rw [sclAfter_append, h.clock, h'.clock]⟩

theorem inside_bitOut (b : Bool) : Inside (bitOut b) :=
  ⟨fun a => by cases a <;> cases b <;> rfl, by cases b <;> rfl⟩

theorem inside_bitIn (k : Bool) : Inside (bitIn k) :=
  ⟨fun a => by cases a <;> cases k <;> rfl, by cases k <;> rfl⟩

theorem inside_byteOut (b : Byte) (k : Bool) : Inside (byteOut b k) := by
  unfold byteOut
  repeat (refine Inside.append ?_ ?_ <;> first | exact inside_bitOut _ | skip)
  exact ⟨fun a => by cases a <;> rfl, rfl⟩

theorem inside_bitsIn (ks : List Bool) : Inside (ks.flatMap bitIn) := by
  induction ks with
  | nil => exact .nil
  | cons k ks ih => exact (inside_bitIn k).append ih

theorem inside_byteIn (ks : List Bool) (last : Bool) : Inside (byteIn ks last) := by
  have h : Inside [.sda1] := ⟨fun a => by cases a <;> rfl, rfl⟩
  refine (h.append (inside_bitsIn ks)).append ?_
  exact ⟨fun a => by cases a <;> cases last <;> rfl, by cases last <;> rfl⟩

theorem inside_sentBytes {bytes : List Byte} {x : Traffic} {ok : Bool} (h : SentBytes bytes x ok) :
    Inside x.events := by
  induction h with
  | done => exact .nil
  | nack b _ => exact inside_byteOut _ _
  | ack b _ ih => exact (inside_byteOut _ _).append ih

theorem inside_readBytes {n : Nat} {x : Traffic} {bytes : List Byte} (h : ReadBytes n x bytes) : Inside x.events := by
  induction h with
  | done => exact .nil
  | more ks _ _ ih => exact (inside_byteIn _ _).append ih

/-! ### Transactions -/

theorem matched_append (n m : Nat) : matched n ++ matched m = matched (n + m) := by
  induction n with
  | zero => simp [matched]
  | succ n ih => rw [Nat.add_right_comm]; simp [matched, ih]

/-- From released lines the events are so many transactions, and release the lines again. -/
structure Pairs (es : List Event) (n : Nat) : Prop where
  conds : conditions .rel .rel es = matched n
  data : sdaAfter .rel es = .rel
  clock : sclAfter .rel es = .rel

theorem Pairs.append {es es' : List Event} {n m : Nat} (h : Pairs es n) (h' : Pairs es' m) :
    Pairs (es ++ es') (n + m) :=
  ⟨by rw [conditions_append, h.conds, h.data, h.clock, h'.conds, matched_append],
    by rw [sdaAfter_append, h.data, h'.data], by rw [sclAfter_append, h.clock, h'.clock]⟩

/-- START from released lines: one condition, and the clock is held. -/
theorem started_conditions (a7 : Addr) (rw : Dir) (k : Bool) :
    conditions .rel .rel (started a7 rw k).events = [.start] ∧ sclAfter .rel (started a7 rw k).events = .low := by
  have h := inside_byteOut (a7 ++ rw.bit : BitVec 8) k
  constructor
  · show conditions .rel .rel ([.sda0, .dly, .scl0, .dly] ++ byteOut _ k) = _
    rw [conditions_append]
    show [.start] ++ conditions .low .low _ = _
    rw [h.conds]
    rfl
  · show sclAfter .rel ([.sda0, .dly, .scl0, .dly] ++ byteOut _ k) = _
    rw [sclAfter_append]
    exact h.clock

theorem pairs_transaction (a7 : Addr) (rw : Dir) (k : Bool) {es : List Event} (h : Inside es) :
    Pairs ((started a7 rw k).events ++ (es ++ stopOut)) 1 := by
  obtain ⟨h1, h2⟩ := started_conditions a7 rw k
  refine ⟨?_, ?_, ?_⟩
  · rw [conditions_append, h1, h2, conditions_append, h.conds, h.clock]
    generalize sdaAfter _ es = d
    cases d <;> rfl
  · rw [sdaAfter_append, sdaAfter_append]
    rfl
  · rw [sclAfter_append, sclAfter_append]
    rfl

theorem pairs_writeTx {a7 : Addr} {bytes : List Byte} {x : Traffic} {ok : Bool} (h : WriteTx a7 bytes x ok) :
    Pairs x.events 1 := by
  cases h with
  | absent => exact pairs_transaction a7 .write true .nil
  | answered h => exact pairs_transaction a7 .write false (inside_sentBytes h)

theorem pairs_readTx {a7 : Addr} {n : Nat} {x : Traffic} {r : Option (List Byte)} (h : ReadTx a7 n x r) :
    Pairs x.events 1 := by
  cases h with
  | absent => exact pairs_transaction a7 .read true .nil
  | answered h => exact pairs_transaction a7 .read false (inside_readBytes h)

theorem pairs_regRead {a7 : Addr} {reg : Byte} {n : Nat} {x : Traffic} {r : Option (List Byte)}
    (h : RegRead a7 reg n x r) : Pairs x.events 1 ∨ Pairs x.events 2 := by
  cases h with
  | refused h => exact .inl (pairs_writeTx h)
  | granted h h' => exact .inr ((pairs_writeTx h).append (pairs_readTx h'))

theorem pairs_probed (a7 : Addr) (k : Bool) : Pairs (probed a7 k).events 1 := pairs_transaction a7 .write k .nil

/-- Identification makes at most three transactions. -/
theorem pairs_identified {p : Params} {a7 : Addr} {x : Traffic} {k : Kind} (h : Identified p a7 x k) :
    ∃ n ≤ 3, Pairs x.events n := by
  have f : ∀ {a7 : Addr} {reg : Byte} {n : Nat} {x : Traffic} {r : Option (List Byte)}, RegRead a7 reg n x r →
      ∃ n ≤ 2, Pairs x.events n := fun h => by
    rcases pairs_regRead h with h | h
    · exact ⟨1, by omega, h⟩
    · exact ⟨2, by omega, h⟩
  cases h with
  | uv _ h => obtain ⟨n, hn, h⟩ := f h; exact ⟨n, by omega, h⟩
  | co2 => exact ⟨0, by omega, rfl, rfl, rfl⟩
  | rtcA _ _ _ h => obtain ⟨n, hn, h⟩ := f h; exact ⟨n, by omega, h⟩
  | rtcBUnwritten _ _ _ _ h => exact ⟨1, by omega, pairs_writeTx h⟩
  | rtcB _ _ _ _ h h' => obtain ⟨n, hn, h2⟩ := f h'; exact ⟨1 + n, by omega, (pairs_writeTx h).append h2⟩
  | imu _ _ _ _ h => obtain ⟨n, hn, h⟩ := f h; exact ⟨n, by omega, h⟩

theorem pairs_scanned {p : Params} {a bad : Nat} {x : Traffic} {e : ScanEnd} {n : Nat} (h : Scanned p a bad x e n) :
    ∃ m, Pairs x.events m := by
  induction h with
  | exhausted => exact ⟨0, rfl, rfl, rfl⟩
  | silent _ _ ih => obtain ⟨m, h⟩ := ih; exact ⟨_, (pairs_probed _ _).append h⟩
  | flagged _ _ _ _ ih => obtain ⟨m, h⟩ := ih; exact ⟨_, (pairs_probed _ _).append h⟩
  | aborted => exact ⟨_, pairs_probed _ _⟩
  | unknown _ _ hi _ ih =>
    obtain ⟨m, h⟩ := ih
    obtain ⟨_, -, h'⟩ := pairs_identified hi
    exact ⟨_, (pairs_probed _ _).append (h'.append h)⟩
  | found _ _ _ hi =>
    obtain ⟨_, -, h'⟩ := pairs_identified hi
    exact ⟨_, (pairs_probed _ _).append h'⟩

end Sys2Proof.Safety
end

