-- ==== Sys2Proof/Tests/Slice0.lean ====
section
/-! SUPPORT. Tests on fixed values and witnesses of the premises of the obligations. The expected values are those of
95_test_vectors.md (the words of section 3.1, the tables of sections 3.2 to 3.7, the parameters TC1 of section 1); the
encodings are written out from 30_encoding.md R101 and R103. -/

namespace Sys2Proof.Tests

open Sys2Proof.Machine Sys2Proof.Safety

/-! ### Helpers -/

/-- The test configuration TC1; the delays and port codes are arbitrary legal ones. -/
def tc1 : Params where
  bufLen := 16
  tFast := 1
  tMed := 5
  tSlow := 10
  scanLast := 127#7
  portA := 0xC#4
  portB := 0xD#4
  addrCo2 := 0x21#7
  addrRtcA := 0x22#7
  regRtcAStatus := 0x30#8
  maskRtcATop := 0xC0#8
  addrRtcShared := 0x23#7
  regRtcBThresh := 0x31#8
  valRtcBTest := 0x5A#8
  regImuWhoami := 0x32#8
  valImuWhoami := 0x6C#8

/-- TC1 with a scan window of 13 addresses, the shortest that the model counts as legal (log entry 5). -/
def short : Params := { tc1 with scanLast := 16#7 }

/-- A bus that hangs on the pins 0xC1 and 0xC2, neither of them held. -/
def busOf (ks : List Bool) (r : Rest) : Bus := ⟨ks, r, [], 0xC1#8, 0xC2#8, true, []⟩

def emptyBus : Bus := busOf [] .empty
def stuckBus : Bus := busOf [] .stuck

/-- SEQ(ks; 1). -/
def seqBus (ks : List Bool) : Bus := busOf ks .empty

def device (d : Responder) : Bus := busOf [] (.responders [d])

/-- Directly after a reset, with marked buffers. -/
def fresh (p : Params) (b : Bus) : State :=
  { State.afterReset p [] b 0 0 with txbuf := List.replicate p.bufLen 0xEE#8, rxbuf := List.replicate p.bufLen 0x77#8 }

/-- After `CONFIGURE 0xC1, 0xC2, 100000`. -/
def ready (p : Params) (b : Bus) : State :=
  { fresh p b with configured := true, sdaPin := 0xC1#8, sclPin := 0xC2#8, tier := .medium }

/-- The same inside a transaction. -/
def inside (b : Bus) (acked : Bool) : State :=
  { ready tc1 { b with held := [0xC1#8, 0xC2#8] } with busOpen := true, sdaDrv := .low, sclDrv := .low, ack := acked }

/-- The state after the command, or the same state if there is none. -/
def after (i : Instr) (s : State) : State :=
  match exec i s with
  | .next t => t
  | .fault _ => s
  | .refused _ => s

/-- The state after the next step, or the same state if there is none. -/
def next (s : State) : State :=
  match step s with
  | .next t => t
  | .fault _ => s
  | .refused _ => s

/-- Does the step answer a next state? -/
def stepped (s : State) : Bool :=
  match step s with
  | .next _ => true
  | .fault _ => false
  | .refused _ => false

/-- The digit of an event in the compact notation: d, D, c, C, ., r0, r1. -/
def digit : Event → Nat
  | .sda0 => 0
  | .sda1 => 1
  | .scl0 => 2
  | .scl1 => 3
  | .dly => 4
  | .rd false => 5
  | .rd true => 6

/-- A trace as one number: its digits in base 16 behind a leading 1. -/
def trace (s : State) : Nat := s.trace.foldl (fun n e => 16 * n + digit e) 1

/-- What the tables show after a command: the response word, the STATUS view and the number of events. -/
def shows (i : Instr) (s : State) : Nat × Nat × Nat :=
  ((after i s).rspWord.toNat, (statusView (after i s)).toNat, (after i s).trace.length)

/-- The same without the number of events, and with the SCANSTAT view. -/
def leaves (i : Instr) (s : State) : Nat × Nat × Nat :=
  ((after i s).rspWord.toNat, (statusView (after i s)).toNat, (scanstatView (after i s)).toNat)

def host (p : Params) (b : Bus) (inputs : List Input) : State := { ready p b with inputs := inputs }

/-! ### Well-formedness: an ill-formed term for each check (R113), and the terms at the limit -/

theorem test_wf_writeN : ¬ Instr.WellFormed tc1 (.writeN 0x53#7 17#8) ∧ Instr.WellFormed tc1 (.writeN 0x53#7 16#8) := by decide
theorem test_wf_readN : ¬ Instr.WellFormed tc1 (.readN 0x53#7 17#8) ∧ Instr.WellFormed tc1 (.readN 0x53#7 16#8) := by decide
theorem test_wf_readReg :
    ¬ Instr.WellFormed tc1 (.readReg 0x53#7 6#8 17#8) ∧ Instr.WellFormed tc1 (.readReg 0x53#7 6#8 16#8) := by decide
theorem test_wf_wrTx : ¬ Instr.WellFormed tc1 (.wrTx 16#8 1#8) ∧ Instr.WellFormed tc1 (.wrTx 15#8 1#8) := by decide
theorem test_wf_rdRx : ¬ Instr.WellFormed tc1 (.rdRx 16#8) ∧ Instr.WellFormed tc1 (.rdRx 15#8) := by decide

/-! ### Decoding: the words of 95_test_vectors.md section 3.1 -/

theorem test_decode_configure : decodeTableWord 64 0x01C1C200000186A0 = some (.configure 0xC1#8 0xC2#8 100000#32) := by decide
theorem test_decode_start_w : decodeTableWord 64 0x0253000000000000 = some (.start 0x53#7 .write) := by decide
theorem test_decode_start_r : decodeTableWord 64 0x0253010000000000 = some (.start 0x53#7 .read) := by decide
theorem test_decode_stop : decodeTableWord 64 0x0300000000000000 = some (.stop) := by decide
theorem test_decode_writeByte : decodeTableWord 64 0x04A6000000000000 = some (.writeByte 0xA6#8) := by decide
theorem test_decode_readByte_more : decodeTableWord 64 0x0500000000000000 = some (.readByte false) := by decide
theorem test_decode_readByte_last : decodeTableWord 64 0x0501000000000000 = some (.readByte true) := by decide
theorem test_decode_writeN : decodeTableWord 64 0x0653000400000000 = some (.writeN 0x53#7 4#8) := by decide
theorem test_decode_readN : decodeTableWord 64 0x0753000300000000 = some (.readN 0x53#7 3#8) := by decide
theorem test_decode_probe : decodeTableWord 64 0x0853000000000000 = some (.probe 0x53#7) := by decide
theorem test_decode_readReg : decodeTableWord 64 0x0953060100000000 = some (.readReg 0x53#7 0x06#8 1#8) := by decide
theorem test_decode_scan : decodeTableWord 64 0x0A00000000000000 = some (.scan) := by decide
theorem test_decode_identify : decodeTableWord 64 0x0B53000000000000 = some (.identify 0x53#7) := by decide
theorem test_decode_wrTx : decodeTableWord 64 0x1000060000000000 = some (.wrTx 0#8 0x06#8) := by decide
theorem test_decode_rdRx : decodeTableWord 64 0x1102000000000000 = some (.rdRx 2#8) := by decide
theorem test_decode_rdStat : decodeTableWord 64 0x1203000000000000 = some (.rdStat .found) := by decide

/-- R107: the two end words and the two opcodes next to the map's. -/
theorem test_decode_reserved :
    [0x0000000000000000, 0xFFFFFFFFFFFFFFFF, 0x0C00000000000000, 0x1300000000000000].all
      (fun w => (decodeTableWord 64 w).isNone) = true := by decide

/-- R108: one word for each kind of must-be-zero bit. -/
theorem test_decode_mustBeZero :
    [0x0300000000000001, 0x0A00000000000001, 0x02D3000000000000, 0x08D3000000000000, 0x0253020000000000,
      0x0101020100000000, 0x0502000000000000, 0x1204000000000000].all
      (fun w => (decodeTableWord 64 w).isNone) = true := by decide

/-! ### Responses of the checks -/

/-- Directly after reset a PROBE is refused NOT_CONFIGURED, and STATUS is still 0x00000C. -/
theorem test_notConfigured : shows (.probe 0x53#7) (fresh tc1 emptyBus) = (0xE0000000, 0x00000C, 0) := by decide

/-- The length is checked before the handle. -/
theorem test_badArg_first : shows (.writeN 0x53#7 17#8) (fresh tc1 emptyBus) = (0xD0000000, 0x00000C, 0) := by decide

/-- An illegal word presented at the port. -/
theorem test_badCmd : (next ((fresh tc1 emptyBus).withFetchWord 64 0x08D3000000000000)).rspWord = 0xF0000000#32 := by decide

/-- The first command after the model's own reset. -/
theorem test_first_command :
    (next (State.reset.withFetchWord 64 0x1201000000000000)).rspWord = 0x00020000#32 := by decide

/-! ### Commands -/

theorem test_configure_medium :
    (configView (after (.configure 0xC1#8 0xC2#8 399999#32) (fresh tc1 emptyBus))).toNat = 0x05C2C1 := by
  decide
theorem test_configure_fast :
    (configView (after (.configure 0xC1#8 0xC2#8 400000#32) (fresh tc1 emptyBus))).toNat = 0x04C2C1 := by
  decide
theorem test_start_nack :
    shows (.start 0x53#7 .read) (ready tc1 emptyBus) = (0x10000000, 0x00A711, 51) := by
  decide +kernel
theorem test_start_trace :
    trace (after (.start 0x53#7 .read) (ready tc1 emptyBus)) =
      0x1042413424034241342403424034241342413424134241346240 := by
  decide +kernel
theorem test_stop_idle :
    shows .stop (ready tc1 emptyBus) = (0, 0x00001C, 5) ∧ trace (after .stop (ready tc1 emptyBus)) = 0x104341 := by
  decide
theorem test_stop_open :
    shows .stop { inside emptyBus false with sr := 0xA7#8 } = (0, 0x00A71C, 5) := by
  decide
theorem test_writeByte_ack :
    shows (.writeByte 0xA6#8) (inside stuckBus false) = (0, 0x00A613, 47) := by
  decide +kernel
theorem test_writeByte_trace :
    trace (after (.writeByte 0xA6#8) (inside emptyBus true)) =
      0x113424034241342403424034241342413424034241346240 := by
  decide +kernel
theorem test_readByte_last :
    trace (after (.readByte true) (inside (seqBus [true, false, true, true, false, false, true, false]) true)) =
      0x113462434524346243462434524345243462434524134240 := by
  decide +kernel
theorem test_readByte_keeps_ack :
    shows (.readByte false) (inside emptyBus false) = (0x000000FF, 0x00FF11, 47) := by
  decide +kernel
theorem test_writeN_stops_at_nack :
    shows (.writeN 0x53#7 4#8) { ready tc1 (seqBus [false, false, true]) with
      txbuf := [0x10#8, 0x11#8, 0x22#8, 0x33#8] ++ List.replicate 12 0#8 } = (0x10000000, 0x00111C, 150) := by
  decide +kernel
theorem test_writeN_stores :
    (after (.writeN 0x53#7 4#8) { ready tc1 (device (Responder.new 0x53#7 [])) with
      txbuf := [0x10#8, 0x11#8, 0x22#8, 0x33#8] ++ List.replicate 12 0#8 }).bus.rest =
    .responders [{ Responder.new 0x53#7 [(0x10, 0x11#8), (0x11, 0x22#8), (0x12, 0x33#8)] with ptr := 0x13#8 }] := by
  decide +kernel
theorem test_readN_bytes :
    (after (.readN 0x53#7 3#8) (ready tc1 (device { Responder.new 0x53#7
      [(0x10, 0x11#8), (0x11, 0x22#8), (0x12, 0x33#8), (0x13, 0x44#8)] with ptr := 0x10#8 }))).rxbuf.take 4 =
    [0x11#8, 0x22#8, 0x33#8, 0x77#8] := by
  decide +kernel
theorem test_readN_stuck :
    shows (.readN 0x20#7 2#8) (ready tc1 stuckBus) = (0, 0x00001E, 150) := by
  decide +kernel
theorem test_probe_found :
    shows (.probe 0x53#7) (ready tc1 (device (Responder.new 0x53#7 []))) = (0, 0x00A61E, 56) := by
  decide +kernel
theorem test_probe_trace :
    trace (after (.probe 0x53#7) (ready tc1 emptyBus)) =
      0x104241342403424134240342403424134241342403424134624004341 := by
  decide +kernel
theorem test_readReg_byte :
    shows (.readReg 0x53#7 0x06#8 1#8) (ready tc1 (device (Responder.new 0x53#7 [(6, 0xB2#8)]))) =
    (0, 0x00B21E, 206) := by
  decide +kernel
theorem test_readReg_no_second :
    shows (.readReg 0x53#7 0x06#8 1#8) (ready tc1 (seqBus [false, true])) = (0x10000000, 0x00061C, 103) := by
  decide +kernel
theorem test_identify_rtcB :
    leaves (.identify 0x23#7) (ready tc1 (device (Responder.new 0x23#7 []))) = (0x00000004, 0x005A1E, 0) := by
  decide +kernel
theorem test_identify_rtcA_masked :
    leaves (.identify 0x22#7) (ready tc1 (device (Responder.new 0x22#7 [(0x30, 0x40#8)]))) =
    (0x00000000, 0x00401E, 0) := by
  decide +kernel
theorem test_scan_fault :
    leaves .scan (ready tc1 stuckBus) = (0x20000000, 0x001A1E, 0x000DAF) := by
  decide +kernel
theorem test_scan_found :
    leaves .scan (ready tc1 (device (Responder.new 0x10#7 [(0x32, 0x6C#8)]))) = (0x00000510, 0x006C1E, 0x001006) := by
  decide +kernel
theorem test_wrTx :
    (after (.wrTx 15#8 1#8) (fresh tc1 emptyBus)).txbuf.drop 14 = [0xEE#8, 1#8] := by
  decide
theorem test_rdRx :
    (after (.rdRx 0#8) { ready tc1 emptyBus with rxbuf := 0xB2#8 :: List.replicate 15 0#8 }).rspWord = 0x000000B2#32 := by
  decide
theorem test_rdStat_reset :
    (after (.rdStat .status) (fresh tc1 emptyBus)).rspWord = 0x0000000C#32 ∧
      (after (.rdStat .config) (fresh tc1 emptyBus)).rspWord = 0x00020000#32 := by
  decide
theorem test_rdStat_scan :
    (after (.rdStat .scanstat) { ready tc1 emptyBus with
      scanState := .found, scanResult := .found, scanAddr := 0x53#8, badCnt := 9#4 }).rspWord = 0x00005396#32 ∧
    (after (.rdStat .found) { ready tc1 emptyBus with foundAddr := 0x53#7, foundKind := .uv }).rspWord = 0x00000153#32 := by
  decide

/-! ### The lines -/

/-- R72, R82: SDA is 0 on STUCK and 1 on EMPTY while the block releases it. -/
theorem test_stuck_level :
    (ready tc1 stuckBus).bus.sda true = false ∧ (ready tc1 emptyBus).bus.sda false = true := by
  decide
/-- R72, R287: a responder whose clock someone else holds low sees no pulse and acknowledges nothing. -/
theorem test_held_clock_hides_the_device :
    shows (.probe 0x53#7) (ready tc1 { device (Responder.new 0x53#7 []) with envScl := false }) = (0x10000000, 0x00A61C, 56) := by
  decide +kernel
/-- R271 with the trace of R152: after SDA0, DLY, SCL0 both pins are LOW though the drive states read REL. -/
theorem test_reset_inside_start :
    let t := next (host tc1 emptyBus [.resetDuring 0x0253000000000000#64 3])
    (t.bus.held, t.sdaDrv, t.sclDrv, t.rspValid) = ([0xC1#8, 0xC2#8], Drive.rel, Drive.rel, false) := by
  decide +kernel
/-- R139 with the trace of R154: on one pin SDA0, DLY, SCL1 ends released and
SDA0 alone ends low. -/
theorem test_one_pin_follows_both_lines :
    let t := next { host tc1 emptyBus [.resetDuring 0x0300000000000000#64 3] with sclPin := 0xC1#8 }
    let u := next { host tc1 emptyBus [.resetDuring 0x0300000000000000#64 1] with sclPin := 0xC1#8 }
    (t.bus.held, u.bus.held) = ([], [0xC1#8]) := by
  decide +kernel
/-- R282: CONFIGURE with the bus open leaves the old pins LOW and the new ones untouched, though the drive
states read LOW; the STOP that follows does not free the old ones. -/
theorem test_reconfigured_pins_stay_low :
    let t := after (.configure 0xC3#8 0xC4#8 100000#32) (inside emptyBus true)
    let u := after .stop t
    (t.sdaDrv, t.bus.held, u.sdaDrv, u.bus.held) = (Drive.low, [0xC1#8, 0xC2#8], Drive.rel, [0xC1#8, 0xC2#8]) := by
  decide
/-- R282, R83: the STOP on the new pins is no STOP condition for a responder on the old ones: it
still waits for a data byte. -/
theorem test_reconfigured_device_sees_no_stop :
    (after .stop (after (.configure 0xC3#8 0xC4#8 100000#32) (after (.start 0x53#7 .write)
      (ready tc1 (device (Responder.new 0x53#7 [])))))).bus.rest =
    .responders [{ Responder.new 0x53#7 [] with phase := .pointer }] := by
  decide +kernel

/-! ### Witnesses: for every obligation with premises, concrete values that meet all of them together -/

section

open Sys2Proof.Machine Sys2Proof.Safety

/-- A host that presents the word to a ready block. -/
def holds (b : Bus) (w : Word) : State := host tc1 b [.command w]

theorem witness_EncodeOfDecodeIsTheWord : decode 0x0253010000000000#64 = .ok (.start 0x53#7 .read) := by decide

theorem witness_ReservedOpcodeIsRefused :
    Takes (holds emptyBus 0x1300000000000000#64) 0x1300000000000000#64 [] ∧
      (0x1300000000000000#64 : Word).extractLsb' 56 8 ∉ opcodes := ⟨⟨rfl, rfl⟩, by decide⟩

theorem witness_MustBeZeroBitIsRefused :
    Takes (holds emptyBus 0x02D3000000000000#64) 0x02D3000000000000#64 [] ∧
      (0x02D3000000000000#64 : Word).extractLsb' 56 8 = (matchOf (.start 0#7 .write)).extractLsb' 56 8 ∧
      (0x02D3000000000000#64 : Word) &&& maskOf (.start 0#7 .write) ≠ matchOf (.start 0#7 .write) :=
  ⟨⟨rfl, rfl⟩, by decide, by decide⟩

/-- The first length and the first index that do not fit. -/
theorem witness_PastTheBufferIsRefused :
    (ready tc1 emptyBus).params.bufLen < (17#8 : Byte).toNat ∧ (ready tc1 emptyBus).params.bufLen ≤ (16#8 : Byte).toNat := by
  decide

/-- With BUF_LEN = 255 index 255 does fail. -/
theorem witness_PastTheBufferIsRefused_255 :
    (ready { tc1 with bufLen := 255 } emptyBus).params.bufLen = 255 ∧
      codeOf (after (.rdRx 255#8) (ready { tc1 with bufLen := 255 } emptyBus)).rspWord = 0xD#4 := by
  decide

/-- Before CONFIGURE, with a length at the limit. -/
theorem witness_UnconfiguredIsRefused :
    (fresh tc1 emptyBus).configured = false ∧ (16#8 : Byte).toNat ≤ (fresh tc1 emptyBus).params.bufLen := by
  decide

/-- One word for each clause: no command; a length past the buffer; before CONFIGURE; one that runs. -/
theorem witness_ChecksAreMadeInOrder :
    (Takes (holds emptyBus 0x06D3001100000000#64) 0x06D3001100000000#64 [] ∧
      decode 0x06D3001100000000#64 = .error (.mustBeZero 0x06#8)) ∧
    (Takes (holds emptyBus 0x0653001100000000#64) 0x0653001100000000#64 [] ∧
      decode 0x0653001100000000#64 = .ok (.writeN 0x53#7 17#8) ∧ (Instr.writeN 0x53#7 17#8).fits 16 = false) ∧
    (Takes { holds emptyBus 0x0653001000000000#64 with configured := false } 0x0653001000000000#64 [] ∧
      decode 0x0653001000000000#64 = .ok (.writeN 0x53#7 16#8) ∧ (Instr.writeN 0x53#7 16#8).fits 16 = true ∧
      (Instr.writeN 0x53#7 16#8).needsHandle = true) ∧
    (Takes (holds emptyBus 0x0653001000000000#64) 0x0653001000000000#64 [] ∧
      (holds emptyBus 0x0653001000000000#64).configured = true) :=
  ⟨⟨⟨rfl, rfl⟩, by decide⟩, ⟨⟨rfl, rfl⟩, by decide, by decide⟩, ⟨⟨rfl, rfl⟩, by decide, by decide, by decide⟩,
    ⟨⟨rfl, rfl⟩, rfl⟩⟩

theorem witness_OneResponseForEveryCommand :
    Takes (holds emptyBus 0x0A00000000000000#64) 0x0A00000000000000#64 [] := ⟨rfl, rfl⟩

theorem witness_StepRunsTheDecodedCommand :
    Takes (holds emptyBus 0x0853000000000000#64) 0x0853000000000000#64 [] ∧
      decode 0x0853000000000000#64 = .ok (.probe 0x53#7) := ⟨⟨rfl, rfl⟩, by decide⟩

theorem witness_StepIdlesWithNothingPresented : (ready tc1 emptyBus).inputs = [] := rfl

theorem witness_ResetLeavesTheTable :
    (host tc1 stuckBus [.reset, .command 0#64]).inputs = .reset :: [.command 0#64] := rfl

/-- For each clause of the pins: a command that runs, and a word that is no command. -/
theorem witness_ResetInsideACommandAbandonsIt :
    (host tc1 stuckBus [.resetDuring 0x0A00000000000000#64 7]).inputs = .resetDuring 0x0A00000000000000#64 7 :: [] ∧
      decode 0x0A00000000000000#64 = .ok .scan ∧
      (∃ u, exec .scan { host tc1 stuckBus [] with cmdReady := false } = .next u) ∧
      decode 0x0C00000000000000#64 = .error (.reservedOpcode 0x0C#8) :=
  ⟨rfl, by decide, ⟨_, rfl⟩, by decide⟩

/-- A configured state that has the invariant, with a command to take. -/
theorem witness_EveryStepKeepsTheInvariant :
    Inv (holds (device (Responder.new 0x53#7 [(6, 0xB2#8)])) 0x0853000000000000#64) ∧
      stepped (holds (device (Responder.new 0x53#7 [(6, 0xB2#8)])) 0x0853000000000000#64) = true :=
  ⟨⟨by decide, rfl, rfl, rfl, ⟨rfl, rfl, rfl, rfl, rfl⟩, fun h => absurd h (by decide), by decide⟩, by decide +kernel⟩

/-- A closed bus and a command for it; an open bus and a command for it. -/
theorem witness_OrderKeepsTheBusConsistent :
    (BusConsistent (ready tc1 emptyBus) ∧ HostInOrder (ready tc1 emptyBus) (.probe 0x53#7) ∧
      closesBus (.probe 0x53#7) = true) ∧
    (BusConsistent (inside stuckBus true) ∧ HostInOrder (inside stuckBus true) (.writeByte 0xA6#8)) :=
  ⟨⟨⟨rfl, rfl⟩, rfl, rfl⟩, ⟨⟨rfl, rfl⟩, rfl⟩⟩

/-- STOP is none of the named commands. -/
theorem witness_OnlyTheNamedCommandsWrite :
    (∀ sda scl speed, Instr.stop ≠ .configure sda scl speed) ∧ (∀ idx val, Instr.stop ≠ .wrTx idx val) ∧
      (∀ a7 len, Instr.stop ≠ .readN a7 len) ∧ (∀ a7 reg len, Instr.stop ≠ .readReg a7 reg len) ∧ Instr.stop ≠ .scan := by
  simp

/-- The three ranges of the speed, at their ends. -/
theorem witness_ConfigureStoresTheHandle :
    400000 ≤ (400000#32 : BitVec 32).toNat ∧
      (100000 ≤ (100000#32 : BitVec 32).toNat ∧ (399999#32 : BitVec 32).toNat < 400000) ∧
      (99999#32 : BitVec 32).toNat < 100000 := by
  decide

/-- A configured block, for START, STOP, WRITEBYTE, READBYTE, PROBE and IDENTIFY. -/
theorem witness_StartSendsTheAddress : (ready tc1 emptyBus).configured = true := rfl
theorem witness_StopReleasesTheBus : (inside emptyBus true).configured = true := rfl
theorem witness_WriteByteSendsEightBitsAndSamples : (inside stuckBus true).configured = true := rfl
theorem witness_ReadByteShiftsEightSamples : (inside emptyBus false).configured = true := rfl
theorem witness_ProbeReportsTheAcknowledge : (ready tc1 stuckBus).configured = true := rfl

/-- A length at the limit. -/
theorem witness_WriteNSendsTheBuffer :
    (ready tc1 emptyBus).configured = true ∧ (16#8 : Byte).toNat ≤ (ready tc1 emptyBus).params.bufLen := by
  decide

/-- A length at the limit; the clause of a refused address (EMPTY) and of an acknowledged one (STUCK). -/
theorem witness_ReadNFillsTheBuffer :
    (ready tc1 emptyBus).configured = true ∧ (16#8 : Byte).toNat ≤ (ready tc1 emptyBus).params.bufLen ∧
      (ready tc1 emptyBus).rxbuf.length = (ready tc1 emptyBus).params.bufLen ∧
      codeOf (after (.readN 0x20#7 2#8) (ready tc1 emptyBus)).rspWord = 0x1#4 ∧
      codeOf (after (.readN 0x20#7 2#8) (ready tc1 stuckBus)).rspWord = 0x0#4 := by
  decide +kernel

theorem witness_ReadRegWritesThenReads :
    (ready tc1 emptyBus).configured = true ∧ (16#8 : Byte).toNat ≤ (ready tc1 emptyBus).params.bufLen ∧
      (ready tc1 emptyBus).rxbuf.length = (ready tc1 emptyBus).params.bufLen ∧
      codeOf (after (.readReg 0x53#7 6#8 2#8) (ready tc1 emptyBus)).rspWord = 0x1#4 ∧
      codeOf (after (.readReg 0x53#7 6#8 2#8) (ready tc1 stuckBus)).rspWord = 0x0#4 := by
  decide +kernel

/-- An address of rule 2, which makes no traffic, and one of another rule. -/
theorem witness_IdentifyTriesOneRule :
    (ready tc1 emptyBus).configured = true ∧ BusIdle (ready tc1 emptyBus) ∧
      (0x21#7 ≠ 0x53#7 ∧ (0x21#7 : Addr) = (ready tc1 emptyBus).params.addrCo2) ∧
      ¬ (0x53#7 ≠ 0x53#7 ∧ (0x53#7 : Addr) = (ready tc1 emptyBus).params.addrCo2) :=
  ⟨rfl, ⟨rfl, rfl, rfl⟩, by decide, by decide⟩

/-- The shortest window. -/
theorem witness_ScanRunsTheWindow :
    (ready short emptyBus).configured = true ∧ 16 ≤ (ready short emptyBus).params.scanLast.toNat := by
  decide

theorem witness_WrTxWritesOneEntry :
    (15#8 : Byte).toNat < (fresh tc1 emptyBus).params.bufLen ∧
      (fresh tc1 emptyBus).txbuf.length = (fresh tc1 emptyBus).params.bufLen := by
  decide

theorem witness_RdRxReadsOneEntry :
    (15#8 : Byte).toNat < (fresh tc1 emptyBus).params.bufLen ∧
      (fresh tc1 emptyBus).rxbuf.length = (fresh tc1 emptyBus).params.bufLen := by
  decide

/-- Directly after a reset. -/
theorem witness_ViewsAfterReset : ResetValues (fresh tc1 emptyBus) :=
  ⟨rfl, rfl, rfl, rfl, rfl, rfl, rfl, rfl, rfl, rfl, rfl, rfl, rfl, rfl, rfl, rfl, rfl, rfl, by decide, by decide⟩

theorem witness_OnlyTheAllowedCalls : (ready tc1 emptyBus).configured = true := rfl

theorem witness_EventsAreTheirCalls : ∀ sda scl speed, Instr.scan ≠ .configure sda scl speed := by
  simp

/-- A command that runs and one that is refused. -/
theorem witness_StartsAndStopsAreMatched :
    (BusConsistent (ready tc1 emptyBus) ∧ HostInOrder (ready tc1 emptyBus) (.readReg 0x53#7 6#8 16#8) ∧
      (Instr.readReg 0x53#7 6#8 16#8).fits (ready tc1 emptyBus).params.bufLen = true ∧
      ((Instr.readReg 0x53#7 6#8 16#8).needsHandle = true → (ready tc1 emptyBus).configured = true)) ∧
    (HostInOrder (ready tc1 emptyBus) (.readReg 0x53#7 6#8 17#8) ∧
      (Instr.readReg 0x53#7 6#8 17#8).fits (ready tc1 emptyBus).params.bufLen = false) :=
  ⟨⟨⟨rfl, rfl⟩, rfl, by decide, fun _ => rfl⟩, ⟨rfl, by decide⟩⟩

/-- A command for each error code. -/
theorem witness_ErrorsAreRaisedByTheNamedCommands :
    codeOf (after (.probe 0x53#7) (ready tc1 emptyBus)).rspWord = 0x1#4 ∧
      codeOf (after .scan (ready short stuckBus)).rspWord = 0x2#4 ∧
      codeOf (after .scan (ready short emptyBus)).rspWord = 0x3#4 := by
  decide +kernel

/-- An error from each kind of command that the clauses name. -/
theorem witness_ErrorsLeaveTheBusInOrder :
    16 ≤ (ready tc1 emptyBus).params.scanLast.toNat ∧
      codeOf (after (.start 0x53#7 .write) (ready tc1 emptyBus)).rspWord = 0x1#4 ∧
      codeOf (after (.writeByte 0xA6#8) (inside emptyBus true)).rspWord = 0x1#4 ∧
      codeOf (after (.readN 0x53#7 1#8) (ready tc1 emptyBus)).rspWord = 0x1#4 := by
  decide +kernel

/-- Two supported pins, one pin for both lines, and an unsupported pin. -/
theorem witness_PinsFollowTheEvents :
    (supported tc1 (ready tc1 emptyBus).sdaPin = true ∧ (ready tc1 emptyBus).sdaPin ≠ (ready tc1 emptyBus).sclPin) ∧
      onePin { ready tc1 emptyBus with sclPin := 0xC1#8 } = true ∧ supported tc1 0x11#8 = false := by
  decide

/-- Two new supported pins, an old one that is held, and a bus that hangs on the old ones. -/
theorem witness_ReconfiguringLeavesTheOldPins :
    (0xC1#8 : Byte) ≠ 0xC3#8 ∧ (0xC1#8 : Byte) ≠ 0xC4#8 ∧ 0xC1#8 ∈ (inside emptyBus true).bus.held ∧
      supported tc1 0xC3#8 = true ∧ supported tc1 0xC4#8 = true ∧ (0xC3#8 : Byte) ≠ 0xC4#8 ∧
      (inside emptyBus true).bus.sdaAt ∉ [0xC3#8, 0xC4#8] ∧ (inside emptyBus true).bus.sclAt ∉ [0xC3#8, 0xC4#8] ∧
      (inside emptyBus true).bus.sclScript = [] := by
  decide

/-- A bus without responders, and the same bus with someone who pulls SCL now and then. -/
theorem witness_ClockIsNeverRead :
    (∀ ds, (ready tc1 stuckBus).bus.rest ≠ .responders ds) ∧
      ButForScl (ready tc1 stuckBus) (ready tc1 { stuckBus with envScl := false, sclScript := [false, true] }) :=
  ⟨fun _ => by simp [ready, fresh, stuckBus, busOf, State.afterReset], rfl⟩

theorem witness_ProbeIsStartThenStop : (ready tc1 emptyBus).configured = true := rfl

/-- The clause of a write that succeeds (STUCK) and of one that does not (EMPTY). -/
theorem witness_ReadRegIsLoadWriteRead :
    (ready tc1 stuckBus).configured = true ∧ (16#8 : Byte).toNat ≤ (ready tc1 stuckBus).params.bufLen ∧
      2 ≤ (ready tc1 stuckBus).params.bufLen ∧
      (ready tc1 stuckBus).txbuf.length = (ready tc1 stuckBus).params.bufLen ∧
      codeOf (after (.writeN 0x53#7 1#8) (after (.wrTx 0#8 6#8) (ready tc1 stuckBus))).rspWord = 0x0#4 ∧
      codeOf (after (.writeN 0x53#7 1#8) (after (.wrTx 0#8 6#8) (ready tc1 emptyBus))).rspWord ≠ 0x0#4 := by
  decide +kernel

theorem witness_EmptyBusScansToTheEnd :
    (ready tc1 emptyBus).configured = true ∧ (ready tc1 emptyBus).params.scanLast = 127#7 ∧
      Always (ready tc1 emptyBus) true := ⟨rfl, rfl, by decide, rfl, rfl⟩

theorem witness_StuckBusIsABusFault :
    (ready short stuckBus).configured = true ∧ 16 ≤ (ready short stuckBus).params.scanLast.toNat ∧
      Always (ready short stuckBus) false := ⟨rfl, by decide, by decide, rfl, rfl⟩

theorem witness_RegisterFileReadsWhatWasWritten :
    Memory.wf [(0, 1#8), (255, 2#8)] = true ∧ (254 : Nat) ≠ 255 := by decide

/-- The reference responder of the vectors, waiting. -/
theorem reference_OneDevice : OneDevice (ready tc1 (device (Responder.new 0x53#7 [(6, 0xB2#8)])))
    (Responder.new 0x53#7 [(6, 0xB2#8)]) := ⟨by decide, by decide, rfl, rfl, rfl, rfl, rfl, rfl, rfl, rfl⟩

/-- At the device's address, and beside it. -/
theorem witness_ProbeFindsOnlyTheDevice :
    (ready tc1 (device (Responder.new 0x53#7 [(6, 0xB2#8)]))).configured = true ∧
      OneDevice (ready tc1 (device (Responder.new 0x53#7 [(6, 0xB2#8)]))) (Responder.new 0x53#7 [(6, 0xB2#8)]) ∧
      (0x53#7 : Addr) = (Responder.new 0x53#7 [(6, 0xB2#8)]).addr ∧
      (0x52#7 : Addr) ≠ (Responder.new 0x53#7 [(6, 0xB2#8)]).addr :=
  ⟨rfl, reference_OneDevice, rfl, by decide⟩

/-- The shortest and the longest length, at the device's address and beside it. -/
theorem witness_ReadRegGivesTheDevicesBytes :
    (ready tc1 (device (Responder.new 0x53#7 [(6, 0xB2#8)]))).configured = true ∧
      OneDevice (ready tc1 (device (Responder.new 0x53#7 [(6, 0xB2#8)]))) (Responder.new 0x53#7 [(6, 0xB2#8)]) ∧
      1 ≤ (1#8 : Byte).toNat ∧ (16#8 : Byte).toNat ≤ tc1.bufLen ∧
      (ready tc1 (device (Responder.new 0x53#7 [(6, 0xB2#8)]))).rxbuf.length = tc1.bufLen ∧
      (0x53#7 : Addr) = (Responder.new 0x53#7 [(6, 0xB2#8)]).addr ∧
      (0x52#7 : Addr) ≠ (Responder.new 0x53#7 [(6, 0xB2#8)]).addr :=
  ⟨rfl, reference_OneDevice, by decide, by decide, by decide, rfl, by decide⟩

/-- A register number and the 15 bytes that still fit behind it. -/
theorem witness_WhatWasWrittenIsReadBack :
    OneDevice (ready tc1 (device (Responder.new 0x53#7 [(6, 0xB2#8)]))) (Responder.new 0x53#7 [(6, 0xB2#8)]) ∧
      (ready tc1 (device (Responder.new 0x53#7 [(6, 0xB2#8)]))).configured = true ∧
      (Responder.new 0x53#7 [(6, 0xB2#8)]).stores = true ∧ (Responder.new 0x53#7 [(6, 0xB2#8)]).mem.wf = true ∧
      1 ≤ (15#8 : Byte).toNat ∧ (15#8 : Byte).toNat + 1 ≤ tc1.bufLen ∧ tc1.bufLen ≤ 255 ∧
      (ready tc1 (device (Responder.new 0x53#7 [(6, 0xB2#8)]))).rxbuf.length = tc1.bufLen ∧
      (ready tc1 (device (Responder.new 0x53#7 [(6, 0xB2#8)]))).txbuf.take ((15#8 : Byte).toNat + 1) =
        0xEE#8 :: List.replicate 15 0xEE#8 ∧
      (List.replicate 15 0xEE#8).length = (15#8 : Byte).toNat :=
  ⟨reference_OneDevice, rfl, rfl, by decide, by decide, by decide, by decide, by decide, by decide, by decide⟩

end

end Sys2Proof.Tests
end

section
/-! PROOFS. The invariant of 00_scope.md R9 and 10_state.md R21 to R35: it holds after every reset, and every step keeps it. -/

namespace Sys2Proof.Machine

/-- The effects of a command keep the canonical held pins and register files. -/
theorem Effects.busWf {s t : State} (h : Effects s t) (hs : Safety.busWf s.bus = true) : Safety.busWf t.bus = true := by
  induction h with
  | refl => exact hs
  | run _ r ih => exact r.busWf ih
  | write _ e _ _ ih => exact e.bus ▸ ih

end Sys2Proof.Machine

namespace Sys2Proof.Safety

open Machine

/-! ### The ranges at the end of a scan -/

/-- Each low acknowledge has used up an address from SCAN_FIRST = 4 on, so the tenth comes at 13 at the earliest
(44_scanner.md R215, R216). -/
theorem Scanned.inRange {p : Params} {a bad : Nat} {x : Traffic} {e : ScanEnd} {n : Nat} (h : Scanned p a bad x e n)
    (hbad : bad ≤ 9) (ha : bad + 4 ≤ a) : ScanInRange p n e := by
  induction h with
  | exhausted => exact hbad
  | silent _ _ ih => exact ih hbad (by omega)
  | flagged _ _ hne _ ih => exact ih (by omega) (by omega)
  | aborted _ hlow hten => exact ⟨rfl, by omega, by omega⟩
  | unknown _ _ _ _ ih => exact ih hbad (by omega)
  | found hle hhigh hk _ => exact ⟨hbad, hk, hhigh, hle⟩

/-- The registers that a scan leaves are in the ranges of its end state. -/
theorem ScanLeft.scannerOk {e : ScanEnd} {n : Nat} {t : State} (h : ScanLeft e n t) (hr : ScanInRange t.params n e) :
    ScannerOk t := by
  cases e with
  | found a k =>
    obtain ⟨hstate, hresult, haddr, hfound, hkind, hbad, -⟩ := h
    obtain ⟨hn, hk, hlow, hhigh⟩ := hr
    simp only [ScannerOk, hstate]
    exact ⟨hresult, hkind ▸ hk, by omega, by omega, by omega, by omega⟩
  | noSensors =>
    obtain ⟨hstate, hresult, haddr, hfound, hkind, hbad, -⟩ := h
    simp only [ScannerOk, hstate]
    exact ⟨hfound, hkind, .inl ⟨hresult, haddr, hbad ▸ hr⟩⟩
  | busFault a =>
    obtain ⟨hstate, hresult, haddr, hfound, hkind, hbad, -⟩ := h
    obtain ⟨hn, hlow, hhigh⟩ := hr
    simp only [ScannerOk, hstate]
    exact ⟨hfound, hkind, .inr ⟨hresult, by omega, by omega, by omega⟩⟩

/-- A scan ends with its response delivered. -/
theorem ScanLeft.ready {e : ScanEnd} {n : Nat} {t : State} (h : ScanLeft e n t) : t.cmdReady = true := by
  cases e <;> obtain ⟨-, -, -, -, -, -, hresp⟩ := h <;> exact hresp.cmdReady

/-! ### The invariant inside a command -/

/-- The invariant without `cmd_ready`, which is 0 from the taking of a command to its response (10_state.md R42). -/
structure InvInside (s : State) : Prop where
  legal : s.params.Legal
  txLength : s.txbuf.length = s.params.bufLen
  rxLength : s.rxbuf.length = s.params.bufLen
  scanner : ScannerOk s
  untouched : s.configured = false → Untouched s
  bus : busWf s.bus = true

theorem inv_iff {s : State} : Inv s ↔ InvInside s ∧ s.cmdReady = true :=
  ⟨fun h => ⟨⟨h.legal, h.txLength, h.rxLength, h.scanner, h.untouched, h.bus⟩, h.ready⟩,
    fun ⟨h, hready⟩ => ⟨h.legal, h.txLength, h.rxLength, hready, h.scanner, h.untouched, h.bus⟩⟩

theorem ScannerOk.of_same {s t : State} (h : ScannerOk s) (hp : t.params = s.params) (hs : SameScanner s t) :
    ScannerOk t := by
  simpa only [ScannerOk, hp, hs.scanState, hs.scanAddr, hs.badCnt, hs.scanResult, hs.foundAddr, hs.foundKind] using h

theorem Untouched.of_same {s t : State} (h : Untouched s) (hh : SameHandle s t) (he : SameEngine s t)
    (hs : SameScanner s t) : Untouched t where
  sdaPin := hh.sdaPin.trans h.sdaPin
  sclPin := hh.sclPin.trans h.sclPin
  tier := hh.tier.trans h.tier
  sdaDrv := he.sdaDrv.trans h.sdaDrv
  sclDrv := he.sclDrv.trans h.sclDrv
  busOpen := he.busOpen.trans h.busOpen
  ack := he.ack.trans h.ack
  sr := he.sr.trans h.sr
  scanState := hs.scanState.trans h.scanState
  trace := he.trace.trans h.trace
  calls := he.calls.trans h.calls

/-- What writes only to the ports and to entries of the buffers keeps it, whether or not CONFIGURE has run. -/
theorem InvInside.of_same {s t : State} (h : InvInside s) (hp : t.params = s.params) (hh : SameHandle s t)
    (he : SameEngine s t) (hs : SameScanner s t) (htx : t.txbuf.length = s.txbuf.length)
    (hrx : t.rxbuf.length = s.rxbuf.length) : InvInside t where
  legal := hp ▸ h.legal
  txLength := by rw [htx, hp]; exact h.txLength
  rxLength := by rw [hrx, hp]; exact h.rxLength
  scanner := h.scanner.of_same hp hs
  untouched hc := (h.untouched (hh.configured ▸ hc)).of_same hh he hs
  bus := he.bus ▸ h.bus

/-- After CONFIGURE the effects of a command keep it, if they keep the lengths of the buffers and leave the scanner
registers in range. -/
theorem InvInside.of_effects {s t : State} (h : InvInside s) (hc : s.configured = true) (he : Effects s t)
    (htx : t.txbuf.length = s.txbuf.length) (hrx : t.rxbuf.length = s.rxbuf.length) (hs : ScannerOk t) :
    InvInside t where
  legal := he.world.params ▸ h.legal
  txLength := by rw [htx, he.world.params]; exact h.txLength
  rxLength := by rw [hrx, he.world.params]; exact h.rxLength
  scanner := hs
  untouched hc' := Bool.noConfusion ((he.handle.configured.trans hc).symm.trans hc')
  bus := he.busWf h.bus

theorem InvInside.of_runs {s t : State} (h : InvInside s) (hc : s.configured = true) (hr : Runs s t) : InvInside t :=
  have frame := hr.engineOnly
  h.of_effects hc (effects_of_runs hr) (congrArg List.length frame.buffers.txbuf)
    (congrArg List.length frame.buffers.rxbuf) (h.scanner.of_same frame.world.params frame.scanner)

/-- RXBUF keeps its length when the bytes read are stored (20_memory.md R68). -/
theorem InvInside.store {s : State} (h : InvInside s) (bytes : List Byte) :
    InvInside { s with rxbuf := storeBytes bytes s.rxbuf } :=
  h.of_same rfl ⟨rfl, rfl, rfl, rfl⟩ ⟨rfl, rfl, rfl, rfl, rfl, rfl, rfl, rfl, rfl⟩ ⟨rfl, rfl, rfl, rfl, rfl, rfl⟩ rfl
    (storeBytes_length bytes s.rxbuf)

/-- TXBUF keeps its length when an entry is written (45_host_access.md R230). -/
theorem InvInside.writeTx {s : State} (h : InvInside s) (idx val : Byte) :
    InvInside { s with txbuf := writeEntry s.txbuf idx val } :=
  h.of_same rfl ⟨rfl, rfl, rfl, rfl⟩ ⟨rfl, rfl, rfl, rfl, rfl, rfl, rfl, rfl, rfl⟩ ⟨rfl, rfl, rfl, rfl, rfl, rfl⟩
    List.length_set rfl

theorem InvInside.configure {s : State} (h : InvInside s) (sda scl : Byte) (tier : Tier) :
    InvInside { s with sdaPin := sda, sclPin := scl, tier := tier, configured := true } :=
  ⟨h.legal, h.txLength, h.rxLength, h.scanner.of_same rfl ⟨rfl, rfl, rfl, rfl, rfl, rfl⟩,
    nofun, h.bus⟩

/-! ### From the taking of a command to its response -/

/-- The response makes the block ready again. -/
theorem InvInside.respond {s : State} (h : InvInside s) (c : Code) (d : Data) : Inv (respond c d s) :=
  inv_iff.mpr ⟨h.of_same rfl (respond_engineOnly c d s).handle (respond_sameEngine c d s)
    (respond_engineOnly c d s).scanner rfl rfl, rfl⟩

theorem Inv.accept {s : State} (h : Inv s) (rest : List Input) : InvInside (accept rest s) :=
  (inv_iff.mp h).1.of_same rfl ⟨rfl, rfl, rfl, rfl⟩ ⟨rfl, rfl, rfl, rfl, rfl, rfl, rfl, rfl, rfl⟩
    ⟨rfl, rfl, rfl, rfl, rfl, rfl⟩ rfl rfl

theorem Inv.idle {s : State} (h : Inv s) : Inv (idle s) :=
  inv_iff.mpr ⟨(inv_iff.mp h).1.of_same rfl ⟨rfl, rfl, rfl, rfl⟩ ⟨rfl, rfl, rfl, rfl, rfl, rfl, rfl, rfl, rfl⟩
    ⟨rfl, rfl, rfl, rfl, rfl, rfl⟩ rfl rfl, h.ready⟩

theorem InvInside.checkArgs {s : State} (h : InvInside s) {fits : Bool} {command : State → State}
    (hcmd : Inv (command s)) : Inv (checkArgs fits command s) := by
  cases hf : fits with
  | true => exact checkArgs_of (f := command) (s := s) rfl ▸ hcmd
  | false => exact checkArgs_not (f := command) (s := s) rfl ▸ h.respond _ _

/-- Behind the check of the handle a command may rely on CONFIGURE having run (30_encoding.md R112). -/
theorem InvInside.checkHandle {s : State} (h : InvInside s) {command : State → State}
    (hcmd : s.configured = true → Inv (command s)) : Inv (checkHandle command s) := by
  cases hc : s.configured with
  | true => exact checkHandle_of (f := command) hc ▸ hcmd hc
  | false => exact checkHandle_not (f := command) hc ▸ h.respond _ _

/-- A command that drives the engine and then responds. -/
theorem InvInside.engineCommand {s : State} (h : InvInside s) {engine : State → State} {c : State → Code}
    {d : State → Data} (hr : Runs s (engine s)) :
    Inv (Machine.checkHandle (fun s => Machine.respond (c s) (d s) (engine s)) s) :=
  h.checkHandle fun hc => (h.of_runs hc hr).respond _ _

/-- A command that reads into RXBUF (42_engine_transfers.md R172, R176). -/
theorem InvInside.readCommand {s : State} (h : InvInside s) {read : State → Option (List Byte) × State}
    (hr : Runs s (read s).2) : Inv (Machine.checkHandle (fun s => respondRead (read s)) s) := by
  refine h.checkHandle fun hc => ?_
  have hread := h.of_runs hc hr
  unfold respondRead
  split
  · exact (hread.store _).respond _ _
  · exact hread.respond _ _

/-- SCAN (44_scanner.md R213, R216): the window is not empty, because SCAN_LAST is at least VALID_MIN. -/
theorem InvInside.scan {s : State} (h : InvInside s) (hc : s.configured = true) :
    Inv (scanFrom (scanWindow s.params) (scanEntry s)) := by
  obtain ⟨-, -, -, -, -, -, hlast⟩ := h.legal
  have hwindow : 16 ≤ s.params.scanLast.toNat := hlast
  obtain ⟨x, e, n, hscan, -, hleft, -⟩ := did_scan s (by omega)
  obtain ⟨heff, hbuf⟩ := execScan_effects s
  have hrange := hscan.inRange (Nat.zero_le 9) (Nat.le_refl 4)
  rw [← heff.world.params] at hrange
  exact inv_iff.mpr ⟨h.of_effects hc heff (congrArg List.length hbuf.txbuf) (congrArg List.length hbuf.rxbuf)
    (hleft.scannerOk hrange), hleft.ready⟩

/-- Every command, once taken, ends with the invariant. -/
theorem InvInside.exec {s t : State} (h : InvInside s) (i : Instr) (ht : exec i s = .next t) : Inv t := by
  cases i <;> obtain rfl := Host.Outcome.next.inj ht
  case configure sda scl speed => exact (h.configure sda scl (tierOf speed)).respond _ _
  case start a7 rw => exact h.engineCommand (runs_doStart a7 rw s)
  case stop => exact h.engineCommand (runs_doStop s)
  case writeByte b => exact h.engineCommand (runs_doWriteByte b s)
  case readByte last => exact h.engineCommand (runs_doReadByte last s)
  case writeN a7 len => exact h.checkArgs (h.engineCommand (runs_doWriteN a7 (payload s.txbuf len) s))
  case readN a7 len => exact h.checkArgs (h.readCommand (runs_doReadN a7 len.toNat s))
  case probe a7 => exact h.engineCommand (runs_doProbe a7 s)
  case readReg a7 reg len => exact h.checkArgs (h.readCommand (runs_doReadReg a7 reg len.toNat s))
  case scan => exact h.checkHandle h.scan
  case identify a7 => exact h.engineCommand (runs_doIdentify a7 s)
  case wrTx idx val => exact h.checkArgs ((h.writeTx idx val).respond _ _)
  case rdRx idx => exact h.checkArgs (h.respond _ _)
  case rdStat sel => exact h.respond _ _

/-! ### Resets -/

/-- Legal parameters and a canonical bus are all that a reset needs (10_state.md R48). -/
theorem inv_afterReset {p : Params} {b : Bus} (hp : p.Legal) (hb : busWf b = true) (inputs : List Input)
    (drawCtr epoch : Nat) : Inv (State.afterReset p inputs b drawCtr epoch) :=
  have table := afterReset_values p inputs b drawCtr epoch
  ⟨hp, table.txLength, table.rxLength, rfl, ⟨rfl, rfl, rfl, rfl, rfl⟩,
    fun _ => ⟨rfl, rfl, rfl, rfl, rfl, rfl, rfl, rfl, rfl, rfl, rfl⟩, hb⟩

/-- The parameters after power-on are in the ranges of 00_scope.md R9, whatever the free constants are. -/
theorem configParams_legal : Config.params.Legal := by
  refine ⟨?bufMin, ?bufMax, ?fast, ?med, ?ports, ?mask, by decide⟩
  case bufMin => exact Nat.le_add_right 2 _
  case bufMax => have := Nat.mod_lt Config.freeBufLen (y := 254) (by omega); simp only [Config.params]; omega
  case fast => exact Nat.le_add_right _ _
  case med => exact Nat.le_add_right _ _
  case ports =>
    have hlt := Nat.mod_lt Config.freePortB (y := 15) (by omega)
    simp only [Config.params]
    generalize Config.freePortB % 15 = n at hlt
    bv_omega
  case mask =>
    have hlt := Nat.mod_lt Config.freeMaskRtcATop (y := 255) (by omega)
    simp only [Config.params]
    generalize Config.freeMaskRtcATop % 255 = n at hlt
    bv_omega

theorem Inv.resetBlock {s : State} (h : Inv s) (rest : List Input) : Inv (resetBlock rest s) :=
  inv_afterReset h.legal h.bus _ _ _

theorem Inv.abort {s : State} (h : Inv s) (w : Word) (n : Nat) (rest : List Input) : Inv (abort w n rest s) :=
  inv_afterReset h.legal (resetMidCommand_busWf _ rest s h.bus) _ _ _

end Sys2Proof.Safety

namespace Sys2Proof.Proofs

open Sys2Proof.Machine Sys2Proof.Safety

/-- Settles O16: the parameters are legal and no pin is held. -/
theorem resetHasTheInvariant : Obligations.ResetHasTheInvariant :=
  inv_afterReset configParams_legal rfl _ _ _

/-- Settles O17, by what the step finds on the command port. -/
theorem everyStepKeepsTheInvariant : Obligations.EveryStepKeepsTheInvariant := by
  intro s t h ht
  unfold step at ht
  cases hport : port s with
  | quiet =>
    obtain rfl := Host.Outcome.next.inj (hport ▸ ht)
    exact h.idle
  | reset rest =>
    obtain rfl := Host.Outcome.next.inj (hport ▸ ht)
    exact h.resetBlock rest
  | abort w n rest =>
    obtain rfl := Host.Outcome.next.inj (hport ▸ ht)
    exact h.abort w n rest
  | take w rest =>
    simp only [hport] at ht
    cases hdec : decode w with
    | ok i => exact (h.accept rest).exec i (by simpa only [hdec] using ht)
    | error e =>
      simp only [hdec] at ht
      obtain rfl := Host.Outcome.next.inj ht
      exact (h.accept rest).respond _ _

end Sys2Proof.Proofs
end

section
/-! PROOFS. What a command keeps of the state (10_state.md R21 to R34, R50), what the step runs (R36, R42), and what a reset
leaves in the registers and the views (R43 to R48). -/

namespace Sys2Proof.Machine

open Safety

/-! ### The step -/

/-- A word that decodes runs its command on the state in which the word has been taken (10_state.md R42). -/
theorem step_of_takes {s : State} {w : Word} {rest : List Input} {i : Instr} (h : Takes s w rest)
    (hd : decode w = .ok i) : step s = exec i (accept rest s) := by
  simp only [step, port_takes h, hd]

/-- `rst` between commands resets the block, whatever `cmd_ready` is (70_reset_and_hazards.md R270). -/
theorem step_of_reset {s : State} {rest : List Input} (h : s.inputs = .reset :: rest) :
    step s = .next (resetBlock rest s) := by
  simp only [step, port_reset h]

/-! ### The checks -/

/-- Behind the check of the handle stands the refusal or the command, which may rely on CONFIGURE (30_encoding.md R112). -/
theorem checkHandle_elim {P : State → Prop} {command : State → State} {s : State} (hrefuse : P (refuse .notConfigured s))
    (hcommand : s.configured = true → P (command s)) : P (checkHandle command s) := by
  cases hc : s.configured with
  | true => exact checkHandle_of (f := command) hc ▸ hcommand hc
  | false => exact checkHandle_not (f := command) hc ▸ hrefuse

/-- Behind the check of an index or a length stands the refusal or the command (30_encoding.md R113). -/
theorem checkArgs_elim {P : State → Prop} {fits : Bool} {command : State → State} {s : State}
    (hrefuse : P (refuse .badArg s)) (hcommand : P (command s)) : P (checkArgs fits command s) := by
  cases fits with
  | true => exact checkArgs_of (f := command) (s := s) rfl ▸ hcommand
  | false => exact checkArgs_not (f := command) (s := s) rfl ▸ hrefuse

theorem respond_onlyResponse (c : Code) (d : Data) (s : State) : OnlyResponse (codeBits c) d s (respond c d s) :=
  have frame := respond_engineOnly c d s
  ⟨frame.world, frame.handle, frame.buffers, frame.scanner, respond_sameEngine c d s, respond_responded c d s⟩

end Sys2Proof.Machine

namespace Sys2Proof.Safety

open Machine

/-! ### Closed and released, open and held -/

theorem BusIdle.consistent {s : State} (h : BusIdle s) : BusConsistent s := by
  simpa only [BusConsistent, h.busOpen, Bool.false_eq_true, if_false] using And.intro h.sdaDrv h.sclDrv

theorem BusConsistent.of_held {s : State} (hopen : s.busOpen = true) (hsda : s.sdaDrv = .low) (hscl : s.sclDrv = .low) :
    BusConsistent s := by
  simpa only [BusConsistent, hopen, if_true] using And.intro hsda hscl

theorem BusConsistent.idle {s : State} (h : BusConsistent s) (hclosed : s.busOpen = false) : BusIdle s := by
  simp only [BusConsistent, hclosed, Bool.false_eq_true, if_false] at h
  exact ⟨hclosed, h.1, h.2⟩

theorem BusConsistent.of_sameEngine {s t : State} (h : BusConsistent s) (he : SameEngine s t) : BusConsistent t := by
  simpa only [BusConsistent, he.busOpen, he.sdaDrv, he.sclDrv] using h

theorem BusConsistent.respond {s : State} (h : BusConsistent s) (c : Code) (d : Data) :
    BusConsistent (Machine.respond c d s) :=
  h.of_sameEngine (respond_sameEngine c d s)

theorem BusIdle.respond {s : State} (h : BusIdle s) (c : Code) (d : Data) : BusIdle (Machine.respond c d s) :=
  ⟨h.busOpen, h.sdaDrv, h.sclDrv⟩

theorem BusIdle.respondRead {r : Option (List Byte) × State} (h : BusIdle r.2) : BusIdle (Machine.respondRead r) := by
  unfold Machine.respondRead
  split
  · exact ⟨h.busOpen, h.sdaDrv, h.sclDrv⟩
  · exact h.respond _ _

/-- A scan ends with an idle bus, also over an empty window, where it makes no transaction. -/
theorem BusIdle.scan {s : State} (h : BusIdle s) : BusIdle (scanFrom (scanWindow s.params) (scanEntry s)) := by
  by_cases hwindow : 4 ≤ s.params.scanLast.toNat
  · obtain ⟨-, -, -, -, -, -, hidle⟩ := did_scan s hwindow
    exact hidle
  · rw [scan_empty s (by omega)]
    exact ⟨h.busOpen, h.sdaDrv, h.sclDrv⟩

/-- The host issues a composite command only with the bus closed (70_reset_and_hazards.md R280). -/
theorem HostInOrder.closed {s : State} {i : Instr} (h : HostInOrder s i) (hi : closesBus i = true) :
    s.busOpen = false := by
  cases i with
  | writeN | readN | probe | readReg | scan | identify => exact h
  | _ => exact Bool.noConfusion hi

/-- From an idle bus a composite command ends with an idle bus, refused or not (42_engine_transfers.md R178). -/
theorem exec_composite_idle {s : State} {i : Instr} (hi : closesBus i = true) (h : BusIdle s) :
    ∃ t, exec i s = .next t ∧ BusIdle t := by
  have refused (c : Code) : BusIdle (refuse c s) := h.respond c _
  have guarded {command : State → State} (hcommand : BusIdle (command s)) : BusIdle (checkHandle command s) :=
    checkHandle_elim (refused _) fun _ => hcommand
  cases i with
  | writeN a7 len =>
    exact ⟨_, rfl, checkArgs_elim (refused _) (guarded ((doWriteN_idle a7 (payload s.txbuf len) s).respond _ _))⟩
  | readN a7 len => exact ⟨_, rfl, checkArgs_elim (refused _) (guarded (doReadN_idle a7 len.toNat s).respondRead)⟩
  | probe a7 => exact ⟨_, rfl, guarded ((doProbe_idle a7 s).respond _ _)⟩
  | readReg a7 reg len =>
    exact ⟨_, rfl, checkArgs_elim (refused _) (guarded (doReadReg_idle a7 reg len.toNat s).respondRead)⟩
  | scan => exact ⟨_, rfl, guarded h.scan⟩
  | identify a7 => exact ⟨_, rfl, guarded ((doIdentify_idle a7 s h).respond _ _)⟩
  | _ => exact Bool.noConfusion hi

/-- The other commands, in order, keep the bus consistent: START and the byte primitives leave it open and held, STOP leaves
it idle, and the rest do not touch it (41_engine_primitives.md R151 to R158). -/
theorem exec_primitive_consistent {s : State} {i : Instr} (hi : closesBus i = false) (h : BusConsistent s)
    (ho : HostInOrder s i) : ∃ t, exec i s = .next t ∧ BusConsistent t := by
  have refused (c : Code) : BusConsistent (refuse c s) := h.respond c _
  have guarded {command : State → State} (hcommand : BusConsistent (command s)) :
      BusConsistent (checkHandle command s) :=
    checkHandle_elim (refused _) fun _ => hcommand
  cases i with
  | configure sda scl speed => exact ⟨_, rfl, h.of_sameEngine ⟨rfl, rfl, rfl, rfl, rfl, rfl, rfl, rfl, rfl⟩⟩
  | start a7 rw => exact ⟨_, rfl, guarded ((BusConsistent.of_held (doStart_busOpen a7 rw s) rfl rfl).respond _ _)⟩
  | stop => exact ⟨_, rfl, guarded ((doStop_idle s).consistent.respond _ _)⟩
  | writeByte b =>
    exact ⟨_, rfl, guarded ((BusConsistent.of_held ((doWriteByte_busOpen b s).trans ho) rfl rfl).respond _ _)⟩
  | readByte last =>
    exact ⟨_, rfl, guarded ((BusConsistent.of_held ((doReadByte_busOpen last s).trans ho) rfl rfl).respond _ _)⟩
  | wrTx idx val =>
    exact ⟨_, rfl, checkArgs_elim (refused _) (h.of_sameEngine ⟨rfl, rfl, rfl, rfl, rfl, rfl, rfl, rfl, rfl⟩)⟩
  | rdRx idx => exact ⟨_, rfl, checkArgs_elim (refused _) (h.respond _ _)⟩
  | rdStat sel => exact ⟨_, rfl, h.respond _ _⟩
  | _ => exact Bool.noConfusion hi

/-! ### Which command writes what -/

/-- From `s` to `t` only what the command `i` may write has been written (10_state.md R21 to R34). -/
structure WritesOnlyItsOwn (i : Instr) (s t : State) : Prop where
  world : SameWorld s t
  handle : (∀ sda scl speed, i ≠ .configure sda scl speed) → SameHandle s t
  txbuf : (∀ idx val, i ≠ .wrTx idx val) → t.txbuf = s.txbuf
  rxbuf : (∀ a7 len, i ≠ .readN a7 len) → (∀ a7 reg len, i ≠ .readReg a7 reg len) → t.rxbuf = s.rxbuf
  scanner : i ≠ .scan → SameScanner s t

theorem EngineOnly.writesOnlyItsOwn {s t : State} (h : EngineOnly s t) (i : Instr) : WritesOnlyItsOwn i s t :=
  ⟨h.world, fun _ => h.handle, fun _ => h.buffers.txbuf, fun _ _ => h.buffers.rxbuf, fun _ => h.scanner⟩

/-- The end of a read writes nothing but the engine, the response port and RXBUF. -/
theorem respondRead_frame {s : State} {r : Option (List Byte) × State} (h : EngineOnly s r.2) :
    SameWorld s (respondRead r) ∧ SameHandle s (respondRead r) ∧ (respondRead r).txbuf = s.txbuf ∧
      SameScanner s (respondRead r) := by
  obtain ⟨⟨hparams, hinputs, hepoch⟩, ⟨hconf, hsda, hscl, htier⟩, ⟨htx, -⟩, ⟨h1, h2, h3, h4, h5, h6⟩⟩ := h
  unfold respondRead
  split <;>
    exact ⟨⟨hparams, hinputs, hepoch⟩, ⟨hconf, hsda, hscl, htier⟩, htx, ⟨h1, h2, h3, h4, h5, h6⟩⟩

/-- Every command writes only its own, refused or not. -/
theorem exec_writesOnlyItsOwn (i : Instr) (s : State) : ∃ t, exec i s = .next t ∧ WritesOnlyItsOwn i s t := by
  have refused (c : Code) : WritesOnlyItsOwn i s (refuse c s) := (respond_engineOnly c _ s).writesOnlyItsOwn i
  have guarded {command : State → State} (hcommand : WritesOnlyItsOwn i s (command s)) :
      WritesOnlyItsOwn i s (checkHandle command s) :=
    checkHandle_elim (refused _) fun _ => hcommand
  have engine {t : State} (hr : Runs s t) (c : Code) (d : Data) : WritesOnlyItsOwn i s (respond c d t) :=
    (hr.engineOnly.respond c d).writesOnlyItsOwn i
  cases i with
  | configure sda scl speed =>
    exact ⟨_, rfl, ⟨rfl, rfl, rfl⟩, fun hi => absurd rfl (hi sda scl speed), fun _ => rfl, fun _ _ => rfl,
      fun _ => ⟨rfl, rfl, rfl, rfl, rfl, rfl⟩⟩
  | start a7 rw => exact ⟨_, rfl, guarded (engine (runs_doStart a7 rw s) _ _)⟩
  | stop => exact ⟨_, rfl, guarded (engine (runs_doStop s) _ _)⟩
  | writeByte b => exact ⟨_, rfl, guarded (engine (runs_doWriteByte b s) _ _)⟩
  | readByte last => exact ⟨_, rfl, guarded (engine (runs_doReadByte last s) _ _)⟩
  | writeN a7 len =>
    exact ⟨_, rfl, checkArgs_elim (refused _) (guarded (engine (runs_doWriteN a7 (payload s.txbuf len) s) _ _))⟩
  | readN a7 len =>
    obtain ⟨hworld, hhandle, htx, hscan⟩ := respondRead_frame (runs_doReadN a7 len.toNat s).engineOnly
    exact ⟨_, rfl, checkArgs_elim (refused _) (guarded ⟨hworld, fun _ => hhandle, fun _ => htx,
      fun hi _ => absurd rfl (hi a7 len), fun _ => hscan⟩)⟩
  | probe a7 => exact ⟨_, rfl, guarded (engine (runs_doProbe a7 s) _ _)⟩
  | readReg a7 reg len =>
    obtain ⟨hworld, hhandle, htx, hscan⟩ := respondRead_frame (runs_doReadReg a7 reg len.toNat s).engineOnly
    exact ⟨_, rfl, checkArgs_elim (refused _) (guarded ⟨hworld, fun _ => hhandle, fun _ => htx,
      fun _ hi => absurd rfl (hi a7 reg len), fun _ => hscan⟩)⟩
  | scan =>
    obtain ⟨heff, hbuf⟩ := execScan_effects s
    exact ⟨_, rfl, guarded ⟨heff.world, fun _ => heff.handle, fun _ => hbuf.txbuf, fun _ _ => hbuf.rxbuf,
      fun hi => absurd rfl hi⟩⟩
  | identify a7 => exact ⟨_, rfl, guarded (engine (runs_doIdentify a7 s) _ _)⟩
  | wrTx idx val =>
    exact ⟨_, rfl, checkArgs_elim (refused _) ⟨⟨rfl, rfl, rfl⟩, fun _ => ⟨rfl, rfl, rfl, rfl⟩,
      fun hi => absurd rfl (hi idx val), fun _ _ => rfl, fun _ => ⟨rfl, rfl, rfl, rfl, rfl, rfl⟩⟩⟩
  | rdRx idx => exact ⟨_, rfl, checkArgs_elim (refused _) (engine (.refl s) _ _)⟩
  | rdStat sel => exact ⟨_, rfl, engine (.refl s) _ _⟩

/-! ### The views after a reset -/

theorem ResetValues.statusView {s : State} (h : ResetValues s) : statusView s = 0x00000C#24 := by
  simp only [Machine.statusView, h.sr, h.configured, h.sclDrv, h.sdaDrv, h.ack, h.busOpen]
  decide

theorem ResetValues.configView {s : State} (h : ResetValues s) : configView s = 0x020000#24 := by
  simp only [Machine.configView, h.configured, h.tier, h.sclPin, h.sdaPin]
  decide

theorem ResetValues.scanstatView {s : State} (h : ResetValues s) : scanstatView s = 0x000000#24 := by
  simp only [Machine.scanstatView, h.scanAddr, h.badCnt, h.scanResult, h.scanState]
  decide

theorem ResetValues.foundView {s : State} (h : ResetValues s) : foundView s = 0x000000#24 := by
  simp only [Machine.foundView, h.foundAddr, h.foundKind]
  decide

/-- RDSTAT answers OK with the view and changes nothing else (45_host_access.md R232). -/
theorem exec_rdStat (sel : View) (s : State) :
    ∃ t, exec (.rdStat sel) s = .next t ∧ OnlyResponse 0x0#4 (view sel s) s t :=
  ⟨_, rfl, respond_onlyResponse .ok _ s⟩

end Sys2Proof.Safety

namespace Sys2Proof.Proofs

open Sys2Proof.Machine Sys2Proof.Safety

/-- Settles O18: a composite command starts and ends idle; the others are open and held, idle, or do not touch the bus. -/
theorem orderKeepsTheBusConsistent : Obligations.OrderKeepsTheBusConsistent := by
  refine ⟨BusIdle.consistent ⟨rfl, rfl, rfl⟩, fun s i h ho => ?_⟩
  cases hi : closesBus i with
  | true =>
    obtain ⟨t, ht, hidle⟩ := exec_composite_idle hi (h.idle (ho.closed hi))
    exact ⟨t, ht, hidle.consistent, fun _ => hidle.busOpen⟩
  | false =>
    obtain ⟨t, ht, hcons⟩ := exec_primitive_consistent hi h ho
    exact ⟨t, ht, hcons, nofun⟩

/-- Settles O19: by the command; behind the checks stands a refusal or a run of the engine with the command's own writes. -/
theorem onlyTheNamedCommandsWrite : Obligations.OnlyTheNamedCommandsWrite := by
  intro i s
  obtain ⟨t, ht, hworld, hhandle, htx, hrx, hscan⟩ := exec_writesOnlyItsOwn i s
  exact ⟨t, ht, hworld, hhandle, htx, hrx, hscan⟩

/-- Settles O11: the command port has the word, and the word decodes. -/
theorem stepRunsTheDecodedCommand : Obligations.StepRunsTheDecodedCommand :=
  fun _ _ _ _ htakes hdecode => step_of_takes htakes hdecode

/-- Settles O14: both resets leave a state of the table, and `rst` takes the parameters, the inputs and the bus over. -/
theorem resetLeavesTheTable : Obligations.ResetLeavesTheTable :=
  ⟨afterReset_values _ _ _ _ _, fun s rest h =>
    ⟨resetBlock rest s, step_of_reset h, afterReset_values _ _ _ _ _, rfl, rfl, rfl⟩⟩

/-- Settles O34: RDSTAT answers with the view, and the table gives the view's value. -/
theorem viewsAfterReset : Obligations.ViewsAfterReset := by
  intro s h
  have read (sel : View) {d : Data} (hd : view sel s = d) :
      ∃ t, exec (.rdStat sel) s = .next t ∧ OnlyResponse 0x0#4 d s t :=
    hd ▸ exec_rdStat sel s
  exact ⟨read .status h.statusView, read .config h.configView, read .scanstat h.scanstatView, read .found h.foundView⟩

end Sys2Proof.Proofs
end

section
/-! PROOFS. The register file of a reference responder (20_memory.md R83), and what WRITEN and READREG do with it
(95_test_vectors.md S6). -/

namespace Sys2Proof.Machine

open Safety

/-! ### The register file -/

theorem storeAll_wf {m : Memory} (h : m.wf = true) (ptr : Byte) (bytes : List Byte) :
    (storeAll m ptr bytes).wf = true := by
  induction bytes generalizing m ptr with
  | nil => exact h
  | cons b bytes ih => exact ih (Memory.wf_write _ b h) _

/-- The pointer wraps past register 255. -/
theorem toNat_next (ptr : Byte) : (ptr + 1).toNat = (ptr.toNat + 1) % 256 := BitVec.toNat_add ptr 1

/-- The bytes of a write go to the registers from the pointer on, wrapping past register 255, and to no other (R83). -/
theorem read_storeAll_other {m : Memory} (h : m.wf = true) {ptr : Byte} {bytes : List Byte} {a : Nat}
    (ha : ∀ k < bytes.length, a ≠ (ptr.toNat + k) % 256) : (storeAll m ptr bytes).read a = m.read a := by
  induction bytes generalizing m ptr with
  | nil => rfl
  | cons b bytes ih =>
    have hlt := ptr.isLt
    have hhead : a ≠ ptr.toNat := by have := ha 0 (Nat.succ_pos _); omega
    have htail : ∀ k < bytes.length, a ≠ ((ptr + 1).toNat + k) % 256 := by
      intro k hk
      have := ha (k + 1) (Nat.succ_lt_succ hk)
      rw [toNat_next]
      omega
    calc (storeAll (m.write ptr.toNat b) (ptr + 1) bytes).read a
        = (m.write ptr.toNat b).read a := ih (Memory.wf_write _ b h) htail
      _ = m.read a := by rw [Memory.read_write _ _ _ h, if_neg hhead]

/-- Up to 256 bytes overwrite none of their own, so all of them are read back. -/
theorem readAll_storeAll {m : Memory} (h : m.wf = true) (ptr : Byte) {bytes : List Byte} (hlen : bytes.length ≤ 256) :
    readAll (storeAll m ptr bytes) ptr bytes.length = bytes := by
  induction bytes generalizing m ptr with
  | nil => rfl
  | cons b bytes ih =>
    simp only [List.length_cons] at hlen
    have hwf := Memory.wf_write ptr.toNat b h
    have hhead : (storeAll (m.write ptr.toNat b) (ptr + 1) bytes).read ptr.toNat = b := by
      rw [read_storeAll_other hwf, Memory.read_write _ _ _ h, if_pos rfl]
      intro k hk
      have := ptr.isLt
      rw [toNat_next]
      omega
    exact congrArg₂ List.cons hhead (ih hwf (ptr + 1) (by omega))

/-! ### A device on the bus, seen from the commands -/

/-- Whether the device is alone on the bus depends on the bus, the parameters and the handle only. -/
theorem oneDevice_of_bus {s t : State} {d : Responder} (h : OneDevice s d) (hb : t.bus = s.bus)
    (hp : t.params = s.params) (hh : SameHandle s t) : OneDevice t d where
  readable := by
    simpa only [readable, onePin, hp, hh.sdaPin, hh.sclPin, hb] using h.readable
  clock := by rw [hp, hh.sclPin]; exact h.clock
  hangs := by rw [hh.sclPin, hb]; exact h.hangs
  script := hb ▸ h.script
  rest := hb ▸ h.rest
  sda := hb ▸ h.sda
  scl := hb ▸ h.scl
  clockFree := hb ▸ h.clockFree
  clockScript := hb ▸ h.clockScript
  silent := h.silent

/-- WRITEN of a register number and bytes behind it to the device is answered OK, and its register file has the bytes
(42_engine_transfers.md R170; R83). -/
theorem exec_writeN_device {s : State} {d : Responder} {len reg : Byte} {bytes : List Byte}
    (hc : s.configured = true) (h : OneDevice s d) (hs : d.stores = true) (hf : len.toNat ≤ s.params.bufLen)
    (htx : s.txbuf.take len.toNat = reg :: bytes) :
    ∃ t e, exec (.writeN d.addr len) s = .next t ∧ Responded 0x0#4 0#24 t ∧ EngineOnly s t ∧ OneDevice t e ∧
      e.addr = d.addr ∧ e.mem = storeAll d.mem reg bytes := by
  obtain ⟨hok, e, hdev, haddr, -, hmem⟩ := oneDevice_doWriteN d.addr reg bytes h (.inl hs)
  have hrun := runs_doWriteN d.addr (reg :: bytes) s
  rw [decide_eq_true rfl] at hok
  rw [if_pos rfl] at hmem
  have hexec : exec (.writeN d.addr len) s = .next (respond .ok 0#24 (doWriteN d.addr (reg :: bytes) s).2) := by
    refine congrArg Host.Outcome.next ((checkArgs_of (decide_eq_true hf)).trans ((checkHandle_of hc).trans ?_))
    simp only [payload, htx, hok, ackCode, if_true]
  exact ⟨_, e, hexec, respond_responded .ok _ _, hrun.engineOnly.respond _ _,
    oneDevice_of_bus hdev rfl rfl ⟨rfl, rfl, rfl, rfl⟩, haddr, hmem.1⟩

/-- READREG of the device is answered OK and puts its registers into the first entries of RXBUF (R176; R83). -/
theorem exec_readReg_device {s : State} {d : Responder} (reg : Byte) {len : Byte} (hc : s.configured = true)
    (h : OneDevice s d) (hlen : 1 ≤ len.toNat) (hf : len.toNat ≤ s.params.bufLen)
    (hrx : s.rxbuf.length = s.params.bufLen) :
    ∃ t, exec (.readReg d.addr reg len) s = .next t ∧ Responded 0x0#4 0#24 t ∧
      t.rxbuf = readAll d.mem reg len.toNat ++ s.rxbuf.drop len.toNat := by
  obtain ⟨n, hn⟩ := Nat.exists_eq_add_of_le' hlen
  obtain ⟨hbytes, -⟩ := oneDevice_doReadReg d.addr reg n h
  have hframe := (runs_doReadReg d.addr reg len.toNat s).engineOnly
  rw [if_pos rfl, ← hn] at hbytes
  refine ⟨_, congrArg Host.Outcome.next ((checkArgs_of (decide_eq_true hf)).trans (checkHandle_of hc)), ?_⟩
  simp only [respondRead, hbytes]
  refine ⟨respond_responded .ok _ _, ?_⟩
  rw [respond_rxbuf, storeBytes_eq _ _ (by rw [readAll_length, hframe.buffers.rxbuf, hrx]; exact hf), readAll_length,
    hframe.buffers.rxbuf]

end Sys2Proof.Machine

namespace Sys2Proof.Proofs

open Sys2Proof.Machine Sys2Proof.Safety

/-- Settles O46, by the rules of a write to a canonical register file. -/
theorem registerFileReadsWhatWasWritten : Obligations.RegisterFileReadsWhatWasWritten := by
  intro m a b h
  refine ⟨Memory.wf_write a b h, ?_, fun a' hne => ?_⟩
  · rw [Memory.read_write a a b h, if_pos rfl]
  · rw [Memory.read_write a a' b h, if_neg hne]

/-- Settles O49: the write stores the bytes from the register on, and the read gives the registers from there on. -/
theorem whatWasWrittenIsReadBack : Obligations.WhatWasWrittenIsReadBack := by
  intro s d reg bytes len hc h hs hwf hlen hfit hmax hrx htx hbytes
  have hnext : (len + 1#8).toNat = len.toNat + 1 := (toNat_next len).trans (Nat.mod_eq_of_lt (by omega))
  obtain ⟨t, e, hwrite, hok, hframe, hdev, haddr, hmem⟩ :=
    exec_writeN_device (len := len + 1#8) hc h hs (hnext ▸ hfit) (hnext ▸ htx)
  obtain ⟨u, hread, hok', hrx'⟩ := exec_readReg_device reg (len := len) (hframe.handle.configured.trans hc) hdev hlen
    (by rw [hframe.world.params]; omega) (by rw [hframe.buffers.rxbuf, hframe.world.params, hrx])
  rw [haddr] at hread
  refine ⟨t, u, hwrite, hok, hread, hok', ?_⟩
  have hback : readAll e.mem reg len.toNat = bytes := by
    rw [hmem, ← hbytes]
    exact readAll_storeAll hwf reg (by omega)
  rw [hrx', hback, ← hbytes, List.take_left]

end Sys2Proof.Proofs
end

section
/-! PROOFS. Whoever holds SCL, BBI2CM does not see it (20_memory.md R74): every command commutes with forgetting it. -/

namespace Sys2Proof.Machine

open Safety

theorem checkHandle_blind {command : State → State} {s : State} (h : command (blind s) = blind (command s)) :
    checkHandle command (blind s) = blind (checkHandle command s) := by
  cases hc : s.configured with
  | true => rw [checkHandle_of hc, checkHandle_of (s := blind s) hc, h]
  | false =>
    rw [checkHandle_not hc, checkHandle_not (s := blind s) hc]
    rfl

theorem checkArgs_blind {fits : Bool} {command : State → State} {s : State}
    (h : command (blind s) = blind (command s)) : checkArgs fits command (blind s) = blind (checkArgs fits command s) := by
  cases fits with
  | true => exact h
  | false => rfl

/-- A command that drives the engine and then responds with what the engine gave. -/
theorem engineCommand_blind {α : Type} (engine : State → α × State) (c : α → Code) (d : α → Data) {s : State}
    (h : engine (blind s) = ((engine s).1, blind (engine s).2)) :
    checkHandle (fun s => respond (c (engine s).1) (d (engine s).1) (engine s).2) (blind s) =
      blind (checkHandle (fun s => respond (c (engine s).1) (d (engine s).1) (engine s).2) s) :=
  checkHandle_blind (by simp only [h]; rfl)

/-- A command that reads into RXBUF (42_engine_transfers.md R172, R176). -/
theorem readCommand_blind {read : State → Option (List Byte) × State} {s : State}
    (h : read (blind s) = ((read s).1, blind (read s).2)) :
    checkHandle (fun s => respondRead (read s)) (blind s) = blind (checkHandle (fun s => respondRead (read s)) s) := by
  refine checkHandle_blind ?_
  simp only [h, respondRead]
  cases (read s).1 <;> rfl

/-- On a bus without responders every command commutes with forgetting what everyone else gives SCL (R74). -/
theorem exec_blind (i : Instr) {s : State} (h : Quiet s) :
    ∃ t, exec i s = .next t ∧ exec i (blind s) = .next (blind t) := by
  cases i with
  | configure sda scl speed => exact ⟨_, rfl, rfl⟩
  | start a7 rw =>
    exact ⟨_, rfl, congrArg _ (engineCommand_blind (doStart a7 rw) ackCode (fun _ => 0#24) (doStart_blind a7 rw h))⟩
  | stop => exact ⟨_, rfl, congrArg _ (checkHandle_blind (congrArg (respond .ok 0#24) (doStop_blind h)))⟩
  | writeByte b =>
    exact ⟨_, rfl, congrArg _ (engineCommand_blind (doWriteByte b) ackCode (fun _ => 0#24) (doWriteByte_blind b h))⟩
  | readByte last =>
    exact ⟨_, rfl, congrArg _ (engineCommand_blind (doReadByte last) (fun _ => .ok) byteData (doReadByte_blind last h))⟩
  | writeN a7 len =>
    exact ⟨_, rfl, congrArg _ (checkArgs_blind (engineCommand_blind (fun s => doWriteN a7 (payload s.txbuf len) s) ackCode
      (fun _ => 0#24) (doWriteN_blind a7 _ h)))⟩
  | readN a7 len => exact ⟨_, rfl, congrArg _ (checkArgs_blind (readCommand_blind (doReadN_blind a7 len.toNat h)))⟩
  | probe a7 =>
    exact ⟨_, rfl, congrArg _ (engineCommand_blind (doProbe a7) ackCode (fun _ => 0#24) (doProbe_blind a7 h))⟩
  | readReg a7 reg len =>
    exact ⟨_, rfl, congrArg _ (checkArgs_blind (readCommand_blind (doReadReg_blind a7 reg len.toNat h)))⟩
  | scan =>
    exact ⟨_, rfl, congrArg _ (checkHandle_blind (command := fun s => scanFrom (scanWindow s.params) (scanEntry s))
      (scanFrom_blind (s := scanEntry s) _ h))⟩
  | identify a7 =>
    exact ⟨_, rfl, congrArg _ (engineCommand_blind (doIdentify a7) (fun _ => .ok) kindData (doIdentify_blind a7 h))⟩
  | wrTx idx val => exact ⟨_, rfl, congrArg Host.Outcome.next (checkArgs_blind (by rfl))⟩
  | rdRx idx => exact ⟨_, rfl, congrArg Host.Outcome.next (checkArgs_blind (by rfl))⟩
  | rdStat sel => cases sel <;> exact ⟨_, rfl, rfl⟩

end Sys2Proof.Machine

namespace Sys2Proof.Proofs

open Sys2Proof.Machine Sys2Proof.Safety

/-- Settles O51: two states that differ in SCL only are one state without it, and every command commutes with forgetting
it. -/
theorem clockIsNeverRead : Obligations.ClockIsNeverRead := by
  intro i s s' hquiet hscl
  have hquiet' : Quiet s' := by
    unfold Quiet
    rw [hscl]
    exact hquiet
  obtain ⟨t, ht, hblind⟩ := exec_blind i (s := s) hquiet
  obtain ⟨t', ht', hblind'⟩ := exec_blind i hquiet'
  rw [butForScl_iff.mp hscl] at hblind
  exact ⟨t, t', ht, ht', butForScl_iff.mpr (Host.Outcome.next.inj (hblind.symm.trans hblind'))⟩

end Sys2Proof.Proofs
end

section
/-! PROOFS. The START and STOP conditions of every command, as the drive states tell (20_memory.md R75, R76;
42_engine_transfers.md R178). -/

namespace Sys2Proof.Safety

open Machine

/-! ### Which commands are refused -/

/-- A command that does not fit, or that needs the handle before CONFIGURE, is refused (30_encoding.md R110 to R113). -/
theorem exec_refused {i : Instr} {s : State}
    (h : ¬(i.fits s.params.bufLen = true ∧ (i.needsHandle = true → s.configured = true))) :
    ∃ c, exec i s = .next (refuse c s) := by
  by_cases hf : i.fits s.params.bufLen = true
  · simp only [hf, true_and, Classical.not_imp, Bool.not_eq_true] at h
    obtain ⟨hneeds, hunset⟩ := h
    exact ⟨_, exec_notConfigured i s hf hneeds hunset⟩
  · exact ⟨_, exec_badArg i s (Bool.eq_false_of_not_eq_true hf)⟩

/-! ### The START and STOP conditions of a command -/

theorem respondRead_trace (r : Option (List Byte) × State) : (respondRead r).trace = r.2.trace := by
  unfold respondRead
  split <;> rfl

/-- With the clock held low a byte makes no condition, whatever the data line is. -/
theorem Inside.conditions_held {es : List Event} (h : Inside es) {s : State} (hscl : s.sclDrv = .low) :
    conditions s.sdaDrv s.sclDrv es = [] := by
  rw [hscl, h.conds]

/-- From an idle bus so many transactions make so many pairs of conditions (42_engine_transfers.md R178). -/
theorem Pairs.conditions_idle {es : List Event} {n : Nat} (h : Pairs es n) {s : State} (hs : BusIdle s) :
    conditions s.sdaDrv s.sclDrv es = matched n := by
  rw [hs.sdaDrv, hs.sclDrv, h.conds]

theorem BusConsistent.held {s : State} (h : BusConsistent s) (hopen : s.busOpen = true) :
    s.sdaDrv = .low ∧ s.sclDrv = .low := by
  simpa only [BusConsistent, hopen, if_true] using h

/-- STOP closes the transaction that is open, or makes an empty pair from the idle bus (41_engine_primitives.md R155). -/
theorem stopOut_conditions {s : State} (h : BusConsistent s) :
    conditions s.sdaDrv s.sclDrv stopOut = if s.busOpen then [.stop] else [.start, .stop] := by
  cases hopen : s.busOpen with
  | true =>
    obtain ⟨hsda, hscl⟩ := h.held hopen
    rw [hsda, hscl]
    rfl
  | false =>
    have hidle := h.idle hopen
    rw [hidle.sdaDrv, hidle.sclDrv]
    rfl

/-- A scan is so many transactions, none over an empty window. -/
theorem pairs_scan (s : State) :
    ∃ es n, (scanFrom (scanWindow s.params) (scanEntry s)).trace = s.trace ++ es ∧ Pairs es n := by
  by_cases hwindow : 4 ≤ s.params.scanLast.toNat
  · obtain ⟨x, e, m, hscan, hdid, -⟩ := did_scan s hwindow
    obtain ⟨n, hn⟩ := pairs_scanned hscan
    exact ⟨x.events, n, hdid.trace, hn⟩
  · rw [scan_empty s (by omega)]
    exact ⟨[], 0, (List.append_nil _).symm, rfl, rfl, rfl⟩

/-- A command that is not refused, in order and from consistent drive states, makes exactly its conditions. -/
theorem exec_conditions {i : Instr} {s : State} (hf : i.fits s.params.bufLen = true)
    (hc : i.needsHandle = true → s.configured = true) (h : BusConsistent s) (ho : HostInOrder s i) :
    ∃ es t, exec i s = .next t ∧ t.trace = s.trace ++ es ∧ conditionsOf s i (conditions s.sdaDrv s.sclDrv es) := by
  have engine {command : State → State} (hn : i.needsHandle = true) :
      (.next (checkHandle command s) : Host.Outcome State Fault Refusal) = .next (command s) :=
    congrArg _ (checkHandle_of (hc hn))
  have transfer {command : State → State} (hn : i.needsHandle = true) :
      (.next (checkArgs (i.fits s.params.bufLen) (checkHandle command) s) : Host.Outcome State Fault Refusal) =
        .next (command s) :=
    congrArg _ ((checkArgs_of hf).trans (checkHandle_of (hc hn)))
  cases i with
  | configure sda scl speed => exact ⟨[], _, rfl, (List.append_nil _).symm, rfl⟩
  | start a7 rw =>
    have hidle := h.idle ho
    refine ⟨_, _, engine rfl, (did_doStart a7 rw s).trace, ?_⟩
    rw [hidle.sdaDrv, hidle.sclDrv]
    exact (started_conditions a7 rw _).1
  | stop => exact ⟨_, _, engine rfl, (did_doStop s).trace, stopOut_conditions h⟩
  | writeByte b =>
    exact ⟨_, _, engine rfl, (did_doWriteByte b s).trace, (inside_byteOut b _).conditions_held (h.held ho).2⟩
  | readByte last =>
    obtain ⟨ks, -, -, hdid⟩ := did_doReadByte last s
    exact ⟨_, _, engine rfl, hdid.trace, (inside_byteIn ks last).conditions_held (h.held ho).2⟩
  | writeN a7 len =>
    obtain ⟨x, hx, hdid⟩ := did_doWriteN a7 (payload s.txbuf len) s
    exact ⟨_, _, transfer rfl, hdid.trace, (pairs_writeTx hx).conditions_idle (h.idle ho)⟩
  | readN a7 len =>
    obtain ⟨x, hx, hdid⟩ := did_doReadN a7 len.toNat s
    exact ⟨_, _, transfer rfl, (respondRead_trace _).trans hdid.trace, (pairs_readTx hx).conditions_idle (h.idle ho)⟩
  | probe a7 =>
    exact ⟨_, _, engine rfl, (did_doProbe a7 s).trace, (pairs_probed a7 _).conditions_idle (h.idle ho)⟩
  | readReg a7 reg len =>
    obtain ⟨x, hx, hdid⟩ := did_doReadReg a7 reg len.toNat s
    exact ⟨_, _, transfer rfl, (respondRead_trace _).trans hdid.trace,
      (pairs_regRead hx).imp (·.conditions_idle (h.idle ho)) (·.conditions_idle (h.idle ho))⟩
  | scan =>
    obtain ⟨es, n, htrace, hpairs⟩ := pairs_scan s
    exact ⟨es, _, engine rfl, htrace, n, hpairs.conditions_idle (h.idle ho)⟩
  | identify a7 =>
    obtain ⟨x, hx, hdid⟩ := did_doIdentify a7 s
    obtain ⟨n, hn, hpairs⟩ := pairs_identified hx
    exact ⟨_, _, engine rfl, hdid.trace, n, hn, hpairs.conditions_idle (h.idle ho)⟩
  | wrTx idx val => exact ⟨[], _, congrArg Host.Outcome.next (checkArgs_of hf), (List.append_nil _).symm, rfl⟩
  | rdRx idx => exact ⟨[], _, congrArg Host.Outcome.next (checkArgs_of hf), (List.append_nil _).symm, rfl⟩
  | rdStat sel => exact ⟨[], _, rfl, (List.append_nil _).symm, rfl⟩

end Sys2Proof.Safety

namespace Sys2Proof.Proofs

open Sys2Proof.Machine Sys2Proof.Safety

/-- Settles O39: a command that is not refused is its traffic, and the conditions of traffic are counted piece by piece. -/
theorem startsAndStopsAreMatched : Obligations.StartsAndStopsAreMatched := by
  intro i s h ho
  by_cases hrun : i.fits s.params.bufLen = true ∧ (i.needsHandle = true → s.configured = true)
  · simp only [if_pos hrun]
    obtain ⟨hfits, hhandle⟩ := hrun
    exact exec_conditions hfits hhandle h ho
  · simp only [if_neg hrun]
    obtain ⟨c, hexec⟩ := exec_refused hrun
    exact ⟨[], _, hexec, (List.append_nil _).symm, rfl⟩

end Sys2Proof.Proofs
end

section
/-! PROOFS. The command words: what the decoder answers on a row of the opcode map and off it, that the word of a command
is the only one that selects it (30_encoding.md R101 to R103), and the checks on a word that is taken (R104 to R113). -/

namespace Sys2Proof.Safety

open Machine

/-! ### The rows of the opcode map -/

/-- The row of the command, with the operands that the word has in the fields of the row's format (R101, R102). -/
def readOperands (w : Word) : Instr → Instr
  | .configure _ _ _ => .configure (f1Field w) (f2Field w) (f4Field w)
  | .start _ _ => .start (a7Field w) (rwField w)
  | .stop => .stop
  | .writeByte _ => .writeByte (f1Field w)
  | .readByte _ => .readByte (lastField w)
  | .writeN _ _ => .writeN (a7Field w) (f3Field w)
  | .readN _ _ => .readN (a7Field w) (f3Field w)
  | .probe _ => .probe (a7Field w)
  | .readReg _ _ _ => .readReg (a7Field w) (f2Field w) (f3Field w)
  | .scan => .scan
  | .identify _ => .identify (a7Field w)
  | .wrTx _ _ => .wrTx (f1Field w) (f2Field w)
  | .rdRx _ => .rdRx (f1Field w)
  | .rdStat _ => .rdStat (selField w)

@[simp] theorem maskOf_readOperands (w : Word) (row : Instr) : maskOf (readOperands w row) = maskOf row := by
  cases row <;> rfl

@[simp] theorem matchOf_readOperands (w : Word) (row : Instr) : matchOf (readOperands w row) = matchOf row := by
  cases row <;> rfl

@[simp] theorem readOperands_readOperands (w : Word) (row : Instr) :
    readOperands w (readOperands w row) = readOperands w row := by
  cases row <;> rfl

theorem eq_rwField_iff (w : Word) (rw : Dir) : rw = rwField w ↔ (rw = .read ↔ w.getLsbD 40 = true) := by
  unfold rwField
  cases rw <;> cases w.getLsbD 40 <;> decide

theorem viewNumber_selField (w : Word) : viewNumber (selField w) = w.extractLsb' 48 2 := by
  apply BitVec.eq_of_getLsbD_eq
  intro k hk
  unfold selField
  cases hhigh : w.getLsbD 49 <;> cases hlow : w.getLsbD 48 <;> interval_cases k <;> simp_all [viewNumber]

theorem viewNumber_injective : Function.Injective viewNumber :=
  fun v v' => by cases v <;> cases v' <;> decide

/-- A command whose operands are the fields of the word is its row read off the word. -/
theorem carries_iff (w : Word) (i : Instr) : Carries w i ↔ i = readOperands w i := by
  cases i <;>
    simp [Carries, readOperands, f1Field, f2Field, f3Field, f4Field, a7Field, lastField, eq_rwField_iff,
      ← viewNumber_selField, viewNumber_injective.eq_iff]

/-! ### The decoder -/

theorem select_eq_ok_iff {w mask pattern : Word} {i j : Instr} :
    select w mask pattern i = .ok j ↔ w &&& mask = pattern ∧ i = j := by
  unfold select
  split <;> simp [*]

/-- On a word with the opcode of a row the decoder compares the masked word with the row's match (R103). -/
theorem decode_of_opcode {w : Word} {row : Instr} (h : opField w = opField (matchOf row)) :
    decode w = select w (maskOf row) (matchOf row) (readOperands w row) := by
  cases row <;> simp only [matchOf] at h <;> simp only [decode, h] <;> rfl

/-- A word with the opcode of no row is no command (R107). -/
theorem decode_of_reserved {w : Word} (h : opField w ∉ opcodes) : decode w = .error (.reservedOpcode (opField w)) := by
  have hnot : (opField w).toNat ∉ opcodes.map BitVec.toNat :=
    fun hmem => h ((List.mem_map_of_injective fun _ _ => BitVec.eq_of_toNat_eq).mp hmem)
  unfold decode
  split
  case h_15 => rfl
  all_goals
    rename_i hop
    exact absurd (by rw [hop]; decide) hnot

/-- One command of each row, in the order of the opcode map. -/
def rows : List Instr :=
  [.configure 0#8 0#8 0#32, .start 0#7 .write, .stop, .writeByte 0#8, .readByte false, .writeN 0#7 0#8, .readN 0#7 0#8,
    .probe 0#7, .readReg 0#7 0#8 0#8, .scan, .identify 0#7, .wrTx 0#8 0#8, .rdRx 0#8, .rdStat .status]

theorem opcodes_eq_rows : opcodes = rows.map fun row => opField (matchOf row) := by
  decide

/-- A word that decodes has the opcode of a row. -/
theorem row_of_decode {w : Word} {i : Instr} (h : decode w = .ok i) : ∃ row, opField w = opField (matchOf row) := by
  by_cases hop : opField w ∈ opcodes
  · rw [opcodes_eq_rows] at hop
    obtain ⟨row, -, hrow⟩ := List.mem_map.mp hop
    exact ⟨row, hrow.symm⟩
  · rw [decode_of_reserved hop] at h
    exact nomatch h

/-- The opcode is under every mask (R103). -/
theorem opField_maskOf (i : Instr) : opField (maskOf i) = BitVec.allOnes 8 := by
  cases i <;> simp only [maskOf] <;> decide

/-- A word that selects a row has the row's opcode. -/
theorem opField_of_selects {w : Word} {i : Instr} (h : w &&& maskOf i = matchOf i) :
    opField w = opField (matchOf i) := by
  rw [← h, opField, opField, BitVec.extractLsb'_and, ← opField, ← opField, opField_maskOf, BitVec.and_allOnes]

/-- A word decodes to the command exactly when it selects the command's row and carries its operands (R103). -/
theorem decode_eq_ok_iff (w : Word) (i : Instr) :
    decode w = .ok i ↔ w &&& maskOf i = matchOf i ∧ Carries w i := by
  constructor
  · intro h
    obtain ⟨row, hrow⟩ := row_of_decode h
    rw [decode_of_opcode hrow, select_eq_ok_iff] at h
    obtain ⟨hselects, rfl⟩ := h
    exact ⟨by simpa using hselects, (carries_iff _ _).mpr (readOperands_readOperands w row).symm⟩
  · rintro ⟨hselects, hcarries⟩
    rw [decode_of_opcode (opField_of_selects hselects), select_eq_ok_iff]
    exact ⟨hselects, ((carries_iff w i).mp hcarries).symm⟩

/-- A word with the opcode of a row that does not select the row is no command (R108). -/
theorem decode_of_mustBeZero {w : Word} {row : Instr} (hop : opField w = opField (matchOf row))
    (hbits : w &&& maskOf row ≠ matchOf row) : decode w = .error (.mustBeZero (opField w)) := by
  rw [decode_of_opcode hop]
  exact if_neg hbits

/-! ### The encoder -/

theorem encode_selects (i : Instr) : encode i &&& maskOf i = matchOf i := by
  cases i with
  | configure sda scl speed => exact Laws.Selects.configure sda scl speed
  | start a7 rw => exact Laws.Selects.start a7 rw
  | stop => exact Laws.Selects.stop
  | writeByte b => exact Laws.Selects.writeByte b
  | readByte last => exact Laws.Selects.readByte last
  | writeN a7 len => exact Laws.Selects.writeN a7 len
  | readN a7 len => exact Laws.Selects.readN a7 len
  | probe a7 => exact Laws.Selects.probe a7
  | readReg a7 reg len => exact Laws.Selects.readReg a7 reg len
  | scan => exact Laws.Selects.scan
  | identify a7 => exact Laws.Selects.identify a7
  | wrTx idx val => exact Laws.Selects.wrTx idx val
  | rdRx idx => exact Laws.Selects.rdRx idx
  | rdStat sel => exact Laws.Selects.rdStat sel

/-- The word of a command has the operands in the fields of the format: the fields lie where the encoder puts them. -/
theorem encode_carries (i : Instr) : Carries (encode i) i := by
  cases i with
  | start a7 rw =>
    simp only [Carries, encode, BitVec.extractLsb'_append_eq_ite, BitVec.getLsbD_append]
    cases rw <;> simp [Dir.bit]
  | readByte last =>
    simp only [Carries, encode, BitVec.getLsbD_append]
    simp
  | stop | scan => trivial
  | rdStat sel => cases sel <;> rfl
  | _ =>
    simp only [Carries, encode, BitVec.extractLsb'_append_eq_ite]
    simp

theorem decode_encode (i : Instr) : decode (encode i) = .ok i :=
  (decode_eq_ok_iff _ i).mpr ⟨encode_selects i, encode_carries i⟩

/-! ### One word for a command -/

/-- The operand fields of the command's format, each by its lowest bit and its width (R101, R102). -/
def fieldsOf : Instr → List (Nat × Nat)
  | .configure _ _ _ => [(48, 8), (40, 8), (0, 32)]
  | .start _ _ => [(48, 7), (40, 1)]
  | .stop => []
  | .writeByte _ => [(48, 8)]
  | .readByte _ => [(48, 1)]
  | .writeN _ _ => [(48, 7), (32, 8)]
  | .readN _ _ => [(48, 7), (32, 8)]
  | .probe _ => [(48, 7)]
  | .readReg _ _ _ => [(48, 7), (40, 8), (32, 8)]
  | .scan => []
  | .identify _ => [(48, 7)]
  | .wrTx _ _ => [(48, 8), (40, 8)]
  | .rdRx _ => [(48, 8)]
  | .rdStat _ => [(48, 2)]

/-- The bits clear in the mask are operand bits (R103). -/
theorem mem_field_of_mask_clear (i : Instr) :
    ∀ k < 64, (maskOf i).getLsbD k = false → ∃ f ∈ fieldsOf i, f.1 ≤ k ∧ k < f.1 + f.2 := by
  cases i <;> simp only [maskOf, fieldsOf] <;> decide

theorem extractLsb'_one_congr {v w : Word} {k : Nat} (h : v.getLsbD k = w.getLsbD k) :
    v.extractLsb' k 1 = w.extractLsb' k 1 := by
  apply BitVec.eq_of_getLsbD_eq
  intro j hj
  obtain rfl : j = 0 := by omega
  simpa only [BitVec.getLsbD_extractLsb', Nat.add_zero] using congrArg (decide (0 < 1) && ·) h

theorem getLsbD_congr_of_extractLsb' {v w : Word} {start len k : Nat}
    (h : v.extractLsb' start len = w.extractLsb' start len) (hlow : start ≤ k) (hhigh : k < start + len) :
    v.getLsbD k = w.getLsbD k := by
  have hbit := congrArg (·.getLsbD (k - start)) h
  have hlen : k - start < len := by omega
  simpa only [BitVec.getLsbD_extractLsb', hlen, decide_true, Bool.true_and, Nat.add_sub_cancel' hlow] using hbit

/-- Two words that carry the same operands agree on every operand field. -/
theorem Carries.field_eq {v w : Word} {i : Instr} (hv : Carries v i) (hw : Carries w i) :
    ∀ f ∈ fieldsOf i, v.extractLsb' f.1 f.2 = w.extractLsb' f.1 f.2 := by
  cases i with
  | start a7 rw =>
    have hbit : v.getLsbD 40 = w.getLsbD 40 := Bool.eq_iff_iff.mpr (hv.2.symm.trans hw.2)
    simpa [fieldsOf] using ⟨hv.1.symm.trans hw.1, extractLsb'_one_congr hbit⟩
  | readByte last => simpa [fieldsOf] using extractLsb'_one_congr (hv.symm.trans hw)
  | _ => simp_all [Carries, fieldsOf]

/-- Every bit of a word is under the mask of a row or in a field of its format, so the command determines the word. -/
theorem word_unique {v w : Word} {i : Instr} (hv : v &&& maskOf i = matchOf i) (hv' : Carries v i)
    (hw : w &&& maskOf i = matchOf i) (hw' : Carries w i) : v = w := by
  apply BitVec.eq_of_getLsbD_eq
  intro k hk
  cases hmask : (maskOf i).getLsbD k with
  | true => simpa [BitVec.getLsbD_and, hmask] using congrArg (·.getLsbD k) (hv.trans hw.symm)
  | false =>
    obtain ⟨f, hf, hlow, hhigh⟩ := mem_field_of_mask_clear i k hk hmask
    exact getLsbD_congr_of_extractLsb' (hv'.field_eq hw' f hf) hlow hhigh

/-! ### The answer to a command -/

/-- The state answers with a code that a command's own rule gives, none of the refusals (R105, R110). -/
def AnswersByRule (t : State) : Prop :=
  ∃ c d, c ∈ [Code.ok, .noAck, .busFault, .noSensors] ∧ Responded (codeBits c) d t

theorem Responded.codeOf_eq {c : BitVec 4} {d : Data} {t : State} (h : Responded c d t) : codeOf t.rspWord = c :=
  h.rspWord ▸ codeOf_word c d

theorem Responded.middle_eq {c : BitVec 4} {d : Data} {t : State} (h : Responded c d t) :
    t.rspWord.extractLsb' 24 4 = 0#4 := by
  rw [h.rspWord]
  simp only [BitVec.extractLsb'_append_eq_ite]
  simp

theorem AnswersByRule.code_mem {t : State} (h : AnswersByRule t) : codeOf t.rspWord ∈ [0x0#4, 0x1#4, 0x2#4, 0x3#4] := by
  obtain ⟨c, d, hc, hresp⟩ := h
  exact hresp.codeOf_eq ▸ List.mem_map_of_mem (f := codeBits) hc

theorem AnswersByRule.code_not_refusal {t : State} (h : AnswersByRule t) : codeOf t.rspWord ∉ [0xD#4, 0xE#4, 0xF#4] :=
  (by decide : ∀ c ∈ [0x0#4, 0x1#4, 0x2#4, 0x3#4], c ∉ [0xD#4, 0xE#4, 0xF#4]) _ h.code_mem

theorem answersByRule_ok (d : Data) (s : State) : AnswersByRule (respond .ok d s) :=
  ⟨.ok, d, by decide, respond_responded .ok d s⟩

theorem answersByRule_ack (ok : Bool) (s : State) : AnswersByRule (respond (ackCode ok) 0#24 s) :=
  ⟨ackCode ok, 0#24, by cases ok <;> decide, respond_responded _ _ s⟩

theorem answersByRule_respondRead (r : Option (List Byte) × State) : AnswersByRule (respondRead r) := by
  unfold respondRead
  split
  · exact answersByRule_ok _ _
  · exact answersByRule_ack false _

/-- A scan answers OK, NO_SENSORS or BUS_FAULT, over an empty window NO_SENSORS (44_scanner.md R217). -/
theorem answersByRule_scan (s : State) : AnswersByRule (scanFrom (scanWindow s.params) (scanEntry s)) := by
  by_cases hwindow : 4 ≤ s.params.scanLast.toNat
  · obtain ⟨_, e, _, -, -, hleft, -⟩ := did_scan s hwindow
    cases e with
    | found a k =>
      obtain ⟨-, -, -, -, -, -, hresp⟩ := hleft
      exact ⟨.ok, _, by decide, hresp⟩
    | noSensors =>
      obtain ⟨-, -, -, -, -, -, hresp⟩ := hleft
      exact ⟨.noSensors, _, by decide, hresp⟩
    | busFault a =>
      obtain ⟨-, -, -, -, -, -, hresp⟩ := hleft
      exact ⟨.busFault, _, by decide, hresp⟩
  · rw [scan_empty s (by omega)]
    exact ⟨.noSensors, 0#24, by decide, respond_responded _ _ _⟩

/-- A command that passes the checks answers by its own rule (R110). -/
theorem exec_answersByRule {i : Instr} {s : State} (hf : i.fits s.params.bufLen = true)
    (hc : i.needsHandle = true → s.configured = true) : ∃ t, exec i s = .next t ∧ AnswersByRule t := by
  have engine {command : State → State} (hn : i.needsHandle = true) (h : AnswersByRule (command s)) :
      AnswersByRule (checkHandle command s) :=
    (checkHandle_of (f := command) (hc hn)).symm ▸ h
  have checked {command : State → State} (h : AnswersByRule (command s)) :
      AnswersByRule (checkArgs (i.fits s.params.bufLen) command s) :=
    (checkArgs_of (f := command) hf).symm ▸ h
  cases i with
  | configure sda scl speed => exact ⟨_, rfl, answersByRule_ok _ _⟩
  | start a7 rw => exact ⟨_, rfl, engine rfl (answersByRule_ack _ _)⟩
  | stop => exact ⟨_, rfl, engine rfl (answersByRule_ok _ _)⟩
  | writeByte b => exact ⟨_, rfl, engine rfl (answersByRule_ack _ _)⟩
  | readByte last => exact ⟨_, rfl, engine rfl (answersByRule_ok _ _)⟩
  | writeN a7 len => exact ⟨_, rfl, checked (engine rfl (answersByRule_ack _ _))⟩
  | readN a7 len => exact ⟨_, rfl, checked (engine rfl (answersByRule_respondRead _))⟩
  | probe a7 => exact ⟨_, rfl, engine rfl (answersByRule_ack _ _)⟩
  | readReg a7 reg len => exact ⟨_, rfl, checked (engine rfl (answersByRule_respondRead _))⟩
  | scan => exact ⟨_, rfl, engine rfl (answersByRule_scan s)⟩
  | identify a7 => exact ⟨_, rfl, engine rfl (answersByRule_ok _ _)⟩
  | wrTx idx val => exact ⟨_, rfl, checked (answersByRule_ok _ _)⟩
  | rdRx idx => exact ⟨_, rfl, checked (answersByRule_ok _ _)⟩
  | rdStat sel => exact ⟨_, rfl, answersByRule_ok _ _⟩

/-- What a command answers: BAD_ARG when it does not fit, else NOT_CONFIGURED when it lacks the handle, else by its rule
(R110). -/
theorem exec_answer (i : Instr) (s : State) :
    (i.fits s.params.bufLen = false ∧ exec i s = .next (refuse .badArg s)) ∨
      (i.fits s.params.bufLen = true ∧ i.needsHandle = true ∧ s.configured = false ∧
        exec i s = .next (refuse .notConfigured s)) ∨
      i.fits s.params.bufLen = true ∧ ∃ t, exec i s = .next t ∧ AnswersByRule t := by
  cases hf : i.fits s.params.bufLen with
  | false => exact .inl ⟨rfl, exec_badArg i s hf⟩
  | true =>
    by_cases hc : i.needsHandle = true → s.configured = true
    · exact .inr (.inr ⟨rfl, exec_answersByRule hf hc⟩)
    · simp only [Classical.not_imp, Bool.not_eq_true] at hc
      obtain ⟨hn, hunset⟩ := hc
      exact .inr (.inl ⟨rfl, hn, hunset, exec_notConfigured i s hf hn hunset⟩)

/-- BAD_ARG is the answer of exactly the commands whose length or index does not fit (R113). -/
theorem exec_code_badArg_iff {i : Instr} {s t : State} (ht : exec i s = .next t) :
    codeOf t.rspWord = 0xD#4 ↔ i.fits s.params.bufLen = false := by
  obtain ⟨hf, hexec⟩ | ⟨hf, -, -, hexec⟩ | ⟨hf, u, hexec, hrule⟩ := exec_answer i s <;>
    obtain rfl := Host.Outcome.next.inj (hexec.symm.trans ht)
  · exact iff_of_true (codeOf_respond .badArg _ s) hf
  · rw [hf, refuse, codeOf_respond]
    decide
  · exact iff_of_false (fun h => hrule.code_not_refusal (by rw [h]; decide)) (by rw [hf]; decide)

/-- NOT_CONFIGURED is never the answer of a command that needs no handle (R111, R112). -/
theorem exec_code_ne_notConfigured {i : Instr} {s t : State} (hn : i.needsHandle = false) (ht : exec i s = .next t) :
    codeOf t.rspWord ≠ 0xE#4 := by
  obtain ⟨-, hexec⟩ | ⟨-, hneeds, -⟩ | ⟨-, u, hexec, hrule⟩ := exec_answer i s
  · obtain rfl := Host.Outcome.next.inj (hexec.symm.trans ht)
    rw [refuse, codeOf_respond]
    decide
  · exact Bool.noConfusion (hneeds.symm.trans hn)
  · obtain rfl := Host.Outcome.next.inj (hexec.symm.trans ht)
    exact fun h => hrule.code_not_refusal (by rw [h]; decide)

/-! ### The step on a word that is taken -/

/-- A word that is no command is answered BAD_CMD (R107, R108). -/
theorem step_of_not_command {s : State} {w : Word} {rest : List Input} {e : DecodeError} (h : Takes s w rest)
    (hd : decode w = .error e) : step s = .next (refuse .badCmd (accept rest s)) := by
  simp only [step, port_takes h, hd]

/-- A refusal after the word has been taken changes nothing but the response and the inputs (R112). -/
theorem refuse_accept_onlyResponse (c : Code) (rest : List Input) (s : State) :
    OnlyResponse (codeBits c) 0#24 { s with inputs := rest } (refuse c (accept rest s)) :=
  have h := refuse_onlyResponse c (accept rest s)
  ⟨⟨rfl, rfl, rfl⟩, ⟨rfl, rfl, rfl, rfl⟩, ⟨rfl, rfl⟩, ⟨rfl, rfl, rfl, rfl, rfl, rfl⟩,
    ⟨rfl, rfl, rfl, rfl, rfl, rfl, rfl, rfl, rfl⟩, h.response⟩

/-- Every code is ever given but HW_TIMEOUT (60_exceptions.md R244). -/
theorem codeBits_mem {c : Code} (h : c ≠ .hwTimeout) :
    codeBits c ∈ [0x0#4, 0x1#4, 0x2#4, 0x3#4, 0xD#4, 0xE#4, 0xF#4] := by
  cases c with
  | hwTimeout => exact absurd rfl h
  | _ => decide

theorem exec_responds {i : Instr} {s t : State} (ht : exec i s = .next t) :
    ∃ c d, c ≠ .hwTimeout ∧ Responded (codeBits c) d t := by
  obtain ⟨-, hexec⟩ | ⟨-, -, -, hexec⟩ | ⟨-, u, hexec, c, d, hc, hresp⟩ := exec_answer i s <;>
    obtain rfl := Host.Outcome.next.inj (hexec.symm.trans ht)
  · exact ⟨.badArg, 0#24, by decide, respond_responded _ _ s⟩
  · exact ⟨.notConfigured, 0#24, by decide, respond_responded _ _ s⟩
  · exact ⟨c, d, fun h => absurd (h ▸ hc) (by decide), hresp⟩

/-- A word that is taken is used up and answered (R104). -/
theorem step_responds {s : State} {w : Word} {rest : List Input} (h : Takes s w rest) :
    ∃ t, step s = .next t ∧ t.inputs = rest ∧ ∃ c d, c ≠ .hwTimeout ∧ Responded (codeBits c) d t := by
  cases hd : decode w with
  | error e =>
    exact ⟨_, step_of_not_command h hd, rfl, .badCmd, 0#24, by decide, respond_responded _ _ _⟩
  | ok i =>
    obtain ⟨t, ht, hwrites⟩ := exec_writesOnlyItsOwn i (accept rest s)
    exact ⟨t, (step_of_takes h hd).trans ht, hwrites.world.inputs, exec_responds ht⟩

end Sys2Proof.Safety

namespace Sys2Proof.Proofs

open Sys2Proof.Machine Sys2Proof.Safety

/-- Settles O3: the word of a command selects its row and carries its operands. -/
theorem decodeOfEncodeIsTheCommand : Obligations.DecodeOfEncodeIsTheCommand := decode_encode

/-- Settles O2: the opcode finds the row, the mask decides, and the fields are the operands. -/
theorem wordSelectsByMaskAndMatch : Obligations.WordSelectsByMaskAndMatch := decode_eq_ok_iff

/-- Settles O4: the word and the encoding select the same row with the same operands, and a command has one such word. -/
theorem encodeOfDecodeIsTheWord : Obligations.EncodeOfDecodeIsTheWord := by
  intro w i h
  obtain ⟨hselects, hcarries⟩ := (decode_eq_ok_iff w i).mp h
  exact word_unique (encode_selects i) (encode_carries i) hselects hcarries

/-- Settles O5: off the map the decoder gives an error, and the step refuses. -/
theorem reservedOpcodeIsRefused : Obligations.ReservedOpcodeIsRefused :=
  ⟨fun s _ rest htakes hop =>
    ⟨_, step_of_not_command htakes (decode_of_reserved hop), refuse_accept_onlyResponse .badCmd rest s⟩,
    by decide, by decide⟩

/-- Settles O6: on the row the mask fails, and the step refuses. -/
theorem mustBeZeroBitIsRefused : Obligations.MustBeZeroBitIsRefused :=
  fun s _ rest _ htakes hop hbits =>
    ⟨_, step_of_not_command htakes (decode_of_mustBeZero hop hbits), refuse_accept_onlyResponse .badCmd rest s⟩

/-- Settles O7: BAD_ARG is the answer exactly of what does not fit; a byte is at most 255, and 0 fits. -/
theorem pastTheBufferIsRefused : Obligations.PastTheBufferIsRefused := by
  have refused {i : Instr} {s : State} (hf : i.fits s.params.bufLen = false) :
      ∃ t, exec i s = .next t ∧ OnlyResponse 0xD#4 0#24 s t :=
    ⟨_, exec_badArg i s hf, refuse_onlyResponse .badArg s⟩
  refine ⟨fun s a7 reg len hlen => ?_, fun s idx val hidx => ?_, fun s i t hlen ht hcode => ?_, fun s a7 reg i hi => ?_⟩
  · have hlong : decide (len.toNat ≤ s.params.bufLen) = false := decide_eq_false (by omega)
    exact ⟨refused hlong, refused hlong, refused hlong⟩
  · have hpast : decide (idx.toNat < s.params.bufLen) = false := decide_eq_false (by omega)
    exact ⟨refused hpast, refused hpast⟩
  · have hf := (exec_code_badArg_iff ht).mp hcode
    rw [hlen] at hf
    have last {idx : Byte} (h : decide (idx.toNat < 255) = false) : idx = 255#8 := by
      have := of_decide_eq_false h
      bv_omega
    have short {len : Byte} (h : decide (len.toNat ≤ 255) = false) : False := of_decide_eq_false h (by omega)
    cases i with
    | writeN | readN | readReg => exact (short hf).elim
    | wrTx idx val => exact .inl ⟨val, by rw [last hf]⟩
    | rdRx idx => exact .inr (by rw [last hf])
    | _ => exact Bool.noConfusion hf
  · obtain ⟨t, ht, -⟩ := exec_writesOnlyItsOwn i s
    have hf : i.fits s.params.bufLen = true := by
      rcases hi with rfl | rfl | rfl <;> simp [Instr.fits]
    exact ⟨t, ht, fun hcode => Bool.noConfusion (hf.symm.trans ((exec_code_badArg_iff ht).mp hcode))⟩

/-- Settles O8: the ten need the handle and fit; the four need none. -/
theorem unconfiguredIsRefused : Obligations.UnconfiguredIsRefused := by
  refine fun s hunset => ⟨fun i hi => ?_, fun i hi => ?_⟩
  · obtain ⟨hf, hn⟩ : i.fits s.params.bufLen = true ∧ i.needsHandle = true := by
      rcases hi with ⟨_, _, rfl⟩ | rfl | ⟨_, rfl⟩ | ⟨_, rfl⟩ | ⟨_, _, rfl, hlen⟩ | ⟨_, _, rfl, hlen⟩ | ⟨_, rfl⟩ |
        ⟨_, _, _, rfl, hlen⟩ | ⟨_, rfl⟩ | rfl
      exacts [⟨rfl, rfl⟩, ⟨rfl, rfl⟩, ⟨rfl, rfl⟩, ⟨rfl, rfl⟩, ⟨decide_eq_true hlen, rfl⟩, ⟨decide_eq_true hlen, rfl⟩,
        ⟨rfl, rfl⟩, ⟨decide_eq_true hlen, rfl⟩, ⟨rfl, rfl⟩, ⟨rfl, rfl⟩]
    exact ⟨_, exec_notConfigured i s hf hn hunset, refuse_onlyResponse .notConfigured s⟩
  · obtain ⟨t, ht, -⟩ := exec_writesOnlyItsOwn i s
    have hn : i.needsHandle = false := by
      rcases hi with ⟨_, _, _, rfl⟩ | ⟨_, _, rfl⟩ | ⟨_, rfl⟩ | ⟨_, rfl⟩ <;> rfl
    exact ⟨t, ht, exec_code_ne_notConfigured hn ht⟩

/-- Settles O9: the decoder first, then the checks of the command. -/
theorem checksAreMadeInOrder : Obligations.ChecksAreMadeInOrder := by
  intro s w rest htakes
  cases hd : decode w with
  | error e =>
    exact ⟨_, step_of_not_command htakes hd, fun _ => refuse_accept_onlyResponse .badCmd rest s, nofun⟩
  | ok i =>
    obtain ⟨t, ht, -⟩ := exec_writesOnlyItsOwn i (accept rest s)
    refine ⟨t, (step_of_takes htakes hd).trans ht, fun h => absurd rfl (h i), fun j hj => ?_⟩
    obtain rfl := Except.ok.inj hj
    refine ⟨fun hf => ?_, fun hf hn hunset => ?_, fun hf hc => ?_⟩
    · obtain rfl := Host.Outcome.next.inj (ht.symm.trans (exec_badArg i (accept rest s) hf))
      exact refuse_accept_onlyResponse .badArg rest s
    · obtain rfl := Host.Outcome.next.inj (ht.symm.trans (exec_notConfigured i (accept rest s) hf hn hunset))
      exact refuse_accept_onlyResponse .notConfigured rest s
    · obtain ⟨u, hu, hrule⟩ := exec_answersByRule (s := accept rest s) hf hc
      obtain rfl := Host.Outcome.next.inj (ht.symm.trans hu)
      exact hrule.code_not_refusal

/-- Settles O10: every answer is a response of one of the codes, and no command touches the coming inputs. -/
theorem oneResponseForEveryCommand : Obligations.OneResponseForEveryCommand := by
  intro s w rest htakes
  obtain ⟨t, hstep, hinputs, c, d, hc, hresp⟩ := step_responds htakes
  exact ⟨t, hstep, hresp.rspValid, hresp.cmdReady, hinputs, hresp.middle_eq, hresp.codeOf_eq ▸ codeBits_mem hc⟩

/-- Settles O1: each word is the encoding of its command. -/
theorem wordsDecodeAsWritten : Obligations.WordsDecodeAsWritten := by
  have written {w : Word} {i : Instr} (h : encode i = w) : decode w = .ok i := h ▸ decode_encode i
  refine ⟨?_, ?_, ?_, ?_, ?_, ?_, ?_, ?_, ?_, ?_, ?_, ?_, ?_, ?_, ?_, ?_⟩
  all_goals exact written (by decide)

end Sys2Proof.Proofs
end

section
/-! PROOFS. What stands behind every event of a command: the collaborator calls and the drive states of its micro-operation
(40_microops.md R131 to R136), the released lines at every sample (R136), and the pins (R138, R139). -/

namespace Sys2Proof.Safety

open Machine

/-! ### The calls and the drive states of the events -/

/-- From `s` to `t` the events `es` have been issued, with exactly their calls, and the drive states are theirs. -/
structure Issued (s : State) (es : List Event) (t : State) : Prop where
  trace : t.trace = s.trace ++ es
  calls : t.calls = s.calls ++ es.flatMap (callsOf s)
  sdaDrv : t.sdaDrv = sdaAfter s.sdaDrv es
  sclDrv : t.sclDrv = sclAfter s.sclDrv es

theorem Issued.of_sameEngine {s t u : State} {es : List Event} (h : Issued s es t) (he : SameEngine t u) :
    Issued s es u :=
  ⟨he.trace.trans h.trace, he.calls.trans h.calls, he.sdaDrv.trans h.sdaDrv, he.sclDrv.trans h.sclDrv⟩

theorem Issued.refl (s : State) : Issued s [] s :=
  ⟨(List.append_nil _).symm, (List.append_nil _).symm, rfl, rfl⟩

/-- Which calls an event makes depends on the parameters and the handle only. -/
theorem callsOf_congr {s t : State} (hw : SameWorld s t) (hh : SameHandle s t) : callsOf t = callsOf s := by
  funext e
  cases e <;> simp only [callsOf, hw.params, hh.sdaPin, hh.sclPin, hh.tier]

theorem Issued.trans {s t u : State} {es es' : List Event} (h : Issued s es t) (h' : Issued t es' u)
    (hw : SameWorld s t) (hh : SameHandle s t) : Issued s (es ++ es') u where
  trace := by rw [h'.trace, h.trace, List.append_assoc]
  calls := by rw [h'.calls, h.calls, callsOf_congr hw hh, List.flatMap_append, List.append_assoc]
  sdaDrv := by rw [h'.sdaDrv, h.sdaDrv, sdaAfter_append]
  sclDrv := by rw [h'.sclDrv, h.sclDrv, sclAfter_append]

/-- The delay of R135 is the tier's. -/
theorem callsOf_dly (s : State) : callsOf s .dly = [.delayMicroseconds (tierDelay s.params s.tier)] := by
  simp only [callsOf]
  cases s.tier <;> rfl

theorem issued_sda0 (s : State) : Issued s [.sda0] (sda0 s) := ⟨rfl, rfl, rfl, rfl⟩

theorem issued_sda1 (s : State) : Issued s [.sda1] (sda1 s) := ⟨rfl, rfl, rfl, rfl⟩

theorem issued_scl0 (s : State) : Issued s [.scl0] (scl0 s) := ⟨rfl, rfl, rfl, rfl⟩

theorem issued_scl1 (s : State) : Issued s [.scl1] (scl1 s) := ⟨rfl, rfl, rfl, rfl⟩

theorem issued_dly (s : State) : Issued s [.dly] (dly s) :=
  ⟨rfl, by rw [List.flatMap_singleton, callsOf_dly]; rfl, rfl, rfl⟩

theorem issued_rd (s : State) : Issued s [.rd (rd s).1] (rd s).2 := ⟨rfl, rfl, rfl, rfl⟩

end Sys2Proof.Safety

namespace Sys2Proof.Machine

open Safety

/-- A run of the engine issues its events. -/
theorem Runs.issued {s t : State} (h : Runs s t) : ∃ es, Issued s es t := by
  have step {t u : State} {e : Event} (r : Runs s t) (he : Issued t [e] u) (ih : ∃ es, Issued s es t) :
      ∃ es, Issued s es u := by
    obtain ⟨es, hes⟩ := ih
    exact ⟨es ++ [e], hes.trans he r.engineOnly.world r.engineOnly.handle⟩
  induction h with
  | refl => exact ⟨[], .refl s⟩
  | sda0 r ih => exact step r (issued_sda0 _) ih
  | sda1 r ih => exact step r (issued_sda1 _) ih
  | scl0 r ih => exact step r (issued_scl0 _) ih
  | scl1 r ih => exact step r (issued_scl1 _) ih
  | dly r ih => exact step r (issued_dly _) ih
  | rd r ih => exact step r (issued_rd _) ih
  | setSr _ _ ih | setAck _ _ ih | setOpen _ _ ih =>
    obtain ⟨es, hes⟩ := ih
    exact ⟨es, hes.trace, hes.calls, hes.sdaDrv, hes.sclDrv⟩

/-- So do the effects of a command. -/
theorem Effects.issued {s t : State} (h : Effects s t) : ∃ es, Issued s es t := by
  induction h with
  | refl => exact ⟨[], .refl s⟩
  | run h r ih =>
    obtain ⟨es, hes⟩ := ih
    obtain ⟨es', hes'⟩ := r.issued
    exact ⟨es ++ es', hes.trans hes' h.world h.handle⟩
  | write _ he _ _ ih =>
    obtain ⟨es, hes⟩ := ih
    exact ⟨es, hes.of_sameEngine he⟩

end Sys2Proof.Machine

namespace Sys2Proof.Safety

open Machine

/-! ### Every sample is taken with both lines released -/

theorem readsReleased_of_no_rd {es : List Event} (h : ∀ k, .rd k ∉ es) (a b : Drive) : readsReleased a b es := by
  rintro before k after rfl
  exact absurd (by simp) (h k)

theorem rd_not_mem_bitOut (b k : Bool) : .rd k ∉ bitOut b := by
  cases b <;> simp [bitOut]

/-- Before the acknowledge sample of a byte sent both lines are released (41_engine_primitives.md R156). -/
theorem readsReleased_byteOut (a b : Drive) (byte : Byte) (k : Bool) : readsReleased a b (byteOut byte k) := by
  unfold byteOut
  refine readsReleased_append (readsReleased_of_no_rd ?bits a b) ?acknowledge
  case bits => simp [rd_not_mem_bitOut]
  case acknowledge =>
    have after : readsReleased .rel .rel [.scl0, .dly, .sda0] := readsReleased_of_no_rd (by simp) _ _
    exact readsReleased_cons nofun (readsReleased_cons nofun (readsReleased_cons nofun (readsReleased_rd after)))

/-- The bits of a byte received leave SDA released, and each is sampled with SCL released (R158). -/
theorem readsReleased_bitsIn (b : Drive) (ks : List Bool) : readsReleased .rel b (ks.flatMap bitIn) := by
  induction ks generalizing b with
  | nil => exact readsReleased_nil _ _
  | cons k ks ih =>
    have after : readsReleased .rel .rel [.scl0, .dly] := readsReleased_of_no_rd (by simp) _ _
    have bit : readsReleased .rel b (bitIn k) :=
      readsReleased_cons nofun (readsReleased_cons nofun (readsReleased_rd after))
    exact readsReleased_append bit (ih _)

theorem readsReleased_byteIn (a b : Drive) (ks : List Bool) (last : Bool) : readsReleased a b (byteIn ks last) := by
  refine readsReleased_append (readsReleased_cons nofun (readsReleased_bitsIn _ ks)) (readsReleased_of_no_rd ?_ _ _)
  cases last <;> simp

/-- Whatever the drive states were, the traffic of the rules releases both lines before each sample. -/
theorem readsReleased_composes : Composes (fun es => ∀ a b, readsReleased a b es) where
  nil := readsReleased_nil
  append _ _ h h' a b := readsReleased_append (h a b) (h' _ _)
  started a7 rw k a b :=
    readsReleased_append (es := [.sda0, .dly, .scl0, .dly]) (readsReleased_of_no_rd (by simp) a b)
      (readsReleased_byteOut _ _ _ k)
  stopped := readsReleased_of_no_rd (by simp [stopped, stopOut])
  sent byte k a b := readsReleased_byteOut a b byte k
  received ks last a b := readsReleased_byteIn a b ks last

/-! ### The pins -/

/-- Every command leaves the pins as its events make them; CONFIGURE has no event (70_reset_and_hazards.md R282). -/
theorem exec_pins (i : Instr) (s : State) :
    ∃ es t, exec i s = .next t ∧ t.trace = s.trace ++ es ∧ PinsAfter s es t := by
  by_cases hi : ∃ sda scl speed, i = .configure sda scl speed
  · obtain ⟨sda, scl, speed, rfl⟩ := hi
    exact ⟨[], _, rfl, (List.append_nil _).symm, .still rfl⟩
  · obtain ⟨t, ht, heffects⟩ := exec_effects i s fun sda scl speed h => hi ⟨sda, scl, speed, h⟩
    obtain ⟨es, htrace, hpins⟩ := heffects.pins
    exact ⟨es, t, ht, htrace, hpins⟩

end Sys2Proof.Safety

namespace Sys2Proof.Proofs

open Sys2Proof.Machine Sys2Proof.Safety

/-- Settles O35: the effects of a command are micro-operations, each with its calls and drive states, and writes beside
them. -/
theorem eventsAreTheirCalls : Obligations.EventsAreTheirCalls := by
  intro i s hi
  obtain ⟨t, ht, heffects⟩ := exec_effects i s hi
  obtain ⟨es, hes⟩ := heffects.issued
  exact ⟨es, t, ht, hes.trace, hes.calls, hes.sdaDrv, hes.sclDrv⟩

/-- Settles O37: a command is composed of pieces that release both lines before they sample. -/
theorem samplesFindBothLinesReleased : Obligations.SamplesFindBothLinesReleased := by
  intro i s
  obtain ⟨es, t, ht, htrace, hreads⟩ := readsReleased_composes.exec i s
  exact ⟨es, t, ht, htrace, hreads _ _⟩

/-- Settles O50: by the effects of the command, and for CONFIGURE because it leaves the bus. -/
theorem pinsFollowTheEvents : Obligations.PinsFollowTheEvents := exec_pins

end Sys2Proof.Proofs
end

section
/-! PROOFS. The engine primitives (41_engine_primitives.md R151 to R158): CONFIGURE writes the handle; START, STOP, WRITEBYTE
and READBYTE are their procedures' traffic and then a response, which is no traffic and leaves all but its port. -/

namespace Sys2Proof.Machine

open Safety

/-! ### The tier of a speed -/

theorem tierOf_fast {speed : BitVec 32} (h : 400000 ≤ speed.toNat) : tierOf speed = .fast := by
  have hfast : Config.speedFastMin ≤ speed := BitVec.le_def.mpr h
  rw [tierOf, if_pos hfast]

theorem tierOf_medium {speed : BitVec 32} (h : 100000 ≤ speed.toNat) (h' : speed.toNat < 400000) :
    tierOf speed = .medium := by
  have hfast : ¬Config.speedFastMin ≤ speed := BitVec.not_le.mpr (BitVec.lt_def.mpr h')
  have hmedium : Config.speedMedMin ≤ speed := BitVec.le_def.mpr h
  rw [tierOf, if_neg hfast, if_pos hmedium]

theorem tierOf_slow {speed : BitVec 32} (h : speed.toNat < 100000) : tierOf speed = .slow := by
  have hmedium : ¬Config.speedMedMin ≤ speed := BitVec.not_le.mpr (BitVec.lt_def.mpr h)
  have hfast : ¬Config.speedFastMin ≤ speed := BitVec.not_le.mpr (BitVec.lt_def.mpr (Nat.lt_trans h (by decide)))
  rw [tierOf, if_neg hfast, if_neg hmedium]

/-! ### The response of a primitive -/

/-- A response is no traffic. -/
theorem did_respond {s t : State} {x : Traffic} (h : Did s t x) (c : Code) (d : Data) : Did s (respond c d t) x :=
  h.of_engine (.self s) (respond_sameEngine c d t) rfl rfl

/-- An acknowledge that was not sampled low is answered NO_ACK (60_exceptions.md R241). -/
theorem codeBits_ackCode (ok : Bool) : codeBits (ackCode ok) = if !ok then 0x1#4 else 0x0#4 := by
  cases ok <;> rfl

theorem respond_ackCode_responded (ok : Bool) (s : State) :
    Responded (if !ok then 0x1#4 else 0x0#4) 0#24 (respond (ackCode ok) 0#24 s) :=
  codeBits_ackCode ok ▸ respond_responded _ _ s

/-- A byte in a data field has 0 above it (30_encoding.md R104). -/
theorem byteData_eq_append (b : Byte) : byteData b = (0#16 ++ b : BitVec 24) :=
  BitVec.setWidth_eq_append (by decide)

/-- After CONFIGURE the check of the handle lets a command through (30_encoding.md R112). -/
theorem next_checkHandle {command : State → State} {s : State} (h : s.configured = true) :
    (.next (checkHandle command s) : Host.Outcome State Fault Refusal) = .next (command s) :=
  congrArg Host.Outcome.next (checkHandle_of h)

end Sys2Proof.Machine

namespace Sys2Proof.Proofs

open Sys2Proof.Machine Sys2Proof.Safety

/-- Settles O21: the traffic of `do_start` and the code of its acknowledge. -/
theorem startSendsTheAddress : Obligations.StartSendsTheAddress :=
  fun s a7 rw hc =>
    ⟨!(doStart a7 rw s).1, _, next_checkHandle hc, did_respond (did_doStart a7 rw s) _ _, doStart_busOpen a7 rw s,
      doStart_sdaDrv a7 rw s, doStart_sclDrv a7 rw s, (runs_doStart a7 rw s).engineOnly.respond _ _,
      respond_ackCode_responded _ _⟩

/-- Settles O22: the traffic of `do_stop`, which ends idle from every state. -/
theorem stopReleasesTheBus : Obligations.StopReleasesTheBus :=
  fun s hc =>
    ⟨_, next_checkHandle hc, did_respond (did_doStop s) _ _, (doStop_idle s).respond _ _, doStop_sr s, doStop_ack s,
      (runs_doStop s).engineOnly.respond _ _, respond_responded .ok _ _⟩

/-- Settles O23: the traffic of `do_writebyte` and the code of its acknowledge. -/
theorem writeByteSendsEightBitsAndSamples : Obligations.WriteByteSendsEightBitsAndSamples :=
  fun s b hc =>
    ⟨!(doWriteByte b s).1, _, next_checkHandle hc, did_respond (did_doWriteByte b s) _ _, doWriteByte_busOpen b s,
      doWriteByte_sdaDrv b s, doWriteByte_sclDrv b s, (runs_doWriteByte b s).engineOnly.respond _ _,
      respond_ackCode_responded _ _⟩

/-- Settles O24: the traffic of `do_readbyte`, whose eight samples are the byte of the response. -/
theorem readByteShiftsEightSamples : Obligations.ReadByteShiftsEightSamples := by
  intro s last hc
  obtain ⟨ks, hlength, hbyte, hdid⟩ := did_doReadByte last s
  have hdata : byteData (doReadByte last s).1 = (0#16 ++ byteOf ks : BitVec 24) := by
    rw [hbyte, byteData_eq_append]
  exact ⟨ks, _, next_checkHandle hc, hlength, did_respond hdid _ _, doReadByte_busOpen last s, doReadByte_ack last s,
    doReadByte_sdaDrv last s, doReadByte_sclDrv last s, (runs_doReadByte last s).engineOnly.respond _ _,
    hdata ▸ respond_responded .ok _ _⟩

/-- Settles O20: the handle is written, with the tier of the speed by the two thresholds, and nothing else. -/
theorem configureStoresTheHandle : Obligations.ConfigureStoresTheHandle :=
  fun _ _ _ _ =>
    ⟨_, rfl, rfl, rfl, rfl, tierOf_fast, tierOf_medium, tierOf_slow, ⟨rfl, rfl, rfl⟩, ⟨rfl, rfl⟩,
      ⟨rfl, rfl, rfl, rfl, rfl, rfl⟩, ⟨rfl, rfl, rfl, rfl, rfl, rfl, rfl, rfl, rfl⟩, respond_responded .ok _ _⟩

end Sys2Proof.Proofs
end

section
/-! PROOFS. The engine transfers (42_engine_transfers.md R170 to R178): WRITEN, READN, PROBE and READREG are the traffic of
their procedures, then RXBUF where bytes were read, then a response; PROBE and READREG as sequences of other commands (R175,
R177); and what PROBE and READREG find where one reference responder is alone on the bus (20_memory.md R83). -/

namespace Sys2Proof.Machine

open Safety

/-! ### The transfers behind their checks -/

/-- After CONFIGURE and with a length within BUF_LEN both checks let a transfer through (30_encoding.md R112, R113). -/
theorem next_checkLen {len : Byte} {command : State → State} {s : State} (hc : s.configured = true)
    (hf : len.toNat ≤ s.params.bufLen) :
    (.next (checkArgs (lenFits s.params len) (checkHandle command) s) : Host.Outcome State Fault Refusal) =
      .next (command s) :=
  congrArg Host.Outcome.next ((checkArgs_of (decide_eq_true hf)).trans (checkHandle_of hc))

theorem exec_start {s : State} (a7 : Addr) (rw : Dir) (hc : s.configured = true) :
    exec (.start a7 rw) s = .next (respond (ackCode (doStart a7 rw s).1) 0#24 (doStart a7 rw s).2) :=
  next_checkHandle hc

theorem exec_stop {s : State} (hc : s.configured = true) : exec .stop s = .next (respond .ok 0#24 (doStop s)) :=
  next_checkHandle hc

theorem exec_writeN {s : State} (a7 : Addr) {len : Byte} (hc : s.configured = true) (hf : len.toNat ≤ s.params.bufLen) :
    exec (.writeN a7 len) s = .next (respond (ackCode (doWriteN a7 (payload s.txbuf len) s).1) 0#24
      (doWriteN a7 (payload s.txbuf len) s).2) :=
  next_checkLen hc hf

theorem exec_readN {s : State} (a7 : Addr) {len : Byte} (hc : s.configured = true) (hf : len.toNat ≤ s.params.bufLen) :
    exec (.readN a7 len) s = .next (respondRead (doReadN a7 len.toNat s)) :=
  next_checkLen hc hf

theorem exec_probe {s : State} (a7 : Addr) (hc : s.configured = true) :
    exec (.probe a7) s = .next (respond (ackCode (doProbe a7 s).1) 0#24 (doProbe a7 s).2) :=
  next_checkHandle hc

theorem exec_readReg {s : State} (a7 : Addr) (reg : Byte) {len : Byte} (hc : s.configured = true)
    (hf : len.toNat ≤ s.params.bufLen) :
    exec (.readReg a7 reg len) s = .next (respondRead (doReadReg a7 reg len.toNat s)) :=
  next_checkLen hc hf

/-- The other spelling of `respond_ackCode_responded`, by the acknowledge and not by the sample. -/
theorem respond_ackCode_of_acked (ok : Bool) (s : State) :
    Responded (if ok then 0x0#4 else 0x1#4) 0#24 (respond (ackCode ok) 0#24 s) := by
  cases ok
  · exact respond_responded .noAck _ s
  · exact respond_responded .ok _ s

/-! ### The bytes of a read -/

theorem readBytes_length {n : Nat} {x : Traffic} {bytes : List Byte} (h : ReadBytes n x bytes) : bytes.length = n := by
  induction h with
  | done => rfl
  | more _ _ _ ih => exact congrArg Nat.succ ih

theorem readTx_length {a7 : Addr} {n : Nat} {x : Traffic} {bytes : List Byte} (h : ReadTx a7 n x (some bytes)) :
    bytes.length = n := by
  cases h with
  | answered h => exact readBytes_length h

theorem regRead_length {a7 : Addr} {reg : Byte} {n : Nat} {x : Traffic} {bytes : List Byte}
    (h : RegRead a7 reg n x (some bytes)) : bytes.length = n := by
  cases h with
  | granted _ h => exact readTx_length h

/-! ### The end of a command that reads -/

/-- RXBUF and the response are all that the end of a read writes. -/
theorem respondRead_sameEngine (r : Option (List Byte) × State) : SameEngine r.2 (respondRead r) := by
  unfold respondRead
  split <;> exact ⟨rfl, rfl, rfl, rfl, rfl, rfl, rfl, rfl, rfl⟩

theorem respondRead_readable (r : Option (List Byte) × State) : readable (respondRead r) = readable r.2 := by
  unfold respondRead
  split <;> rfl

theorem did_respondRead {s : State} {r : Option (List Byte) × State} {x : Traffic} (h : Did s r.2 x) :
    Did s (respondRead r) x :=
  h.of_engine (.self s) (respondRead_sameEngine r) rfl (respondRead_readable r)

/-- A read that got no bytes leaves RXBUF alone and is answered NO_ACK (42_engine_transfers.md R173). -/
theorem respondRead_none {s t : State} (h : SameBuffers s t) :
    (respondRead (none, t)).rxbuf = s.rxbuf ∧ Responded 0x1#4 0#24 (respondRead (none, t)) :=
  ⟨h.rxbuf, respond_responded .noAck _ _⟩

/-- The bytes read are the first entries of RXBUF, and the others stand (R172; 20_memory.md R68). -/
theorem respondRead_some {s t : State} {bytes : List Byte} (h : SameBuffers s t) (hfit : bytes.length ≤ s.rxbuf.length) :
    (respondRead (some bytes, t)).rxbuf = bytes ++ s.rxbuf.drop bytes.length ∧
      Responded 0x0#4 0#24 (respondRead (some bytes, t)) := by
  refine ⟨?_, respond_responded .ok _ _⟩
  calc storeBytes bytes t.rxbuf
      = storeBytes bytes s.rxbuf := by rw [h.rxbuf]
    _ = bytes ++ s.rxbuf.drop bytes.length := storeBytes_eq bytes s.rxbuf hfit

/-- What a read of `n` bytes that fit makes of RXBUF and of the response, whether or not it got them. -/
theorem respondRead_fills {s : State} {r : Option (List Byte) × State} {n : Nat} (hr : Runs s r.2)
    (hfit : n ≤ s.rxbuf.length) (hlen : ∀ bytes, r.1 = some bytes → bytes.length = n) :
    (r.1 = none → (respondRead r).rxbuf = s.rxbuf ∧ Responded 0x1#4 0#24 (respondRead r)) ∧
      ∀ bytes, r.1 = some bytes →
        bytes.length = n ∧ (respondRead r).rxbuf = bytes ++ s.rxbuf.drop n ∧ Responded 0x0#4 0#24 (respondRead r) := by
  obtain ⟨got, t⟩ := r
  have hbuf := hr.engineOnly.buffers
  refine ⟨?_, ?_⟩
  · rintro rfl
    exact respondRead_none hbuf
  · rintro bytes rfl
    obtain rfl := hlen bytes rfl
    exact ⟨rfl, respondRead_some hbuf hfit⟩

/-- What READREG makes of RXBUF and of the response (42_engine_transfers.md R176). -/
theorem doReadReg_fills (a7 : Addr) (reg : Byte) {s : State} {n : Nat} (hfit : n ≤ s.rxbuf.length) :
    ((doReadReg a7 reg n s).1 = none → (respondRead (doReadReg a7 reg n s)).rxbuf = s.rxbuf ∧
        Responded 0x1#4 0#24 (respondRead (doReadReg a7 reg n s))) ∧
      ∀ bytes, (doReadReg a7 reg n s).1 = some bytes → bytes.length = n ∧
        (respondRead (doReadReg a7 reg n s)).rxbuf = bytes ++ s.rxbuf.drop n ∧
        Responded 0x0#4 0#24 (respondRead (doReadReg a7 reg n s)) := by
  obtain ⟨x, hx, -⟩ := did_doReadReg a7 reg n s
  exact respondRead_fills (runs_doReadReg a7 reg n s) hfit fun bytes h => regRead_length (h ▸ hx)

/-! ### The events of a probe -/

/-- Whether an event is an RD(). -/
def isRd (e : Event) : Bool := e == .rd false || e == .rd true

theorem bitOut_tally (b : Bool) :
    (bitOut b).length = 5 ∧ (bitOut b).count .dly = 2 ∧ (bitOut b).count .scl1 = 1 ∧ (bitOut b).filter isRd = [] := by
  cases b <;> decide

/-- Nine pulses, the last one with the one RD() (41_engine_primitives.md R156). -/
theorem byteOut_tally (b : Byte) (k : Bool) :
    (byteOut b k).length = 47 ∧ (byteOut b k).count .dly = 18 ∧ (byteOut b k).count .scl1 = 9 ∧
      (byteOut b k).filter isRd = [.rd k] := by
  simp only [byteOut, List.length_append, List.count_append, List.filter_append, bitOut_tally]
  cases k <;> decide

/-- The START condition, the address byte and STOP (42_engine_transfers.md R174, R175). -/
theorem probed_tally (a7 : Addr) (k : Bool) :
    (probed a7 k).events.length = 56 ∧ (probed a7 k).events.count .dly = 22 ∧ (probed a7 k).events.count .scl1 = 10 ∧
      (probed a7 k).events.filter isRd = [.rd k] := by
  simp only [probed, Traffic.andThen, started, stopped, startOut, List.length_append, List.count_append,
    List.filter_append, byteOut_tally]
  cases k <;> decide

/-! ### READREG as WRTX, WRITEN and READN -/

theorem withPorts_txbuf (word : Response) (ready valid : Bool) (tx : List Byte) (s : State) :
    (withPorts word ready valid tx s).txbuf = tx := rfl

theorem withPorts_withPorts (word word' : Response) (ready ready' valid valid' : Bool) (tx tx' : List Byte) (s : State) :
    withPorts word' ready' valid' tx' (withPorts word ready valid tx s) = withPorts word' ready' valid' tx' s := rfl

theorem exec_wrTx {s : State} {idx : Byte} (val : Byte) (h : idx.toNat < s.params.bufLen) :
    exec (.wrTx idx val) s =
      .next (withPorts (responseWord .ok 0#24) true true (writeEntry s.txbuf idx val) s) :=
  congrArg Host.Outcome.next (checkArgs_of (decide_eq_true h))

theorem payload_one_writeEntry_zero {buf : List Byte} (h : 0 < buf.length) (val : Byte) :
    payload (writeEntry buf 0#8 val) 1#8 = [val] := by
  cases buf with
  | nil => exact absurd h (Nat.lt_irrefl 0)
  | cons => rfl

theorem doReadReg_of_acked {a7 : Addr} {reg : Byte} {s : State} (n : Nat) (h : (doWriteN a7 [reg] s).1 = true) :
    doReadReg a7 reg n s = doReadN a7 n (doWriteN a7 [reg] s).2 :=
  if_pos h

theorem doReadReg_of_not_acked {a7 : Addr} {reg : Byte} {s : State} (n : Nat) (h : (doWriteN a7 [reg] s).1 = false) :
    doReadReg a7 reg n s = (none, (doWriteN a7 [reg] s).2) :=
  if_neg (Bool.eq_false_iff.mp h)

/-- The end of a read overwrites the response port, so of another port and TXBUF only TXBUF is left. -/
theorem respondRead_withPorts (word : Response) (ready valid : Bool) (tx : List Byte) (r : Option (List Byte) × State) :
    respondRead (r.1, withPorts word ready valid tx r.2) = { respondRead r with txbuf := tx } := by
  obtain ⟨_ | bytes, t⟩ := r <;> rfl

/-- WRITEN after another response: the response is overwritten, TXBUF is what is sent and stands. -/
theorem exec_writeN_withPorts {s : State} (a7 : Addr) {len : Byte} (word : Response) (ready valid : Bool)
    {tx bytes : List Byte} (hc : s.configured = true) (hf : len.toNat ≤ s.params.bufLen) (htx : payload tx len = bytes) :
    exec (.writeN a7 len) (withPorts word ready valid tx s) =
      .next (withPorts (responseWord (ackCode (doWriteN a7 bytes s).1) 0#24) true true tx (doWriteN a7 bytes s).2) := by
  rw [exec_writeN (s := withPorts word ready valid tx s) a7 hc hf, withPorts_txbuf, htx, doWriteN_withPorts,
    respond_withPorts, withPorts_withPorts, withPorts_txbuf]

/-- READN after another response with another TXBUF: only TXBUF stands. -/
theorem exec_readN_withPorts {s : State} (a7 : Addr) {len : Byte} (word : Response) (ready valid : Bool) (tx : List Byte)
    (hc : s.configured = true) (hf : len.toNat ≤ s.params.bufLen) :
    exec (.readN a7 len) (withPorts word ready valid tx s) =
      .next { respondRead (doReadN a7 len.toNat s) with txbuf := tx } := by
  rw [exec_readN (s := withPorts word ready valid tx s) a7 hc hf, doReadN_withPorts, respondRead_withPorts]

/-- Writing back the TXBUF that stands is no change. -/
theorem with_txbuf_self {s : State} {tx : List Byte} (h : s.txbuf = tx) : { s with txbuf := tx } = s := by
  subst h
  rfl

/-! ### One device on the bus -/

theorem oneDevice_respond {s : State} {d : Responder} (h : OneDevice s d) (c : Code) (data : Data) :
    OneDevice (respond c data s) d :=
  have frame := respond_engineOnly c data s
  oneDevice_of_bus h rfl frame.world.params frame.handle

theorem oneDevice_respondRead {r : Option (List Byte) × State} {d : Responder} (h : OneDevice r.2 d) :
    OneDevice (respondRead r) d := by
  obtain ⟨hworld, hhandle, -⟩ := respondRead_frame (Runs.refl r.2).engineOnly
  exact oneDevice_of_bus h (respondRead_sameEngine r).bus hworld.params hhandle

end Sys2Proof.Machine

namespace Sys2Proof.Proofs

open Sys2Proof.Machine Sys2Proof.Safety

/-- Settles O25: the traffic of `do_writen` on the first entries of TXBUF, and the code of its acknowledges. -/
theorem writeNSendsTheBuffer : Obligations.WriteNSendsTheBuffer := by
  intro s a7 len hc hf
  obtain ⟨x, hx, hdid⟩ := did_doWriteN a7 (payload s.txbuf len) s
  exact ⟨x, _, _, exec_writeN a7 hc hf, hx, did_respond hdid _ _, (doWriteN_idle _ _ s).respond _ _,
    (runs_doWriteN _ _ s).engineOnly.respond _ _, respond_ackCode_of_acked _ _⟩

/-- Settles O26: the traffic of `do_readn`, whose bytes are stored in RXBUF. -/
theorem readNFillsTheBuffer : Obligations.ReadNFillsTheBuffer := by
  intro s a7 len hc hf hrx
  obtain ⟨x, hx, hdid⟩ := did_doReadN a7 len.toNat s
  have hrun := runs_doReadN a7 len.toNat s
  obtain ⟨hworld, hhandle, htx, hscan⟩ := respondRead_frame hrun.engineOnly
  obtain ⟨hnone, hsome⟩ := respondRead_fills hrun (hrx ▸ hf) fun bytes h => readTx_length (h ▸ hx)
  exact ⟨x, _, _, exec_readN a7 hc hf, hx, did_respondRead hdid, (doReadN_idle a7 _ s).respondRead, hworld, hhandle,
    hscan, htx, hnone, hsome⟩

/-- Settles O27: the traffic of `do_probe`, its events counted, and the code of its acknowledge. -/
theorem probeReportsTheAcknowledge : Obligations.ProbeReportsTheAcknowledge := fun s a7 hc =>
  ⟨!(doProbe a7 s).1, _, exec_probe a7 hc, did_respond (did_doProbe a7 s) _ _, (doProbe_idle a7 s).respond _ _,
    (runs_doProbe a7 s).engineOnly.respond _ _, respond_ackCode_responded _ _, probed_tally a7 _⟩

/-- Settles O28: the traffic of `do_readreg`, whose bytes, if there are any, are stored in RXBUF. -/
theorem readRegWritesThenReads : Obligations.ReadRegWritesThenReads := by
  intro s a7 reg len hc hf hrx
  obtain ⟨x, hx, hdid⟩ := did_doReadReg a7 reg len.toNat s
  have hrun := runs_doReadReg a7 reg len.toNat s
  obtain ⟨hworld, hhandle, htx, hscan⟩ := respondRead_frame hrun.engineOnly
  obtain ⟨hnone, hsome⟩ := doReadReg_fills a7 reg (hrx ▸ hf)
  exact ⟨x, _, _, exec_readReg a7 reg hc hf, hx, did_respondRead hdid, (doReadReg_idle a7 reg _ s).respondRead, hworld,
    hhandle, hscan, htx, hnone, hsome⟩

/-- Settles O42: `do_stop` does not see the response that START has delivered before it. -/
theorem probeIsStartThenStop : Obligations.ProbeIsStartThenStop := by
  intro s a7 hc
  have hopen := (runs_doStart a7 .write s).engineOnly.handle.configured.trans hc
  refine ⟨_, _, _, exec_probe a7 hc, exec_start a7 .write hc, exec_stop hopen, ?_⟩
  rw [respond_withPorts _ _ (doStart a7 .write s).2, doStop_withPorts]
  rfl

/-- Settles O43: neither `do_writen` nor `do_readn` sees the response port or TXBUF, which is all that WRTX and the
responses in between change. -/
theorem readRegIsLoadWriteRead : Obligations.ReadRegIsLoadWriteRead := by
  intro s a7 reg len hc hf hbuf htx
  have hwrite := (runs_doWriteN a7 [reg] s).engineOnly
  refine ⟨_, _, _, _, exec_readReg a7 reg hc hf, exec_wrTx reg (Nat.lt_of_succ_lt hbuf),
    exec_writeN_withPorts a7 _ _ _ hc (Nat.le_of_succ_le hbuf) (payload_one_writeEntry_zero (by omega) reg),
    exec_readN_withPorts a7 _ _ _ _ (hwrite.handle.configured.trans hc) (hwrite.world.params ▸ hf), ?_⟩
  cases hok : (doWriteN a7 [reg] s).1 with
  | true =>
    have hcode : codeOf (responseWord (ackCode true) 0#24) = 0x0#4 := codeOf_word _ _
    refine ⟨fun _ => ?_, fun hne => absurd hcode hne⟩
    obtain ⟨-, -, hbuffer, -⟩ := respondRead_frame (runs_doReadReg a7 reg len.toNat s).engineOnly
    rw [← doReadReg_of_acked _ hok]
    exact (with_txbuf_self hbuffer).symm
  | false =>
    have hcode : codeOf (responseWord (ackCode false) 0#24) = 0x1#4 := codeOf_word _ _
    refine ⟨fun heq => absurd (hcode.symm.trans heq) (by decide), fun _ => ?_⟩
    rw [doReadReg_of_not_acked _ hok]
    exact (with_txbuf_self (s := respond .noAck 0#24 (doWriteN a7 [reg] s).2) hwrite.buffers.txbuf).symm

/-- Settles O47: the acknowledge of `do_probe` is the device's, and the STOP leaves it waiting. -/
theorem probeFindsOnlyTheDevice : Obligations.ProbeFindsOnlyTheDevice := by
  intro s d a7 hc h
  obtain ⟨hack, e, hdev, haddr, hmem, -, hptr⟩ := oneDevice_doProbe a7 h
  have hresp := respond_ackCode_of_acked (doProbe a7 s).1 (doProbe a7 s).2
  simp only [hack, decide_eq_true_eq] at hresp
  exact ⟨_, e, exec_probe a7 hc, hack ▸ hresp, oneDevice_respond hdev _ _, haddr, hmem, hptr⟩

/-- Settles O48: the device gives `do_readreg` its registers, or does not acknowledge. -/
theorem readRegGivesTheDevicesBytes : Obligations.ReadRegGivesTheDevicesBytes := by
  intro s d a7 reg len hc h hlen hf hrx
  obtain ⟨n, hn⟩ := Nat.exists_eq_add_of_le' hlen
  obtain ⟨hbytes, e, hdev, haddr, hmem, -⟩ := oneDevice_doReadReg a7 reg n h
  obtain ⟨hnone, hsome⟩ := doReadReg_fills a7 reg (hrx ▸ hf)
  rw [← hn] at hbytes hdev
  refine ⟨_, e, exec_readReg a7 reg hc hf, oneDevice_respondRead hdev, haddr, hmem, ?_⟩
  by_cases ha : a7 = d.addr
  · rw [if_pos ha] at hbytes ⊢
    obtain ⟨-, hrx', hresp⟩ := hsome _ hbytes
    exact ⟨hresp, readAll_eq d.mem reg len.toNat ▸ hrx'⟩
  · rw [if_neg ha] at hbytes ⊢
    exact (hnone hbytes).symm

end Sys2Proof.Proofs
end

section
/-! PROOFS. Identification (43_identify.md R190 to R201): IDENTIFY is the traffic and the verdict of `do_identify`, then the
response OK with the kind. Every rule but rule 2 ends with a STOP, so that it leaves the bus idle whatever it was (R193;
42_engine_transfers.md R178). -/

namespace Sys2Proof.Machine

open Safety

/-! ### The bus after a rule -/

theorem readAndTest_idle (a7 : Addr) (reg : Byte) (test : Byte → Bool) (hit : Kind) (s : State) :
    BusIdle (readAndTest a7 reg test hit s).2 :=
  readAndTest_state a7 reg test hit s ▸ doReadReg_idle a7 reg 1 s

theorem writeAndEcho_idle (a7 : Addr) (reg val : Byte) (s : State) : BusIdle (writeAndEcho a7 reg val s).2 := by
  unfold writeAndEcho
  dsimp only
  split
  · exact readAndTest_idle _ _ _ _ _
  · exact doWriteN_idle _ _ _

/-- Rule 2 answers without a micro-operation (R193). -/
theorem doIdentify_co2 {a7 : Addr} {s : State} (huv : a7 ≠ Config.addrUv) (hco2 : a7 = s.params.addrCo2) :
    doIdentify a7 s = (.co2, s) := by
  rw [doIdentify, if_neg huv, if_pos hco2]

/-- The other rules make a transaction each, and the last one ends with a STOP. -/
theorem doIdentify_idle_of_not_co2 {a7 : Addr} {s : State} (h : ¬(a7 ≠ Config.addrUv ∧ a7 = s.params.addrCo2)) :
    BusIdle (doIdentify a7 s).2 := by
  unfold doIdentify
  split
  case isTrue => exact readAndTest_idle _ _ _ _ _
  case isFalse huv =>
    rw [if_neg fun hco2 => h ⟨huv, hco2⟩]
    split
    · exact readAndTest_idle _ _ _ _ _
    · split
      · exact writeAndEcho_idle _ _ _ _
      · exact readAndTest_idle _ _ _ _ _

/-! ### The response -/

/-- A kind in a data field has 0 above it (30_encoding.md R104). -/
theorem kindData_eq_append (k : Kind) : kindData k = (0#21 ++ kindCode k : BitVec 24) :=
  BitVec.setWidth_eq_append (by decide)

theorem exec_identify {s : State} (a7 : Addr) (hc : s.configured = true) :
    exec (.identify a7) s = .next (respond .ok (kindData (doIdentify a7 s).1) (doIdentify a7 s).2) :=
  next_checkHandle hc

end Sys2Proof.Machine

namespace Sys2Proof.Proofs

open Sys2Proof.Machine Sys2Proof.Safety

/-- Settles O29: the traffic of `do_identify` and its verdict in the response; the bus ends idle by the STOP of the last
transaction, or, in rule 2, as it was. -/
theorem identifyTriesOneRule : Obligations.IdentifyTriesOneRule := by
  intro s a7 hc
  obtain ⟨x, hx, hdid⟩ := did_doIdentify a7 s
  refine ⟨x, _, _, exec_identify a7 hc, hx, did_respond hdid _ _, (runs_doIdentify a7 s).engineOnly.respond _ _,
    kindData_eq_append _ ▸ respond_responded .ok _ _, fun h => (doIdentify_idle a7 s h).respond _ _, ?_⟩
  split
  case isTrue h =>
    obtain ⟨huv, hco2⟩ := h
    rw [doIdentify_co2 huv hco2]
    exact respond_sameEngine _ _ s
  case isFalse h => exact (doIdentify_idle_of_not_co2 h).respond _ _

end Sys2Proof.Proofs
end

section
/-! PROOFS. SCAN (44_scanner.md R210 to R219): the loop over the window and its end; and what the loop does where every
probe is answered alike, unanswered on the EMPTY bus and acknowledged on the STUCK bus (20_memory.md R82). -/

namespace Sys2Proof.Machine

theorem exec_scan {s : State} (hc : s.configured = true) :
    exec .scan s = .next (scanFrom (scanWindow s.params) (scanEntry s)) :=
  next_checkHandle (command := fun s => scanFrom (scanWindow s.params) (scanEntry s)) hc

end Sys2Proof.Machine

namespace Sys2Proof.Safety

open Machine

/-! ### Scans whose samples are all alike -/

/-- A probe has one sample, and it comes before those of the rest of the scan. -/
theorem forall_answers_probed {P : Bool → Prop} {a7 : Addr} {k : Bool} {x : Traffic} :
    (∀ b ∈ ((probed a7 k).andThen x).answers, P b) ↔ P k ∧ ∀ b ∈ x.answers, P b :=
  List.forall_mem_cons

/-- Where no probe is acknowledged, every address up to SCAN_LAST is probed, and nothing is counted (44_scanner.md R219). -/
theorem Scanned.of_unanswered {p : Params} {a bad : Nat} {x : Traffic} {e : ScanEnd} {n : Nat}
    (h : Scanned p a bad x e n) (hall : ∀ k ∈ x.answers, k = true) :
    e = .noSensors ∧ n = bad ∧ x.events.length = 56 * (p.scanLast.toNat + 1 - a) ∧
      x.events.count .dly = 22 * (p.scanLast.toNat + 1 - a) := by
  induction h with
  | exhausted ha =>
    rw [ha, Nat.sub_self]
    exact ⟨rfl, rfl, rfl, rfl⟩
  | @silent a _ x _ _ hle _ ih =>
    obtain ⟨he, hn, hlength, hdly⟩ := ih (forall_answers_probed.mp hall).2
    obtain ⟨hlength', hdly', -⟩ := probed_tally (BitVec.ofNat 7 a) true
    refine ⟨he, hn, ?_, ?_⟩
    · simp only [Traffic.andThen, List.length_append, hlength, hlength']
      omega
    · simp only [Traffic.andThen, List.count_append, hdly, hdly']
      omega
  | flagged | unknown | found => exact Bool.noConfusion (forall_answers_probed.mp hall).1
  | aborted => exact Bool.noConfusion (hall false (List.mem_singleton_self _))

/-- Where every probe is acknowledged, every address is counted; if the count reaches BAD_LIMIT below VALID_MIN, the scan
aborts there (44_scanner.md R215). -/
theorem Scanned.of_acknowledged {p : Params} {a bad : Nat} {x : Traffic} {e : ScanEnd} {n : Nat}
    (h : Scanned p a bad x e n) (hall : ∀ k ∈ x.answers, k = false) (hlast : 16 ≤ p.scanLast.toNat) (hbad : bad ≤ 9)
    (hlow : a + (9 - bad) < 16) :
    e = .busFault (a + (9 - bad)) ∧ n = 10 ∧ x.events.length = 56 * (10 - bad) := by
  induction h with
  | exhausted ha => omega
  | silent => exact Bool.noConfusion (forall_answers_probed.mp hall).1
  | @flagged a bad x _ _ _ _ hne _ ih =>
    obtain ⟨he, hn, hlength⟩ := ih (forall_answers_probed.mp hall).2 (by omega) (by omega)
    have hnext : a + 1 + (9 - (bad + 1)) = a + (9 - bad) := by omega
    obtain ⟨hlength', -⟩ := probed_tally (BitVec.ofNat 7 a) false
    refine ⟨hnext ▸ he, hn, ?_⟩
    simp only [Traffic.andThen, List.length_append, hlength, hlength']
    omega
  | @aborted a bad _ _ hten =>
    obtain rfl : bad = 9 := by omega
    obtain ⟨hlength, -⟩ := probed_tally (BitVec.ofNat 7 a) false
    exact ⟨rfl, rfl, hlength⟩
  | unknown | found => omega

end Sys2Proof.Safety

namespace Sys2Proof.Proofs

open Sys2Proof.Machine Sys2Proof.Safety

/-- Settles O30: the entry actions and the loop, whose low acknowledges each have used up an address from 4 on. -/
theorem scanRunsTheWindow : Obligations.ScanRunsTheWindow := by
  intro s hc hlast
  obtain ⟨x, e, n, hscan, hdid, hleft, hidle⟩ := did_scan s (by omega)
  obtain ⟨heff, hbuf⟩ := execScan_effects s
  exact ⟨x, e, n, _, exec_scan hc, hscan, hdid, hleft, hidle, heff.world, heff.handle, hbuf,
    hscan.inRange (Nat.zero_le 9) (Nat.le_refl 4)⟩

/-- Settles O44: on EMPTY every sample is 1, so that none of the 124 probes is acknowledged. -/
theorem emptyBusScansToTheEnd : Obligations.EmptyBusScansToTheEnd := by
  intro s hc hlast hempty
  obtain ⟨x, e, n, t, hexec, hscan, hdid, hleft, -, hworld, -⟩ := scanRunsTheWindow s hc (by rw [hlast]; decide)
  obtain ⟨rfl, rfl, hlength, hdly⟩ := hscan.of_unanswered (hdid.answers.constant true hempty).1
  obtain ⟨hstate, hresult, haddr, -, -, hbad, hresp⟩ := hleft
  rw [hworld.params] at haddr
  rw [hlast] at haddr hlength hdly
  exact ⟨x.events, t, hexec, hdid.trace, hlength, hdly, hstate, hresult, BitVec.eq_of_toNat_eq haddr,
    BitVec.eq_of_toNat_eq hbad, hresp⟩

/-- Settles O45: on STUCK every sample is 0, so that each of the ten probes from 4 on is counted. -/
theorem stuckBusIsABusFault : Obligations.StuckBusIsABusFault := by
  intro s hc hlast hstuck
  obtain ⟨x, e, n, t, hexec, hscan, hdid, hleft, -⟩ := scanRunsTheWindow s hc hlast
  obtain ⟨rfl, rfl, hlength⟩ :=
    hscan.of_acknowledged (hdid.answers.constant false hstuck).1 hlast (by decide) (by decide)
  obtain ⟨hstate, hresult, haddr, -, -, hbad, hresp⟩ := hleft
  exact ⟨x.events, t, hexec, hdid.trace, hlength, hstate, hresult, BitVec.eq_of_toNat_eq haddr,
    BitVec.eq_of_toNat_eq hbad, hresp⟩

end Sys2Proof.Proofs
end

section
/-! PROOFS. The host access commands: what the four status views hold (10_state.md R43 to R46) and what RDSTAT, WRTX and
RDRX answer and write (45_host_access.md). -/

namespace Sys2Proof.Safety

open Machine

/-! ### The views -/

theorem tierBits_eq_tierCode (t : Tier) : tierBits t = tierCode t := by
  cases t <;> rfl

theorem scanStateBits_eq_scanStateCode (x : ScanState) : scanStateBits x = scanStateCode x := by
  cases x <;> rfl

theorem scanResultBits_eq_scanResultCode (x : ScanResult) : scanResultBits x = scanResultCode x := by
  cases x <;> rfl

theorem kindBits_eq_kindCode (k : Kind) : kindBits k = kindCode k := by
  cases k <;> rfl

/-- A drive state is reported as 1 exactly when the line is released (10_state.md R24). -/
theorem driveBit_eq_ofBool (d : Drive) : driveBit d = BitVec.ofBool (decide (d = .rel)) := by
  cases d <;> rfl

theorem statusView_isStatusView (s : State) : StatusView s (statusView s) := by
  constructor <;>
    simp only [statusView, driveBit_eq_ofBool, BitVec.getLsbD_append, BitVec.extractLsb'_append_eq_ite] <;> simp

theorem configView_isConfigView (s : State) : ConfigView s (configView s) := by
  constructor <;>
    simp only [configView, tierBits_eq_tierCode, BitVec.getLsbD_append, BitVec.extractLsb'_append_eq_ite] <;> simp

theorem scanstatView_isScanstatView (s : State) : ScanstatView s (scanstatView s) := by
  constructor <;>
    simp only [scanstatView, scanStateBits_eq_scanStateCode, scanResultBits_eq_scanResultCode,
      BitVec.extractLsb'_append_eq_ite] <;> simp

theorem foundView_isFoundView (s : State) : FoundView s (foundView s) := by
  constructor <;>
    simp only [foundView, recordData, kindBits_eq_kindCode, BitVec.getLsbD_append, BitVec.extractLsb'_append_eq_ite] <;>
    simp

/-! ### The buffers -/

/-- An entry within the buffer is what `readEntry` answers, not its default. -/
theorem getElem?_eq_readEntry {buf : List Byte} {idx : Byte} (h : idx.toNat < buf.length) :
    buf[idx.toNat]? = some (readEntry buf idx) := by
  simp [readEntry, h]

theorem getElem?_writeEntry {buf : List Byte} {idx : Byte} (h : idx.toNat < buf.length) (val : Byte) (n : Nat) :
    (writeEntry buf idx val)[n]? = if n = idx.toNat then some val else buf[n]? := by
  rw [writeEntry, List.getElem?_set]
  by_cases hn : n = idx.toNat
  · simp [hn, h]
  · simp [hn, Ne.symm hn]

/-- Another response port and another TXBUF leave everything but themselves (10_state.md R28). -/
theorem withPorts_frame (word : Response) (ready valid : Bool) (tx : List Byte) (s : State) :
    (withPorts word ready valid tx s).rxbuf = s.rxbuf ∧ SameWorld s (withPorts word ready valid tx s) ∧
      SameHandle s (withPorts word ready valid tx s) ∧ SameScanner s (withPorts word ready valid tx s) ∧
      SameEngine s (withPorts word ready valid tx s) :=
  ⟨rfl, ⟨rfl, rfl, rfl⟩, ⟨rfl, rfl, rfl, rfl⟩, ⟨rfl, rfl, rfl, rfl, rfl, rfl⟩,
    ⟨rfl, rfl, rfl, rfl, rfl, rfl, rfl, rfl, rfl⟩⟩

/-- RDRX of an entry within RXBUF answers with it (45_host_access.md R231). -/
theorem exec_rdRx {s : State} {idx : Byte} (h : idx.toNat < s.params.bufLen) :
    exec (.rdRx idx) s = .next (respond .ok (byteData (readEntry s.rxbuf idx)) s) :=
  congrArg Host.Outcome.next (checkArgs_of (decide_eq_true h))

end Sys2Proof.Safety

namespace Sys2Proof.Proofs

open Sys2Proof.Machine Sys2Proof.Safety

/-- Settles O33: RDSTAT answers with the view that the machine computes, and that one has each field in its place. -/
theorem rdStatReadsTheView : Obligations.RdStatReadsTheView := by
  intro s sel
  obtain ⟨t, hexec, hresponse⟩ := exec_rdStat sel s
  refine ⟨view sel s, t, hexec, hresponse, ?_⟩
  cases sel with
  | status => exact statusView_isStatusView s
  | config => exact configView_isConfigView s
  | scanstat => exact scanstatView_isScanstatView s
  | found => exact foundView_isFoundView s

/-- Settles O31: the check lets the index through, and only the port and the entry of TXBUF are written. -/
theorem wrTxWritesOneEntry : Obligations.WrTxWritesOneEntry := by
  intro s idx val hidx hlen
  obtain ⟨hrx, hworld, hhandle, hscan, hengine⟩ :=
    withPorts_frame (responseWord .ok 0#24) true true (writeEntry s.txbuf idx val) s
  exact ⟨_, exec_wrTx val hidx, List.length_set, getElem?_writeEntry (hlen ▸ hidx) val, hrx, hworld, hhandle, hscan,
    hengine, ⟨rfl, rfl, rfl⟩⟩

/-- Settles O32: the check lets the index through, and the entry is there, so that the default is not read. -/
theorem rdRxReadsOneEntry : Obligations.RdRxReadsOneEntry := by
  intro s idx hidx hlen
  exact ⟨_, _, getElem?_eq_readEntry (hlen ▸ hidx), exec_rdRx hidx,
    byteData_eq_append _ ▸ respond_onlyResponse .ok _ s⟩

end Sys2Proof.Proofs
end

section
/-! PROOFS. Errors are responses (60_exceptions.md): what a command has left when it answers NO_ACK, BUS_FAULT or NO_SENSORS
(R241 to R243, R248), the only calls that the collaborators ever see (R257, R258), and that no step stops the machine (R240,
R262). -/

namespace Sys2Proof.Machine

open Safety

/-! ### The step -/

theorem step_of_nothing {s : State} (h : s.inputs = []) : step s = .next (idle s) := by
  simp only [step, port_nothing h]

/-- Every command ends in a next state, refused or not (60_exceptions.md R240). -/
theorem exec_next (i : Instr) (s : State) : ∃ t, exec i s = .next t :=
  (exec_writesOnlyItsOwn i s).imp fun _ h => h.1

end Sys2Proof.Machine

namespace Sys2Proof.Safety

open Machine

/-! ### The calls -/

/-- Every call behind an event is an allowed one (60_exceptions.md R257, R258). -/
theorem allowedCall_of_mem_callsOf {s : State} {e : Event} {c : Call} (h : c ∈ callsOf s e) : AllowedCall s c := by
  cases e with
  | sda0 | scl0 =>
    obtain rfl | rfl : c = _ ∨ c = _ := by simpa only [callsOf, List.mem_cons, List.not_mem_nil, or_false] using h
    · exact ⟨by simp, rfl⟩
    · exact ⟨by simp, .inl rfl⟩
  | sda1 | scl1 =>
    obtain rfl := List.mem_singleton.mp h
    exact ⟨by simp, .inr rfl⟩
  | dly =>
    obtain rfl := List.mem_singleton.mp h
    rfl
  | rd k =>
    obtain rfl := List.mem_singleton.mp h
    rfl

/-- Every command makes only allowed calls; CONFIGURE makes none (41_engine_primitives.md R151). -/
theorem exec_allowedCalls (i : Instr) (s : State) :
    ∃ cs t, exec i s = .next t ∧ t.calls = s.calls ++ cs ∧ ∀ c ∈ cs, AllowedCall s c := by
  by_cases hi : ∃ sda scl speed, i = .configure sda scl speed
  · obtain ⟨sda, scl, speed, rfl⟩ := hi
    exact ⟨[], _, rfl, (List.append_nil _).symm, fun _ hc => absurd hc List.not_mem_nil⟩
  · obtain ⟨t, ht, heffects⟩ := exec_effects i s fun sda scl speed h => hi ⟨sda, scl, speed, h⟩
    obtain ⟨es, hes⟩ := heffects.issued
    refine ⟨_, t, ht, hes.calls, fun c hc => ?_⟩
    obtain ⟨e, -, hc⟩ := List.mem_flatMap.mp hc
    exact allowedCall_of_mem_callsOf hc

/-- A probe issues every line operation and its one sample (42_engine_transfers.md R174). -/
theorem mem_probed (a7 : Addr) (k : Bool) :
    ∀ e ∈ [Event.sda0, .scl0, .sda1, .scl1, .rd k], e ∈ (probed a7 k).events := by
  simp [probed, Traffic.andThen, started, stopped, startOut, stopOut, byteOut]

/-- The collaborator calls of a probe are those of its events. -/
theorem exec_probe_calls {s : State} (a7 : Addr) (hc : s.configured = true) :
    ∃ t k, exec (.probe a7) s = .next t ∧ t.calls = s.calls ++ (probed a7 k).events.flatMap (callsOf s) := by
  obtain ⟨es, hes⟩ := (runs_doProbe a7 s).issued
  have hprobed : es = (probed a7 (!(doProbe a7 s).1)).events :=
    List.append_cancel_left (hes.trace.symm.trans (did_doProbe a7 s).trace)
  exact ⟨_, _, exec_probe a7 hc, hprobed ▸ hes.calls⟩

/-! ### What a failed command leaves -/

/-- From `s` the command `i` has ended in `t` with the error `c`: who can raise it, and how the engine, the lines and the
scanner then stand (60_exceptions.md R241 to R243, R248). -/
inductive Failed (s t : State) : Code → Instr → Prop where
  | start (a7 : Addr) (rw : Dir) : t.ack = false → t.busOpen = true → t.sdaDrv = .low → t.sclDrv = .low →
    Failed s t .noAck (.start a7 rw)
  | writeByte (b : Byte) : t.ack = false → t.busOpen = s.busOpen → t.sdaDrv = .low → t.sclDrv = .low →
    Failed s t .noAck (.writeByte b)
  | writeN (a7 : Addr) (len : Byte) : t.ack = false → BusIdle t → Failed s t .noAck (.writeN a7 len)
  | readN (a7 : Addr) (len : Byte) : t.ack = false → BusIdle t → Failed s t .noAck (.readN a7 len)
  | probe (a7 : Addr) : t.ack = false → BusIdle t → Failed s t .noAck (.probe a7)
  | readReg (a7 : Addr) (reg len : Byte) : t.ack = false → BusIdle t → Failed s t .noAck (.readReg a7 reg len)
  | busFault : t.scanState = .exhausted → t.scanResult = .busFault → BusIdle t → Failed s t .busFault .scan
  | noSensors : t.scanState = .exhausted → t.scanResult = .noSensors → (4 ≤ s.params.scanLast.toNat → BusIdle t) →
    Failed s t .noSensors .scan

/-- The codes of an error on the bus (60_exceptions.md R241 to R243). -/
def busErrors : List Code := [.noAck, .busFault, .noSensors]

/-- If `t` answers an error on the bus, then it is as the failed command `i` leaves it. -/
def FailsAsNamed (s t : State) (i : Instr) : Prop :=
  ∀ c ∈ busErrors, codeOf t.rspWord = codeBits c → Failed s t c i

theorem codeBits_injective : Function.Injective codeBits :=
  fun c c' => by cases c <;> cases c' <;> decide

theorem Responded.failsAsNamed {s t : State} {i : Instr} {c : Code} {d : Data} (h : Responded (codeBits c) d t)
    (hfailed : c ∈ busErrors → Failed s t c i) : FailsAsNamed s t i := by
  intro c' hmem hcode
  obtain rfl := codeBits_injective (h.codeOf_eq.symm.trans hcode)
  exact hfailed hmem

theorem failsAsNamed_of_no_error {s t : State} {i : Instr} {c : Code} (d : Data) (hc : c ∉ busErrors) :
    FailsAsNamed s (respond c d t) i :=
  (respond_responded c d t).failsAsNamed fun hmem => absurd hmem hc

/-- A command that answers by an acknowledge fails when there was none. -/
theorem failsAsNamed_ack {s t : State} {i : Instr} {ok : Bool}
    (hfailed : ok = false → Failed s (respond .noAck 0#24 t) .noAck i) : FailsAsNamed s (respond (ackCode ok) 0#24 t) i := by
  cases ok with
  | true => exact failsAsNamed_of_no_error _ (by decide)
  | false => exact (respond_responded .noAck _ t).failsAsNamed fun _ => hfailed rfl

/-- A command that reads fails when it got no bytes (42_engine_transfers.md R173). -/
theorem failsAsNamed_read {s : State} {i : Instr} {r : Option (List Byte) × State}
    (hfailed : r.1 = none → Failed s (respond .noAck 0#24 r.2) .noAck i) : FailsAsNamed s (respondRead r) i := by
  obtain ⟨_ | bytes, t⟩ := r
  · exact (respond_responded .noAck _ t).failsAsNamed fun _ => hfailed rfl
  · exact failsAsNamed_of_no_error _ (by decide)

/-- A scan fails by the bus fault or by the end of the window, also of an empty one (44_scanner.md R213, R217). -/
theorem failsAsNamed_scan (s : State) : FailsAsNamed s (scanFrom (scanWindow s.params) (scanEntry s)) .scan := by
  by_cases hwindow : 4 ≤ s.params.scanLast.toNat
  · obtain ⟨_, e, _, -, -, hleft, hidle⟩ := did_scan s hwindow
    cases e with
    | found a k =>
      obtain ⟨-, -, -, -, -, -, hresponded⟩ := hleft
      exact Responded.failsAsNamed (c := .ok) hresponded fun hmem => absurd hmem (by decide)
    | noSensors =>
      obtain ⟨hstate, hresult, -, -, -, -, hresponded⟩ := hleft
      exact Responded.failsAsNamed (c := .noSensors) hresponded fun _ => .noSensors hstate hresult fun _ => hidle
    | busFault a =>
      obtain ⟨hstate, hresult, -, -, -, -, hresponded⟩ := hleft
      exact Responded.failsAsNamed (c := .busFault) hresponded fun _ => .busFault hstate hresult hidle
  · rw [scan_empty s (by omega)]
    exact (respond_responded .noSensors _ _).failsAsNamed fun _ => .noSensors rfl rfl fun h => absurd h hwindow

/-- Every command that answers an error on the bus is one that can raise it, and leaves what it then leaves. -/
theorem exec_failsAsNamed (i : Instr) (s : State) : ∃ t, exec i s = .next t ∧ FailsAsNamed s t i := by
  have badArg : FailsAsNamed s (refuse .badArg s) i := failsAsNamed_of_no_error _ (by decide)
  have guarded {command : State → State} (hcommand : FailsAsNamed s (command s) i) :
      FailsAsNamed s (checkHandle command s) i :=
    checkHandle_elim (P := fun t => FailsAsNamed s t i) (failsAsNamed_of_no_error _ (by decide)) fun _ => hcommand
  have checked {fits : Bool} {command : State → State} (hcommand : FailsAsNamed s (command s) i) :
      FailsAsNamed s (checkArgs fits command s) i :=
    checkArgs_elim (P := fun t => FailsAsNamed s t i) badArg hcommand
  have done (d : Data) (t : State) : FailsAsNamed s (respond .ok d t) i := failsAsNamed_of_no_error d (by decide)
  cases i with
  | start a7 rw =>
    exact ⟨_, rfl, guarded (failsAsNamed_ack fun h => .start a7 rw h (doStart_busOpen a7 rw s) rfl rfl)⟩
  | writeByte b =>
    exact ⟨_, rfl, guarded (failsAsNamed_ack fun h => .writeByte b h (doWriteByte_busOpen b s) rfl rfl)⟩
  | writeN a7 len =>
    exact ⟨_, rfl, checked (guarded (failsAsNamed_ack fun h =>
      .writeN a7 len ((doWriteN_ack a7 _ s).trans h) ((doWriteN_idle a7 _ s).respond _ _)))⟩
  | readN a7 len =>
    exact ⟨_, rfl, checked (guarded (failsAsNamed_read fun h =>
      .readN a7 len (doReadN_ack h) ((doReadN_idle a7 _ s).respond _ _)))⟩
  | probe a7 =>
    exact ⟨_, rfl, guarded (failsAsNamed_ack fun h => .probe a7 h ((doProbe_idle a7 s).respond _ _))⟩
  | readReg a7 reg len =>
    exact ⟨_, rfl, checked (guarded (failsAsNamed_read fun h =>
      .readReg a7 reg len (doReadReg_ack h) ((doReadReg_idle a7 reg _ s).respond _ _)))⟩
  | scan => exact ⟨_, rfl, guarded (failsAsNamed_scan s)⟩
  | stop | readByte | identify => exact ⟨_, rfl, guarded (done _ _)⟩
  | wrTx | rdRx => exact ⟨_, rfl, checked (done _ _)⟩
  | configure | rdStat => exact ⟨_, rfl, done _ _⟩

/-- A composite command that failed has closed the bus, a scan at least when its window was not empty (60_exceptions.md R248). -/
theorem Failed.idle {s t : State} {c : Code} {i : Instr} (h : Failed s t c i) (hi : closesBus i = true)
    (hwindow : 4 ≤ s.params.scanLast.toNat) : BusIdle t := by
  cases h with
  | start | writeByte => exact Bool.noConfusion hi
  | writeN _ _ _ hidle | readN _ _ _ hidle | probe _ _ hidle | readReg _ _ _ _ hidle | busFault _ _ hidle => exact hidle
  | noSensors _ _ hidle => exact hidle hwindow

theorem mem_busErrors_of_code {r : Response} (h : codeOf r ∈ [0x1#4, 0x2#4, 0x3#4]) :
    ∃ c ∈ busErrors, codeOf r = codeBits c := by
  obtain ⟨c, hmem, hcode⟩ := List.mem_map.mp (show codeOf r ∈ busErrors.map codeBits from h)
  exact ⟨c, hmem, hcode.symm⟩

end Sys2Proof.Safety

namespace Sys2Proof.Proofs

open Sys2Proof.Machine Sys2Proof.Safety

/-- Settles O36: the calls of a command are those of its events, and a probe has an event for each call. -/
theorem onlyTheAllowedCalls : Obligations.OnlyTheAllowedCalls := by
  refine ⟨exec_allowedCalls, fun s a7 hc => ?_⟩
  obtain ⟨t, k, ht, hcalls⟩ := exec_probe_calls a7 hc
  refine ⟨_, t, k, ht, hcalls, fun c hmem => List.mem_flatMap.mpr ?_⟩
  have behind : ∃ e ∈ [Event.sda0, .scl0, .sda1, .scl1, .rd k], c ∈ callsOf s e := by
    simp only [List.mem_cons, List.not_mem_nil, or_false] at hmem
    rcases hmem with rfl | rfl | rfl | rfl | rfl | rfl | rfl <;> simp [callsOf]
  obtain ⟨e, he, hce⟩ := behind
  exact ⟨e, mem_probed a7 k e he, hce⟩

/-- Settles O40: each error has its own ways to be raised. -/
theorem errorsAreRaisedByTheNamedCommands : Obligations.ErrorsAreRaisedByTheNamedCommands := by
  intro i s
  obtain ⟨t, ht, hnamed⟩ := exec_failsAsNamed i s
  refine ⟨t, ht, fun hcode => ?_, fun hcode => ?_, fun hcode => ?_⟩
  · cases hnamed .noAck (by decide) hcode with
    | start _ _ hack | writeByte _ hack | writeN _ _ hack | readN _ _ hack | probe _ hack | readReg _ _ _ hack =>
      exact ⟨hack, by simp⟩
  · cases hnamed .busFault (by decide) hcode with
    | busFault hstate hresult => exact ⟨rfl, hstate, hresult⟩
  · cases hnamed .noSensors (by decide) hcode with
    | noSensors hstate hresult => exact ⟨rfl, hstate, hresult⟩

/-- Settles O41: what each failed command leaves, and a response leaves the block ready. -/
theorem errorsLeaveTheBusInOrder : Obligations.ErrorsLeaveTheBusInOrder := by
  intro i s t hlast ht hcode
  obtain ⟨u, hu, hnamed⟩ := exec_failsAsNamed i s
  obtain rfl := Host.Outcome.next.inj (hu.symm.trans ht)
  obtain ⟨c, hmem, hc⟩ := mem_busErrors_of_code hcode
  have hfailed := hnamed c hmem hc
  obtain ⟨_, _, -, hresponded⟩ := exec_responds ht
  refine ⟨hresponded.cmdReady, fun hi => hfailed.idle hi (by omega), ?_, ?_⟩
  · rintro ⟨a7, rw, rfl⟩
    cases hfailed with
    | start _ _ _ hopen hsda hscl => exact ⟨hopen, hsda, hscl⟩
  · rintro ⟨b, rfl⟩
    cases hfailed with
    | writeByte _ _ hopen hsda hscl => exact ⟨hopen, hsda, hscl⟩

/-- Settles O12: the command port is quiet, and the block idles. -/
theorem stepIdlesWithNothingPresented : Obligations.StepIdlesWithNothingPresented := fun _ h => step_of_nothing h

/-- Settles O13, by what the step finds on the command port; a command ends in a next state. -/
theorem noStepTraps : Obligations.NoStepTraps := by
  intro s
  unfold step
  cases port s with
  | quiet => exact ⟨_, rfl⟩
  | reset rest => exact ⟨_, rfl⟩
  | abort w n rest => exact ⟨_, rfl⟩
  | take w rest =>
    dsimp only
    cases decode w with
    | ok i => exact exec_next i (accept rest s)
    | error e => exact ⟨_, rfl⟩

end Sys2Proof.Proofs
end

section
/-! PROOFS. `rst` inside a command (70_reset_and_hazards.md R271), CONFIGURE and the STOP after it (R282), and the most
micro-operations that a command can take (R290). -/

namespace Sys2Proof.Machine

open Safety

/-! ### `rst` inside a command -/

/-- `rst` inside a command abandons it, whatever `cmd_ready` is (70_reset_and_hazards.md R271). -/
theorem step_of_abort {s : State} {w : Word} {n : Nat} {rest : List Input} (h : s.inputs = .resetDuring w n :: rest) :
    step s = .next (abort w n rest s) := by
  simp only [step, port_abort h]

/-- It leaves the pins as the part of the command that has run left them. -/
theorem abort_pins {w : Word} {n : Nat} {rest : List Input} {s : State} {ran : List Event}
    (h : ranBefore w n (accept rest s) = ran) : PinsAfter s ran (abort w n rest s) := by
  subst h
  exact resetMidCommand_pins _ rest s

/-! ### A run whose events are known -/

/-- The events that a run appends to the trace are the ones it issues, with their calls and drive states. -/
theorem Runs.issued_of_trace {s t : State} {es : List Event} (h : Runs s t) (ht : t.trace = s.trace ++ es) :
    Issued s es t := by
  obtain ⟨es', hes'⟩ := h.issued
  obtain rfl : es' = es := List.append_cancel_left (hes'.trace.symm.trans ht)
  exact hes'

/-- They are the ones that move the pins, too. -/
theorem Runs.pins_of_trace {s t : State} {es : List Event} (h : Runs s t) (ht : t.trace = s.trace ++ es) :
    PinsAfter s es t := by
  obtain ⟨es', htrace, hpins⟩ := h.pins
  obtain rfl : es' = es := List.append_cancel_left (htrace.symm.trans ht)
  exact hpins

theorem doStop_issued (s : State) : Issued s stopOut (doStop s) := (runs_doStop s).issued_of_trace (doStop_trace s)

theorem doStop_pins (s : State) : PinsAfter s stopOut (doStop s) := (runs_doStop s).pins_of_trace (doStop_trace s)

end Sys2Proof.Machine

namespace Sys2Proof.Safety

open Machine

/-! ### The pins after a STOP -/

/-- STOP releases both configured pins, where they are supported; with one pin for both lines its last operation, SDA1,
does (41_engine_primitives.md R154; 40_microops.md R139). -/
theorem pinAfter_stopOut {s : State} {p : Byte} (hp : p = s.sdaPin ∨ p = s.sclPin)
    (hs : supported s.params p = true) (d : Drive) : pinAfter s p d stopOut = .rel := by
  by_cases hsda : p = s.sdaPin
  · simp [stopOut, pinAfter, hs, ← hsda]
  · have hscl : p = s.sclPin := hp.resolve_left hsda
    simp [stopOut, pinAfter, hs, hsda, ← hscl]

/-- A pin that is not configured is after STOP as it was (70_reset_and_hazards.md R282). -/
theorem mem_held_doStop_of_other {s : State} {p : Byte} (hsda : p ≠ s.sdaPin) (hscl : p ≠ s.sclPin) :
    p ∈ (doStop s).bus.held ↔ p ∈ s.bus.held := by
  rw [(doStop_pins s).pins, pinAfter_other hsda hscl, low_iff]

theorem not_mem_held_doStop {s : State} {p : Byte} (hp : p = s.sdaPin ∨ p = s.sclPin)
    (hs : supported s.params p = true) : p ∉ (doStop s).bus.held := by
  rw [(doStop_pins s).pins, pinAfter_stopOut hp hs]
  exact nofun

/-! ### How long traffic is (R290) -/

theorem andThen_length (x y : Traffic) : (x.andThen y).events.length = x.events.length + y.events.length :=
  List.length_append

/-- The START condition and the address byte. -/
theorem started_length (a7 : Addr) (rw : Dir) (k : Bool) : (started a7 rw k).events.length = 51 := by
  obtain ⟨hbyte, -⟩ := byteOut_tally (a7 ++ rw.bit : BitVec 8) k
  simp [started, startOut, hbyte]

theorem stopped_length : stopped.events.length = 5 := rfl

theorem sent_length (b : Byte) (k : Bool) : (sent b k).events.length = 47 := (byteOut_tally b k).1

/-- Eight sampled pulses and the acknowledge. -/
theorem received_length {ks : List Bool} (h : ks.length = 8) (last : Bool) : (received ks last).events.length = 47 := by
  have hbits : (ks.flatMap bitIn).length = 5 * ks.length := by
    simp [List.length_flatMap, bitIn, Nat.mul_comm]
  simp [received, byteIn, hbits, h]

theorem SentBytes.events_length_le {bytes : List Byte} {x : Traffic} {ok : Bool} (h : SentBytes bytes x ok) :
    x.events.length ≤ 47 * bytes.length := by
  induction h with
  | done => exact Nat.zero_le _
  | nack b bytes =>
    rw [sent_length, List.length_cons]
    omega
  | ack b _ ih =>
    rw [andThen_length, sent_length, List.length_cons]
    omega

theorem ReadBytes.events_length {n : Nat} {x : Traffic} {bytes : List Byte} (h : ReadBytes n x bytes) :
    x.events.length = 47 * n := by
  induction h with
  | done => rfl
  | more ks hks _ ih =>
    rw [andThen_length, received_length hks, ih]
    omega

theorem WriteTx.events_length_le {a7 : Addr} {bytes : List Byte} {x : Traffic} {ok : Bool} (h : WriteTx a7 bytes x ok) :
    x.events.length ≤ 56 + 47 * bytes.length := by
  cases h with
  | absent =>
    rw [andThen_length, started_length, stopped_length]
    omega
  | answered hbytes =>
    have := hbytes.events_length_le
    rw [andThen_length, andThen_length, started_length, stopped_length]
    omega

theorem ReadTx.events_length_le {a7 : Addr} {n : Nat} {x : Traffic} {r : Option (List Byte)} (h : ReadTx a7 n x r) :
    x.events.length ≤ 56 + 47 * n := by
  cases h with
  | absent =>
    rw [andThen_length, started_length, stopped_length]
    omega
  | answered hbytes =>
    rw [andThen_length, andThen_length, started_length, stopped_length, hbytes.events_length]
    omega

/-- The write of the register number takes at most 103 events, the read transaction the rest. -/
theorem RegRead.events_length_le {a7 : Addr} {reg : Byte} {n : Nat} {x : Traffic} {r : Option (List Byte)}
    (h : RegRead a7 reg n x r) : x.events.length ≤ 159 + 47 * n := by
  cases h with
  | refused hwrite =>
    have : x.events.length ≤ 56 + 47 * 1 := hwrite.events_length_le
    omega
  | @granted y z _ hwrite hread =>
    have hy : y.events.length ≤ 56 + 47 * 1 := hwrite.events_length_le
    have hz := hread.events_length_le
    rw [andThen_length]
    omega

/-- Rule 4 is the longest one: a write of two bytes, 150 events, and a register read, 206. -/
theorem Identified.events_length_le {p : Params} {a7 : Addr} {x : Traffic} {k : Kind} (h : Identified p a7 x k) :
    x.events.length ≤ 356 := by
  cases h with
  | co2 => exact Nat.zero_le _
  | uv _ hread | rtcA _ _ _ hread | imu _ _ _ _ hread =>
    have := hread.events_length_le
    omega
  | rtcBUnwritten _ _ _ _ hwrite =>
    have : x.events.length ≤ 56 + 47 * 2 := hwrite.events_length_le
    omega
  | @rtcB y z _ _ _ _ _ hwrite hread =>
    have hy : y.events.length ≤ 56 + 47 * 2 := hwrite.events_length_le
    have hz := hread.events_length_le
    rw [andThen_length]
    omega

/-- The most events of a scan from the address `a` on: a probe for each address below VALID_MIN, a probe and an
identification for each from there to 127. -/
def scanBound (a : Nat) : Nat := 56 * (16 - a) + (56 + 356) * (128 - max a 16)

theorem scanBound_low {a : Nat} (h : a < 16) : scanBound a = 56 + scanBound (a + 1) := by
  unfold scanBound
  omega

theorem scanBound_high {a : Nat} (h : 16 ≤ a) (h' : a ≤ 127) : scanBound a = 56 + 356 + scanBound (a + 1) := by
  unfold scanBound
  omega

theorem scanBound_probe {a : Nat} (h : a ≤ 127) : 56 + scanBound (a + 1) ≤ scanBound a := by
  rcases Nat.lt_or_ge a 16 with hlow | hhigh
  · exact (scanBound_low hlow).ge
  · rw [scanBound_high hhigh h]
    omega

theorem probed_length (a7 : Addr) (k : Bool) : (probed a7 k).events.length = 56 := (probed_tally a7 k).1

/-- SCAN_LAST is an address, so that no window reaches past 127. -/
theorem Scanned.events_length_le {p : Params} {a bad : Nat} {x : Traffic} {e : ScanEnd} {n : Nat}
    (h : Scanned p a bad x e n) : x.events.length ≤ scanBound a := by
  have hlast : p.scanLast.toNat ≤ 127 := Nat.le_of_lt_succ p.scanLast.isLt
  induction h with
  | exhausted => exact Nat.zero_le _
  | silent hle _ ih | flagged hle _ _ _ ih =>
    rw [andThen_length, probed_length]
    exact (Nat.add_le_add_left ih _).trans (scanBound_probe (hle.trans hlast))
  | aborted hle =>
    rw [probed_length]
    exact (Nat.le_add_right _ _).trans (scanBound_probe (hle.trans hlast))
  | unknown hle hhigh hid _ ih =>
    have := hid.events_length_le
    rw [andThen_length, andThen_length, probed_length, scanBound_high hhigh (hle.trans hlast)]
    omega
  | found hle hhigh _ hid =>
    have := hid.events_length_le
    rw [andThen_length, probed_length, scanBound_high hhigh (hle.trans hlast)]
    omega

/-! ### How long a command is (R290) -/

/-- A scan over an empty window makes no event; no other one begins before address 4. -/
theorem scan_events_length_le (s : State) :
    ∃ es, (scanFrom (scanWindow s.params) (scanEntry s)).trace = s.trace ++ es ∧ es.length ≤ 46816 := by
  by_cases hwindow : 4 ≤ s.params.scanLast.toNat
  · obtain ⟨x, e, n, hscan, hdid, -⟩ := did_scan s hwindow
    exact ⟨x.events, hdid.trace, hscan.events_length_le⟩
  · rw [scan_empty s (by omega)]
    exact ⟨[], (List.append_nil _).symm, Nat.zero_le _⟩

/-- A command that is not refused is its traffic. -/
theorem exec_events_length_le {i : Instr} {s : State} (hf : i.fits s.params.bufLen = true)
    (hc : i.needsHandle = true → s.configured = true) :
    ∃ es t, exec i s = .next t ∧ t.trace = s.trace ++ es ∧ es.length ≤ eventBound i := by
  cases i with
  | configure sda scl speed => exact ⟨[], _, rfl, (List.append_nil _).symm, Nat.le_refl _⟩
  | start a7 rw => exact ⟨_, _, exec_start a7 rw (hc rfl), (did_doStart a7 rw s).trace, (started_length a7 rw _).le⟩
  | stop => exact ⟨_, _, exec_stop (hc rfl), (did_doStop s).trace, Nat.le_refl _⟩
  | writeByte b => exact ⟨_, _, next_checkHandle (hc rfl), (did_doWriteByte b s).trace, (sent_length b _).le⟩
  | readByte last =>
    obtain ⟨ks, hks, -, hdid⟩ := did_doReadByte last s
    exact ⟨_, _, next_checkHandle (hc rfl), hdid.trace, (received_length hks last).le⟩
  | writeN a7 len =>
    obtain ⟨x, hx, hdid⟩ := did_doWriteN a7 (payload s.txbuf len) s
    have hlen : (payload s.txbuf len).length ≤ len.toNat := List.length_take_le _ _
    exact ⟨_, _, exec_writeN a7 (hc rfl) (of_decide_eq_true hf), hdid.trace,
      hx.events_length_le.trans (Nat.add_le_add_left (Nat.mul_le_mul_left 47 hlen) 56)⟩
  | readN a7 len =>
    obtain ⟨x, hx, hdid⟩ := did_doReadN a7 len.toNat s
    exact ⟨_, _, exec_readN a7 (hc rfl) (of_decide_eq_true hf), (respondRead_trace _).trans hdid.trace,
      hx.events_length_le⟩
  | probe a7 => exact ⟨_, _, exec_probe a7 (hc rfl), (did_doProbe a7 s).trace, (probed_length a7 _).le⟩
  | readReg a7 reg len =>
    obtain ⟨x, hx, hdid⟩ := did_doReadReg a7 reg len.toNat s
    exact ⟨_, _, exec_readReg a7 reg (hc rfl) (of_decide_eq_true hf), (respondRead_trace _).trans hdid.trace,
      hx.events_length_le⟩
  | scan =>
    obtain ⟨es, htrace, hlen⟩ := scan_events_length_le s
    exact ⟨es, _, exec_scan (hc rfl), htrace, hlen⟩
  | identify a7 =>
    obtain ⟨x, hx, hdid⟩ := did_doIdentify a7 s
    exact ⟨_, _, exec_identify a7 (hc rfl), hdid.trace, hx.events_length_le⟩
  | wrTx idx val =>
    exact ⟨[], _, exec_wrTx val (of_decide_eq_true hf), (List.append_nil _).symm, Nat.le_refl _⟩
  | rdRx idx => exact ⟨[], _, exec_rdRx (of_decide_eq_true hf), (List.append_nil _).symm, Nat.le_refl _⟩
  | rdStat sel => exact ⟨[], _, rfl, (List.append_nil _).symm, Nat.le_refl _⟩

end Sys2Proof.Safety

namespace Sys2Proof.Proofs

open Sys2Proof.Machine Sys2Proof.Safety

/-- Settles O38: a refused command makes no event, and the traffic of the others is counted piece by piece. -/
theorem eventsAreBounded : Obligations.EventsAreBounded := by
  intro i s
  by_cases hrun : i.fits s.params.bufLen = true ∧ (i.needsHandle = true → s.configured = true)
  · obtain ⟨hfits, hhandle⟩ := hrun
    exact exec_events_length_le hfits hhandle
  · obtain ⟨c, hexec⟩ := exec_refused hrun
    exact ⟨[], _, hexec, (List.append_nil _).symm, Nat.zero_le _⟩

/-- Settles O52: CONFIGURE writes the handle alone, so that the events of the STOP are issued on the new pins. -/
theorem reconfiguringLeavesTheOldPins : Obligations.ReconfiguringLeavesTheOldPins := by
  intro s sda scl speed
  obtain ⟨t, ht, rfl, rfl, hc, -, -, -, hworld, -, -, hengine, hresp⟩ := configureStoresTheHandle s sda scl speed
  refine ⟨t, _, ht, exec_stop hc, hresp, hengine.bus, hengine.sdaDrv, hengine.sclDrv, rfl, rfl, ?calls,
    (doStop_idle t).respond _ _, ?others, ?sda, ?scl, ?unseen⟩
  case calls => exact hengine.calls ▸ (doStop_issued t).calls
  case others => exact fun p hsda hscl => hengine.bus ▸ mem_held_doStop_of_other hsda hscl
  case sda => exact fun hs => not_mem_held_doStop (.inl rfl) (hworld.params ▸ hs)
  case scl => exact fun hs => not_mem_held_doStop (.inr rfl) (hworld.params ▸ hs)
  case unseen =>
    rw [← hengine.bus]
    exact fun htwo hsda hscl hscript => ((runs_doStop t).beside ⟨htwo, hsda, hscl, hscript⟩).1

/-- Settles O15: the events that have run are the first of the command, none for a word that is no command, and the
reset leaves the pins as they left them. -/
theorem resetInsideACommandAbandonsIt : Obligations.ResetInsideACommandAbandonsIt := by
  intro s w n rest h
  exact ⟨abort w n rest s, step_of_abort h, afterReset_values _ _ _ _ _, rfl, rfl, rfl, rfl,
    fun hd => abort_pins (ranBefore_none hd),
    fun i es u hd hexec htrace => abort_pins (ranBefore_eq hd hexec htrace)⟩

end Sys2Proof.Proofs
end
